-- ==== Sys2Proof/Word.lean ====
section
/-! DEFINITION. The words of the notation: a byte, a 32-bit register word, a byte string, a 16-byte block
(spec/00_scope.md R10, R11, R6). -/

namespace Sys2Proof

/-- R10: an 8-bit unsigned value. -/
abbrev Byte := BitVec 8

/-- R11: a register is 32 bits, bit 0 least significant. -/
abbrev Word := BitVec 32

/-- R10: a finite sequence of bytes, index 0 first. -/
abbrev Bytes := List Byte

/-- R6, R17: 16 bytes, the AES block size. -/
abbrev Block := Vector Byte 16

/-- R61: the host's 21-bit offset space. -/
abbrev HostOffset := BitVec 21

end Sys2Proof
end

