-- ==== Sys2Proof/Syntax.lean ====
section
/-! DEFINITION. The commands (spec/30_encoding.md R90, R91, R99), one constructor for each row of
spec/opcode_table.json, the named values of their fields (R92, R93, R94), and the reasons a word is illegal (R97). -/

namespace Sys2Proof

/-- spec/10_state.md R30, spec/30_encoding.md R92: the cipher modes. -/
inductive Mode where
  | ecb | cbc | cfb | ofb | ctr
  deriving DecidableEq, Repr, Inhabited

/-- R94: the key sizes 128, 192 and 256 bits. -/
inductive KeySize where
  | k128 | k192 | k256
  deriving DecidableEq, Repr, Inhabited

/-- R94: the direction. -/
inductive Dir where
  | enc | dec
  deriving DecidableEq, Repr, Inhabited

/-- R93, spec/00_scope.md R8: the hash variants. -/
inductive HashAlg where
  | md5 | sha1 | sha256 | sha384 | sha512
  deriving DecidableEq, Repr, Inhabited

/-- R91: a decoded command. MODE, KSZ and HALG are the field's unsigned value (R95), because their reserved
values decode too (R98); both values of DIR and PAD have a meaning (R94). -/
inductive Instr where
  | nop
  | cipherInit (mode ksz : Nat) (dir : Dir) (pad : Bool)
  | cipherUpdate
  | cipherFinal
  | cipherClean
  | macSetkey (halg : Nat)
  | macCompute
  | macClean
  | kdfDerive (halg : Nat)
  | bufZero
  | zeroizeAll
  deriving DecidableEq, Repr

/-- R97: why a command word is illegal. -/
inductive DecodeError where
  /-- bit 7 or one of bits [31:15] is set -/
  | reservedBitSet
  /-- OP is 0xB..0xF -/
  | reservedOpcode
  /-- a field the opcode does not use is nonzero -/
  | unusedFieldNonzero
  deriving DecidableEq, Repr

end Sys2Proof
end

