-- ==== Sys2Proof/Config.lean ====
section
/-! DEFINITION. The parameters the model takes (spec/00_scope.md R6, R7, R8; spec/92_eei_decisions.md D3, D7, D43).
What is plain data (BUF_SIZE, HALG_PRESENT, B_h, L_h) is a `Cfg`, which every state carries unchanged (log 4), so
that what is said of every state is said of every configuration. What is a function (the block cipher, the hashes)
is a `Prims`; the machine's own is `Config.prims`, made of constants that have no body (log 6, log 7). -/

namespace Sys2Proof

/-- R8: the block size B_h and digest size L_h of a hash, in bytes. -/
structure HashSize where
  block : Nat
  digest : Nat
  deriving DecidableEq, Repr

/-- R6: the parameters that are plain data. -/
structure Cfg where
  /-- log2 of BUF_SIZE -/
  bufLog : Nat
  /-- HALG_PRESENT, bit h for HALG code h -/
  halgPresent : BitVec 5
  md5 : HashSize
  sha1 : HashSize
  sha256 : HashSize
  sha384 : HashSize
  sha512 : HashSize
  deriving DecidableEq, Repr

/-- R6, R8: the reference values (log 4, log 5, DESIGN CHOICE). -/
def Cfg.reference : Cfg where
  bufLog := 18
  halgPresent := 0b11111
  md5 := { block := 64, digest := 16 }
  sha1 := { block := 64, digest := 20 }
  sha256 := { block := 64, digest := 32 }
  sha384 := { block := 128, digest := 48 }
  sha512 := { block := 128, digest := 64 }

/-- R7, R8: the primitives. -/
structure Prims where
  /-- AES_Enc(ksz, key, blk) -/
  aesEnc : KeySize → Bytes → Block → Block
  /-- AES_Dec(ksz, key, blk) -/
  aesDec : KeySize → Bytes → Block → Block
  /-- a string whose first L_h bytes are Hash_h(m) -/
  hash : HashAlg → Bytes → Vector Byte 128

/-- Log 6 (DEDUCED): AES under a key size and a key, open in D43. R7 makes AES_Dec a left inverse of AES_Enc on the
finite set of blocks, which is to say that AES_Enc is a permutation and AES_Dec its inverse. -/
opaque Config.aes : KeySize → Bytes → Equiv.Perm Block

/-- Log 7 (DESIGN CHOICE): the hashes, open in D43; the first L_h bytes are Hash_h(m). -/
opaque Config.hash : HashAlg → Bytes → Vector Byte 128

/-- The primitives of the machine. -/
def Config.prims : Prims where
  aesEnc k key b := Config.aes k key b
  aesDec k key b := (Config.aes k key).symm b
  hash := Config.hash

end Sys2Proof
end

