-- ==== Sys2Proof/WellFormed.lean ====
section
/-! DEFINITION. Which command terms a command word can encode: each field value fits its field
(spec/30_encoding.md R90). DIR and PAD fit by their types. -/

namespace Sys2Proof

/-- R90: MODE has 3 bits. -/
def modeFits (mode : Nat) : Bool := mode < 8

/-- R90: KSZ has 2 bits. -/
def kszFits (ksz : Nat) : Bool := ksz < 4

/-- R90: HALG has 3 bits. -/
def halgFits (halg : Nat) : Bool := halg < 8

/-- R90: every field value of the command fits its field. -/
def wellFormed : Instr → Bool
  | .nop => true
  | .cipherInit mode ksz _ _ => modeFits mode && kszFits ksz
  | .cipherUpdate => true
  | .cipherFinal => true
  | .cipherClean => true
  | .macSetkey halg => halgFits halg
  | .macCompute => true
  | .macClean => true
  | .kdfDerive halg => halgFits halg
  | .bufZero => true
  | .zeroizeAll => true

/-- The command is one that some command word encodes. -/
abbrev WellFormed (i : Instr) : Prop := wellFormed i = true

end Sys2Proof
end

