-- ==== Sys2Proof/Decode.lean ====
section
/-! DEFINITION. Command words (spec/30_encoding.md): the codes of the field values (R92, R93, R94), the decoder
(R97), the opcode map (R99) and the encoder (R90, R91). Decoding reads the word alone (R100). -/

namespace Sys2Proof

/-- R92: the MODE code of a mode. -/
def Mode.code : Mode → Nat
  | .ecb => 0 | .cbc => 1 | .cfb => 2 | .ofb => 3 | .ctr => 4

/-- R92: the mode of a MODE field value; 5, 6 and 7 are reserved. -/
def Mode.ofCode : Nat → Option Mode
  | 0 => some .ecb | 1 => some .cbc | 2 => some .cfb | 3 => some .ofb | 4 => some .ctr
  | _ => none

/-- spec/42_cipher.md R161: ECB and CBC are the block modes. -/
def Mode.isBlock : Mode → Bool
  | .ecb | .cbc => true
  | .cfb | .ofb | .ctr => false

/-- R94: the key size of a KSZ field value; 3 is reserved. -/
def KeySize.ofCode : Nat → Option KeySize
  | 0 => some .k128 | 1 => some .k192 | 2 => some .k256
  | _ => none

/-- spec/00_scope.md R7: ksz/8, the bytes of a key. -/
def KeySize.bytes : KeySize → Nat
  | .k128 => 16 | .k192 => 24 | .k256 => 32

/-- R94: the DIR bit. -/
def Dir.bit : Dir → Bool
  | .enc => false | .dec => true

/-- R94: the direction of a DIR bit. -/
def Dir.ofBit : Bool → Dir
  | false => .enc | true => .dec

/-- R93: the HALG code of a hash variant. -/
def HashAlg.code : HashAlg → Nat
  | .md5 => 0 | .sha1 => 1 | .sha256 => 2 | .sha384 => 3 | .sha512 => 4

/-- R93: the hash variant of a HALG field value; 5, 6 and 7 are reserved. -/
def HashAlg.ofCode : Nat → Option HashAlg
  | 0 => some .md5 | 1 => some .sha1 | 2 => some .sha256 | 3 => some .sha384 | 4 => some .sha512
  | _ => none

/-- spec/00_scope.md R11: `v[hi:lo]`, zero-extended, for the field of `len` bits at `lo`. -/
def bitField (lo len : Nat) (w : Word) : Nat := (w.extractLsb' lo len).toNat

/-- R97: a command that uses no field; it needs bits [14:4] zero. -/
def decodePlain (w : Word) (i : Instr) : Except DecodeError Instr :=
  if bitField 4 11 w = 0 then .ok i else .error .unusedFieldNonzero

/-- R97: a command that uses HALG only; it needs bits [11:4] zero. -/
def decodeHalg (w : Word) (i : Nat → Instr) : Except DecodeError Instr :=
  if bitField 4 8 w = 0 then .ok (i (bitField 12 3 w)) else .error .unusedFieldNonzero

/-- R97: CIPHER_INIT; it needs bits [14:12] zero. -/
def decodeCipherInit (w : Word) : Except DecodeError Instr :=
  if bitField 12 3 w = 0 then
    .ok (.cipherInit (bitField 4 3 w) (bitField 8 2 w) (Dir.ofBit (w.getLsbD 10)) (w.getLsbD 11))
  else .error .unusedFieldNonzero

/-- R97: the command a word stands for, or why it is illegal. -/
def decode (w : Word) : Except DecodeError Instr :=
  if bitField 15 17 w ≠ 0 ∨ w.getLsbD 7 = true then .error .reservedBitSet
  else match bitField 0 4 w with
    | 0x0 => decodePlain w .nop
    | 0x1 => decodeCipherInit w
    | 0x2 => decodePlain w .cipherUpdate
    | 0x3 => decodePlain w .cipherFinal
    | 0x4 => decodePlain w .cipherClean
    | 0x5 => decodeHalg w .macSetkey
    | 0x6 => decodePlain w .macCompute
    | 0x7 => decodePlain w .macClean
    | 0x8 => decodeHalg w .kdfDerive
    | 0x9 => decodePlain w .bufZero
    | 0xA => decodePlain w .zeroizeAll
    | _ => .error .reservedOpcode

/-- R90, R91: the OP value of a command. -/
def opcodeOf : Instr → Nat
  | .nop => 0x0
  | .cipherInit .. => 0x1
  | .cipherUpdate => 0x2
  | .cipherFinal => 0x3
  | .cipherClean => 0x4
  | .macSetkey _ => 0x5
  | .macCompute => 0x6
  | .macClean => 0x7
  | .kdfDerive _ => 0x8
  | .bufZero => 0x9
  | .zeroizeAll => 0xA

/-- R90: a field value at its bit position. -/
def atBit (lo v : Nat) : Word := BitVec.ofNat 32 v <<< lo

/-- R90: the fields a command uses, each at its position; every other bit is 0. -/
def operandBits : Instr → Word
  | .nop => 0
  | .cipherInit mode ksz dir pad => atBit 4 mode ||| atBit 8 ksz ||| atBit 10 dir.bit.toNat ||| atBit 11 pad.toNat
  | .cipherUpdate => 0
  | .cipherFinal => 0
  | .cipherClean => 0
  | .macSetkey halg => atBit 12 halg
  | .macCompute => 0
  | .macClean => 0
  | .kdfDerive halg => atBit 12 halg
  | .bufZero => 0
  | .zeroizeAll => 0

/-- R90: the command word of a well-formed command. -/
def encode (i : Instr) : Word := atBit 0 (opcodeOf i) ||| operandBits i

/-- R99: the `match` column of the command's row. -/
def rowMatch (i : Instr) : Word := atBit 0 (opcodeOf i)

/-- R99: the `mask` column of the command's row. -/
def rowMask : Instr → Word
  | .nop => 0xFFFFFFFF
  | .cipherInit .. => 0xFFFFF08F
  | .cipherUpdate => 0xFFFFFFFF
  | .cipherFinal => 0xFFFFFFFF
  | .cipherClean => 0xFFFFFFFF
  | .macSetkey _ => 0xFFFF8FFF
  | .macCompute => 0xFFFFFFFF
  | .macClean => 0xFFFFFFFF
  | .kdfDerive _ => 0xFFFF8FFF
  | .bufZero => 0xFFFFFFFF
  | .zeroizeAll => 0xFFFFFFFF

/-- R99: the opcode map, (match, mask) for each row in the table's order. -/
def opcodeMap : List (Word × Word) :=
  [(0x00000000, 0xFFFFFFFF), (0x00000001, 0xFFFFF08F), (0x00000002, 0xFFFFFFFF), (0x00000003, 0xFFFFFFFF),
   (0x00000004, 0xFFFFFFFF), (0x00000005, 0xFFFF8FFF), (0x00000006, 0xFFFFFFFF), (0x00000007, 0xFFFFFFFF),
   (0x00000008, 0xFFFF8FFF), (0x00000009, 0xFFFFFFFF), (0x0000000A, 0xFFFFFFFF)]

/-- R99: `w` selects the row when `(w AND mask) = match`. -/
def selectsRow (w : Word) (row : Word × Word) : Bool := w &&& row.2 == row.1

/-- The command of a word given as a number whose bits above `nbits` are 0, as the opcode table numbers bits. A
command is one 32-bit CMD write (R90, R100), so the number is the word itself; one that does not fit is no command. -/
def decodeTableWord (nbits w : Nat) : Option Instr :=
  if w < 2 ^ nbits ∧ w < 2 ^ 32 then (decode (BitVec.ofNat 32 w)).toOption else none

end Sys2Proof
end

