-- ==== Sys2Proof/Machine/State.lean ====
section
/-! DEFINITION. The state of one engine instance (spec/10_state.md R20), as plain data, and its value after reset
(R42). `cfg`, `inbox` and `rdata` are the model's own fields (log 4, log 1, log 3). -/

namespace Sys2Proof.Machine

/-- R27: the ten operand registers. -/
structure OpRegs where
  srcAddr : Word
  srcLen : Word
  dstAddr : Word
  dstCap : Word
  keyAddr : Word
  keyLen : Word
  auxAddr : Word
  auxLen : Word
  iterCount : Word
  dkLen : Word
  deriving DecidableEq, Repr

/-- R27: the name of an operand register. -/
inductive OpReg where
  | srcAddr | srcLen | dstAddr | dstCap | keyAddr | keyLen | auxAddr | auxLen | iterCount | dkLen
  deriving DecidableEq, Repr

/-- R21 to R29: what a register offset names. -/
inductive Reg where
  | id | caps | status | ctrl | cmd | resultLen
  | operand (r : OpReg)
  | reserved
  deriving DecidableEq, Repr

/-- spec/20_memory.md R61: what a host offset reaches; a RAM offset carries its engine address. -/
inductive Region where
  | registers
  | ram (addr : Nat)
  | reserved
  deriving DecidableEq, Repr

/-- R30: the lifecycle of the cipher context. -/
inductive CState where
  | uninit | active | done
  deriving DecidableEq, Repr

/-- R30: the cipher context. -/
structure CipherCtx where
  cstate : CState
  mode : Mode
  ksz : KeySize
  dir : Dir
  pad : Bool
  /-- the first ksz/8 bytes are meaningful, the rest 0x00 -/
  key : Vector Byte 32
  /-- the IV as given at CIPHER_INIT; R39: read by no command -/
  oiv : Block
  /-- chaining, feedback or counter state -/
  civ : Block
  /-- the current CTR keystream block -/
  ks : Block
  /-- bytes used of the current keystream block -/
  off : Fin 16
  /-- residue or held-back bytes, at most 16 (R31) -/
  res : Bytes
  deriving DecidableEq, Repr

/-- R31: the value of a context that is UNINIT. -/
def CipherCtx.uninit : CipherCtx where
  cstate := .uninit
  mode := .ecb
  ksz := .k128
  dir := .enc
  pad := false
  key := Vector.replicate 32 0
  oiv := Vector.replicate 16 0
  civ := Vector.replicate 16 0
  ks := Vector.replicate 16 0
  off := 0
  res := []

/-- R33: whether the MAC unit holds a key. -/
inductive MState where
  | unkeyed | keyed
  deriving DecidableEq, Repr

/-- R33: the MAC context; the first B_halg bytes of each string are meaningful, the rest 0x00. -/
structure MacCtx where
  mstate : MState
  halg : HashAlg
  k0 : Vector Byte 128
  ipad : Vector Byte 128
  opad : Vector Byte 128
  deriving DecidableEq, Repr

/-- R34: the value of a context that is UNKEYED. -/
def MacCtx.unkeyed : MacCtx where
  mstate := .unkeyed
  halg := .md5
  k0 := Vector.replicate 128 0
  ipad := Vector.replicate 128 0
  opad := Vector.replicate 128 0

/-- spec/60_exceptions.md R240: the error codes; 7 to 15 are never produced (log 12). -/
inductive ErrCode where
  | ok | invalidAlgorithm | invalidState | invalidParameters | bufferTooSmall | invalidPadding | illegalCommand
  deriving DecidableEq, Repr

/-- R35: the engine control state; STATUS, CTRL and RESULT_LEN are views of it. -/
structure Eng where
  busy : Bool
  /-- the accepted command word, meaningful while busy -/
  cmd : Word
  /-- the operand registers as they stood at acceptance -/
  op : OpRegs
  done : Bool
  overrun : Bool
  accessErr : Bool
  errcode : ErrCode
  resultLen : Word
  ie : Bool
  deriving DecidableEq, Repr

/-- What the two agents and the reset input do, one at a time (spec/20_memory.md R72; log 1). -/
inductive Action where
  /-- a host read of `width` bytes (R61, R68) -/
  | read (off : HostOffset) (width : Nat)
  /-- a host write of `width` bytes (R61, R68) -/
  | write (off : HostOffset) (width : Nat) (value : Word)
  /-- the moment of the engine's completion step (spec/70_reset_and_hazards.md R285) -/
  | engine
  /-- the reset input (R280) -/
  | reset
  deriving DecidableEq, Repr

/-- spec/20_memory.md R60: the buffer RAM, as the bytes that are not 0x00, addresses strictly rising. A byte that is
not listed reads as 0x00, the spec's reset contents (R42). -/
abbrev Memory := List Host.Cell

/-- R20: the state of one engine instance. `irq` has no state of its own (R41). -/
structure State where
  /-- R27: the live operand registers -/
  regs : OpRegs
  ctx : CipherCtx
  mac : MacCtx
  ram : Memory
  eng : Eng
  /-- the model's own: the configuration of the instance, which no step changes (log 4) -/
  cfg : Cfg
  /-- the model's own: the actions still to come, the next one first (log 1) -/
  inbox : List Action
  /-- the model's own: the value the last host read returned (log 3) -/
  rdata : Word
  deriving DecidableEq, Repr

/-- Nothing stops this machine (spec/60_exceptions.md R243: "no machine-check and no hang"), so no reason to stop
exists and this type has no constructor (log 8). Safe: no run can end in a fault. -/
inductive Fault where
  deriving DecidableEq, Repr

/-- Why the model gives no meaning. -/
inductive Refusal where
  /-- An arm of exec whose instruction has no meaning yet, with its mnemonic. No arm raises it: every row of the
  opcode table has its meaning (log 8). Safe. -/
  | notModelled (mnemonic : String)
  deriving DecidableEq, Repr

/-- R42: the operand registers after reset; ITER_COUNT is 500000 and DK_LEN 32. -/
def OpRegs.reset : OpRegs where
  srcAddr := 0
  srcLen := 0
  dstAddr := 0
  dstCap := 0
  keyAddr := 0
  keyLen := 0
  auxAddr := 0
  auxLen := 0
  iterCount := 500000
  dkLen := 32

/-- R42: the operand snapshot after reset, all ten fields 0. -/
def OpRegs.zero : OpRegs where
  srcAddr := 0
  srcLen := 0
  dstAddr := 0
  dstCap := 0
  keyAddr := 0
  keyLen := 0
  auxAddr := 0
  auxLen := 0
  iterCount := 0
  dkLen := 0

/-- R42: the engine control state after reset. -/
def Eng.reset : Eng where
  busy := false
  cmd := 0
  op := OpRegs.zero
  done := false
  overrun := false
  accessErr := false
  errcode := .ok
  resultLen := 0
  ie := false

/-- R42, R280, R282: an instance of a configuration right after reset or power-on. Nothing is to come (log 1, log 3). -/
def State.resetOf (cfg : Cfg) : State where
  regs := OpRegs.reset
  ctx := CipherCtx.uninit
  mac := MacCtx.unkeyed
  ram := []
  eng := Eng.reset
  cfg := cfg
  inbox := []
  rdata := 0

/-- R42: the reference configuration right after reset. -/
def State.reset : State := State.resetOf Cfg.reference

end Sys2Proof.Machine
end

