-- ==== Sys2Proof/Machine/Ops.lean ====
section
/-! DEFINITION. The shared operations: byte strings (spec/00_scope.md R10, R12), the buffer RAM
(spec/20_memory.md R60, R62, R64, R65), acceptance, completion and the taking of an error
(spec/60_exceptions.md R244 to R248), erasure, and the output of a command. -/

namespace Sys2Proof

/-! ### Byte strings -/

/-- R10: `zeros(n)`. -/
def zeros (n : Nat) : Bytes := List.replicate n 0

/-- R10: `xor(a, b)` of two strings of equal length. -/
def xorBytes (a b : Bytes) : Bytes := List.zipWith (· ^^^ ·) a b

/-- The fixed-size form of a byte string that is at most `n` bytes long, filled up with 0x00. -/
def toVec (n : Nat) (s : Bytes) : Vector Byte n := Vector.ofFn fun i => s.getD i.val 0

/-- A string of 16 bytes as a block. -/
def toBlock (s : Bytes) : Block := toVec 16 s

/-- R10: `xor` of two blocks. -/
def xorBlock (a b : Block) : Block := Vector.zipWith (· ^^^ ·) a b

/-- R12: `BE32(i)`. -/
def be32 (i : Nat) : Bytes :=
  [BitVec.ofNat 8 (i >>> 24), BitVec.ofNat 8 (i >>> 16), BitVec.ofNat 8 (i >>> 8), BitVec.ofNat 8 i]

/-- The integer of a byte string read most significant byte first, above the value `n` so far. -/
def beValue (n : Nat) : Bytes → Nat
  | [] => n
  | b :: s => beValue (n * 256 + b.toNat) s

/-- R12: `BE128(s)`. -/
def be128 (b : Block) : Nat := beValue 0 b.toList

/-- R12: `toBE128(n)`. -/
def toBE128 (n : Nat) : Block := Vector.ofFn fun i => BitVec.ofNat 8 (n >>> (8 * (15 - i.val)))

/-- spec/20_memory.md R62: the value of bytes read little-endian, the first being bits [7:0]. -/
def leValue : Bytes → Nat
  | [] => 0
  | b :: s => b.toNat + 256 * leValue s

/-- R62: the `w` bytes of a value, bits [7:0] first. -/
def leBytes : Nat → Nat → Bytes
  | 0, _ => []
  | w + 1, v => BitVec.ofNat 8 v :: leBytes w (v >>> 8)

namespace Machine

/-! ### Buffer RAM -/

/-- R60, R42: what a byte of RAM that is not listed reads as. -/
def unlistedByte : Byte := 0

/-- R60: the byte at an address. -/
def readByte : Memory → Nat → Byte
  | [], _ => unlistedByte
  | (k, b) :: m, a => if k = a then b else readByte m a

/-- The RAM list without an address; the byte there reads as an unlisted one. -/
def eraseByte (a : Nat) : Memory → Memory
  | [] => []
  | (k, c) :: m => if k = a then eraseByte a m else (k, c) :: eraseByte a m

/-- The RAM list with an address it does not hold, in its place. -/
def insertByte (a : Nat) (b : Byte) : Memory → Memory
  | [] => [(a, b)]
  | (k, c) :: m => if k < a then (k, c) :: insertByte a b m else (a, b) :: (k, c) :: m

/-- R65: set the byte at an address and no other; the byte an unlisted address reads as is not listed. -/
def writeByte (m : Memory) (a : Nat) (b : Byte) : Memory :=
  if b = unlistedByte then eraseByte a m else insertByte a b (eraseByte a m)

/-- R64: `MemRead(a, n)`. -/
def memRead (m : Memory) (a : Nat) : Nat → Bytes
  | 0 => []
  | n + 1 => readByte m a :: memRead m (a + 1) n

/-- R65: `MemWrite(a, len(s), s)`. -/
def memWrite (m : Memory) (a : Nat) : Bytes → Memory
  | [] => m
  | b :: s => memWrite (writeByte m a b) (a + 1) s

/-- The canonical form: addresses strictly rising from `lo`, and no byte listed that an unlisted address reads as. -/
def memWfFrom (lo : Nat) : Memory → Bool
  | [] => true
  | (k, b) :: m => lo ≤ k && b != unlistedByte && memWfFrom (k + 1) m

/-- The RAM list is in its canonical form. -/
def Memory.wf (m : Memory) : Bool := memWfFrom 0 m

/-! ### Acceptance and completion -/

/-- R244: a command word is accepted; the ten operand registers are copied (spec/70_reset_and_hazards.md R287). -/
def accept (w : Word) (s : State) : State :=
  { s with eng := { s.eng with cmd := w, op := s.regs, busy := true, done := false } }

/-- R245: `complete(n)`. -/
def complete (n : Nat) (s : State) : State :=
  { s with eng := { s.eng with resultLen := BitVec.ofNat 32 n, errcode := .ok, busy := false, done := true } }

/-- R246: `raise E`, the whole of taking an error, after the family's erasure. There is no return from it (R251). -/
def raiseErr (e : ErrCode) (s : State) : State :=
  { s with eng := { s.eng with resultLen := 0, errcode := e, busy := false, done := true } }

/-- spec/42_cipher.md R160: the cipher context is zeroized. -/
def zeroizeCtx (s : State) : State := { s with ctx := CipherCtx.uninit }

/-- spec/40_mac.md R129: the MAC context is zeroized. -/
def zeroizeMac (s : State) : State := { s with mac := MacCtx.unkeyed }

/-- spec/43_system.md R224: every byte of RAM is 0x00. -/
def zeroizeRam (s : State) : State := { s with ram := [] }

/-- spec/20_memory.md R67: a command's output goes to DST_ADDR after everything is computed. -/
def storeOut (out : Bytes) (s : State) : State := { s with ram := memWrite s.ram s.eng.op.dstAddr.toNat out }

/-- R247: an illegal word completes with IllegalCommand and erases nothing. -/
def illegalCommand (s : State) : State := raiseErr .illegalCommand s

/-- R245, R246, R248: end a cipher command with its new context and output, or with an error and the cipher context
zeroized. -/
def finishCipher (s : State) : Except ErrCode (CipherCtx × Bytes) → State
  | .error e => raiseErr e (zeroizeCtx s)
  | .ok (c, out) => complete out.length (storeOut out { s with ctx := c })

/-- R245, R246, R248: end a MAC or KDF command with its new context and output, or with an error and the MAC context
zeroized. -/
def finishMac (s : State) : Except ErrCode (MacCtx × Bytes) → State
  | .error e => raiseErr e (zeroizeMac s)
  | .ok (m, out) => complete out.length (storeOut out { s with mac := m })

/-- R245, R246, R248: end a command that belongs to no unit with its output, or with an error that erases nothing. -/
def finishSystem (s : State) : Except ErrCode Bytes → State
  | .error e => raiseErr e s
  | .ok out => complete out.length (storeOut out s)

end Machine
end Sys2Proof
end

