-- ==== Sys2Proof/Machine/Operands.lean ====
section
/-! DEFINITION. Operands: the parameters a command consults (spec/00_scope.md R6), the range check
(spec/20_memory.md R66), the operand areas of the latched registers (spec/30_encoding.md R95, R96), and the operand
registers by name (spec/10_state.md R27). -/

namespace Sys2Proof

/-- R6: BUF_SIZE, in bytes. -/
def Cfg.bufSize (g : Cfg) : Nat := 2 ^ g.bufLog

/-- R8: the sizes of a hash. -/
def Cfg.hashSize (g : Cfg) : HashAlg → HashSize
  | .md5 => g.md5
  | .sha1 => g.sha1
  | .sha256 => g.sha256
  | .sha384 => g.sha384
  | .sha512 => g.sha512

/-- R8: B_h. -/
def Cfg.blockSize (g : Cfg) (h : HashAlg) : Nat := (g.hashSize h).block

/-- R8: L_h. -/
def Cfg.digestSize (g : Cfg) (h : HashAlg) : Nat := (g.hashSize h).digest

/-- R8: `Hash_h(m)`, exactly L_h bytes. -/
def hashBytes (p : Prims) (g : Cfg) (h : HashAlg) (m : Bytes) : Bytes := (p.hash h m).toList.take (g.digestSize h)

/-- spec/30_encoding.md R93: the hash core with this code is in HALG_PRESENT. -/
def Cfg.present (g : Cfg) (h : HashAlg) : Bool := g.halgPresent.getLsbD h.code

/-- spec/20_memory.md R66: `InRange(a, n)`, on unbounded integers. -/
def Cfg.inRange (g : Cfg) (a n : Nat) : Bool := a + n ≤ g.bufSize

/-- R93, R125, R145: the hash that a HALG field value selects, if it is not reserved and its core is present. -/
def Cfg.selectHash (g : Cfg) (halg : Nat) : Option HashAlg :=
  match HashAlg.ofCode halg with
  | none => none
  | some h => if g.present h then some h else none

namespace Machine

/-- R27: the value of an operand register. -/
def OpRegs.get (r : OpRegs) : OpReg → Word
  | .srcAddr => r.srcAddr
  | .srcLen => r.srcLen
  | .dstAddr => r.dstAddr
  | .dstCap => r.dstCap
  | .keyAddr => r.keyAddr
  | .keyLen => r.keyLen
  | .auxAddr => r.auxAddr
  | .auxLen => r.auxLen
  | .iterCount => r.iterCount
  | .dkLen => r.dkLen

/-- R27: the registers with one of them written, every bit of it. -/
def OpRegs.set (r : OpRegs) (v : Word) : OpReg → OpRegs
  | .srcAddr => { r with srcAddr := v }
  | .srcLen => { r with srcLen := v }
  | .dstAddr => { r with dstAddr := v }
  | .dstCap => { r with dstCap := v }
  | .keyAddr => { r with keyAddr := v }
  | .keyLen => { r with keyLen := v }
  | .auxAddr => { r with auxAddr := v }
  | .auxLen => { r with auxLen := v }
  | .iterCount => { r with iterCount := v }
  | .dkLen => { r with dkLen := v }

/-- R96: the area of SRC_ADDR and SRC_LEN lies in RAM. -/
def srcInRange (s : State) : Bool := s.cfg.inRange s.eng.op.srcAddr.toNat s.eng.op.srcLen.toNat

/-- R96: the area of DST_ADDR and DST_CAP lies in RAM. -/
def dstInRange (s : State) : Bool := s.cfg.inRange s.eng.op.dstAddr.toNat s.eng.op.dstCap.toNat

/-- R96: the area of KEY_ADDR and KEY_LEN lies in RAM. -/
def keyInRange (s : State) : Bool := s.cfg.inRange s.eng.op.keyAddr.toNat s.eng.op.keyLen.toNat

/-- R96: the area of AUX_ADDR and AUX_LEN lies in RAM. -/
def auxInRange (s : State) : Bool := s.cfg.inRange s.eng.op.auxAddr.toNat s.eng.op.auxLen.toNat

/-- R96: the bytes of the area of SRC_ADDR and SRC_LEN. -/
def srcBytes (s : State) : Bytes := memRead s.ram s.eng.op.srcAddr.toNat s.eng.op.srcLen.toNat

/-- R96: the bytes of the area of KEY_ADDR and KEY_LEN. -/
def keyBytes (s : State) : Bytes := memRead s.ram s.eng.op.keyAddr.toNat s.eng.op.keyLen.toNat

/-- R96: the bytes of the area of AUX_ADDR and AUX_LEN. -/
def auxBytes (s : State) : Bytes := memRead s.ram s.eng.op.auxAddr.toNat s.eng.op.auxLen.toNat

end Machine
end Sys2Proof
end

