-- ==== Sys2Proof/Machine/Cipher.lean ====
section
/-! DEFINITION. The cipher unit (spec/42_cipher.md): the block-mode transform (R162 to R164), the stream-mode
transform (R170 to R173), padding (R177, R178), the chunk functions (R181, R183, R184), and CIPHER_INIT (R165),
CIPHER_UPDATE and CIPHER_FINAL (R180), CIPHER_CLEAN (R188). -/

namespace Sys2Proof.Machine

/-! ### The block primitive under the context's key -/

/-- spec/00_scope.md R14: the key bytes that are meaningful. -/
def CipherCtx.keyString (c : CipherCtx) : Bytes := c.key.toList.take c.ksz.bytes

/-- R14: `E(b)`. -/
def encBlock (p : Prims) (c : CipherCtx) (b : Block) : Block := p.aesEnc c.ksz c.keyString b

/-- R14: `D(b)`. -/
def decBlock (p : Prims) (c : CipherCtx) (b : Block) : Block := p.aesDec c.ksz c.keyString b

/-- R30: the context with another residue or other held-back bytes. -/
def CipherCtx.holding (c : CipherCtx) (r : Bytes) : CipherCtx := { c with res := r }

/-- R30: the context with another chaining value. -/
def CipherCtx.chained (c : CipherCtx) (civ : Block) : CipherCtx := { c with civ := civ }

/-! ### Block modes -/

/-- R163, R164: one block, with the chaining value before it; the output block and the chaining value after it. The
stream modes never come here (R161). -/
def blockStep (p : Prims) (c : CipherCtx) (civ b : Block) : Block × Block :=
  match c.mode, c.dir with
  | .ecb, .enc => (encBlock p c b, civ)
  | .ecb, .dec => (decBlock p c b, civ)
  | .cbc, .enc => (encBlock p c (xorBlock b civ), encBlock p c (xorBlock b civ))
  | .cbc, .dec => (xorBlock (decBlock p c b) civ, b)
  | _, _ => (b, civ)

/-- R162: `m` blocks of a byte string, from a chaining value; the output and the chaining value after them. -/
def blockMapFrom (p : Prims) (c : CipherCtx) : Nat → Block → Bytes → Bytes × Block
  | 0, civ, _ => ([], civ)
  | m + 1, civ, s =>
    let (o, civ') := blockStep p c civ (toBlock (s.take 16))
    let (out, last) := blockMapFrom p c m civ' (s.drop 16)
    (o.toList ++ out, last)

/-- R162: `blockMap(ctx, s)`. -/
def blockMap (p : Prims) (c : CipherCtx) (s : Bytes) : Bytes × Block := blockMapFrom p c (s.length / 16) c.civ s

/-! ### Stream modes -/

/-- R176: the counter's increment. -/
def nextCounter (b : Block) : Block := toBE128 ((be128 b + 1) % 2 ^ 128)

/-- R171, R172, R173: at the start of a keystream block, the context with the next one. -/
def refill (p : Prims) (c : CipherCtx) : CipherCtx :=
  if c.off = 0 then
    match c.mode with
    | .cfb | .ofb => c.chained (encBlock p c c.civ)
    | .ctr => { c with ks := encBlock p c c.civ, civ := nextCounter c.civ }
    | .ecb | .cbc => c
  else c

/-- R172: what CFB feeds back, the ciphertext byte. -/
def feedback (c : CipherCtx) (x y : Byte) : CipherCtx :=
  match c.mode, c.dir with
  | .cfb, .enc => c.chained (c.civ.set c.off y)
  | .cfb, .dec => c.chained (c.civ.set c.off x)
  | _, _ => c

/-- R171, R172, R173: the keystream byte in use. -/
def keystreamByte (c : CipherCtx) : Byte :=
  match c.mode with
  | .ctr => c.ks[c.off]
  | _ => c.civ[c.off]

/-- R171, R172, R173: one byte; the output byte and the context after it. The block modes never come here (R161). -/
def streamByte (p : Prims) (c : CipherCtx) (x : Byte) : Byte × CipherCtx :=
  let c1 := refill p c
  let y := x ^^^ keystreamByte c1
  let c2 := feedback c1 x y
  (y, { c2 with off := c2.off + 1 })

/-- R170: `streamMap(ctx, s)`; the output and the context after it. -/
def streamMap (p : Prims) (c : CipherCtx) : Bytes → Bytes × CipherCtx
  | [] => ([], c)
  | x :: s =>
    let (y, c1) := streamByte p c x
    let (out, c2) := streamMap p c1 s
    (y :: out, c2)

/-! ### Padding -/

/-- R177: `p = 16 - (n mod 16)`. -/
def padLength (n : Nat) : Nat := 16 - n % 16

/-- R177: `padBytes(n)`. -/
def padBytes (n : Nat) : Bytes := List.replicate (padLength n) (BitVec.ofNat 8 (padLength n))

/-- R178: the pad length that the last byte gives, 0 for an empty string. -/
def lastPad (s : Bytes) : Nat := (s.getLastD 0).toNat

/-- R178: the string ends in a valid pad. The tests `len(s) = 0` and `p < 1` are one: an empty string gives pad 0. -/
def validPad (s : Bytes) : Bool :=
  1 ≤ lastPad s && lastPad s ≤ 16 && lastPad s ≤ s.length &&
    s.drop (s.length - lastPad s) == List.replicate (lastPad s) (BitVec.ofNat 8 (lastPad s))

/-- R178: `depad(s)`. -/
def depad (s : Bytes) : Except ErrCode Bytes :=
  if validPad s then .ok (s.take (s.length - lastPad s)) else .error .invalidPadding

/-! ### Chunks -/

/-- R181: how many whole blocks of the data a non-final chunk transforms; decryption with padding holds the last one
back. -/
def blocksNow (c : CipherCtx) (n : Nat) : Nat :=
  if c.dir = .dec ∧ c.pad = true ∧ 0 < n ∧ n % 16 = 0 then n / 16 - 1 else n / 16

/-- R181: `blockChunk(ctx, x, final = false)`. -/
def blockUpdate (p : Prims) (c : CipherCtx) (x : Bytes) : Bytes × CipherCtx :=
  let data := c.res ++ x
  let k := blocksNow c data.length
  let (out, civ) := blockMap p c (data.take (16 * k))
  (out, (c.chained civ).holding (data.drop (16 * k)))

/-- R183: the data that the final chunk of a block mode transforms, if its length allows it. -/
def blockFinalData (c : CipherCtx) (data : Bytes) : Except ErrCode Bytes :=
  match c.dir, c.pad with
  | .enc, true => .ok (data ++ padBytes data.length)
  | _, _ => if data.length % 16 ≠ 0 then .error .invalidParameters else .ok data

/-- R179, R183, R184: decryption with padding ends in removing the pad. -/
def finalOut (c : CipherCtx) (out : Bytes) : Except ErrCode Bytes :=
  match c.dir, c.pad with
  | .dec, true => depad out
  | _, _ => .ok out

/-- R183: `blockChunk(ctx, x, final = true)`. -/
def blockFinal (p : Prims) (c : CipherCtx) (x : Bytes) : Except ErrCode (Bytes × CipherCtx) :=
  match blockFinalData c (c.res ++ x) with
  | .error e => .error e
  | .ok data =>
    let (out, civ) := blockMap p c data
    match finalOut c out with
    | .error e => .error e
    | .ok out' => .ok (out', (c.chained civ).holding [])

/-- R184: how many bytes of the decrypted data a non-final chunk lets go: all but the last 16 with padding, all
without. -/
def releaseNow (n : Nat) : Nat := n - 16

/-- R184: `streamChunk(ctx, x, final = false)`. -/
def streamUpdate (p : Prims) (c : CipherCtx) (x : Bytes) : Bytes × CipherCtx :=
  let (y, c') := streamMap p c x
  match c.dir, c.pad with
  | .dec, true =>
    let full := c.res ++ y
    (full.take (releaseNow full.length), c'.holding (full.drop (releaseNow full.length)))
  | _, _ => (y, c'.holding [])

/-- R184: `streamChunk(ctx, x, final = true)`. -/
def streamFinal (p : Prims) (c : CipherCtx) (x : Bytes) : Except ErrCode (Bytes × CipherCtx) :=
  match c.dir, c.pad with
  | .dec, true =>
    let (y, c') := streamMap p c x
    match depad (c.res ++ y) with
    | .error e => .error e
    | .ok out => .ok (out, c'.holding [])
  | .enc, true =>
    let (y, c') := streamMap p c (x ++ padBytes (c.off.val + x.length))
    .ok (y, c'.holding [])
  | _, false =>
    let (y, c') := streamMap p c x
    .ok (y, c'.holding [])

/-- R180: the transform of a chunk, by the class of the mode (R161). -/
def chunk (p : Prims) (final : Bool) (c : CipherCtx) (x : Bytes) : Except ErrCode (Bytes × CipherCtx) :=
  match final, c.mode.isBlock with
  | false, true => .ok (blockUpdate p c x)
  | false, false => .ok (streamUpdate p c x)
  | true, true => blockFinal p c x
  | true, false => streamFinal p c x

/-- R160, R180: the context that a chunk command leaves; a final chunk ends the message. -/
def settleCtx (final : Bool) (c : CipherCtx) : CipherCtx := if final then { c with cstate := .done } else c

/-- R180: what CIPHER_UPDATE (`final = false`) and CIPHER_FINAL (`final = true`) compute. -/
def chunkResult (p : Prims) (final : Bool) (s : State) : Except ErrCode (CipherCtx × Bytes) :=
  if s.ctx.cstate ≠ .active then .error .invalidState
  else if !(srcInRange s && dstInRange s) then .error .invalidParameters
  else match chunk p final s.ctx (srcBytes s) with
    | .error e => .error e
    | .ok (out, c) =>
      if s.eng.op.dstCap.toNat < out.length then .error .bufferTooSmall else .ok (settleCtx final c, out)

/-! ### CIPHER_INIT -/

/-- R165: the IV of CIPHER_INIT; in ECB it is not read. -/
def initIv (mode : Mode) (s : State) : Block :=
  match mode with
  | .ecb => Vector.replicate 16 0
  | _ => toBlock (memRead s.ram s.eng.op.auxAddr.toNat 16)

/-- R165: the IV area lies in RAM; in ECB it is not checked. -/
def ivInRange (mode : Mode) (s : State) : Bool :=
  mode == .ecb || s.cfg.inRange s.eng.op.auxAddr.toNat 16

/-- R165: the new context of CIPHER_INIT. -/
def freshCtx (mode : Mode) (ksz : KeySize) (dir : Dir) (pad : Bool) (key : Bytes) (iv : Block) : CipherCtx where
  cstate := .active
  mode := mode
  ksz := ksz
  dir := dir
  pad := pad
  key := toVec 32 key
  oiv := iv
  civ := iv
  ks := Vector.replicate 16 0
  off := 0
  res := []

/-- R165: what CIPHER_INIT computes. -/
def cipherInitResult (mode ksz : Nat) (dir : Dir) (pad : Bool) (s : State) :
    Except ErrCode (CipherCtx × Bytes) :=
  match Mode.ofCode mode with
  | none => .error .invalidParameters
  | some m =>
    match KeySize.ofCode ksz with
    | none => .error .invalidParameters
    | some k =>
      if s.eng.op.keyLen.toNat ≠ k.bytes then .error .invalidParameters
      else if !s.cfg.inRange s.eng.op.keyAddr.toNat k.bytes then .error .invalidParameters
      else if !ivInRange m s then .error .invalidParameters
      else .ok (freshCtx m k dir pad (memRead s.ram s.eng.op.keyAddr.toNat k.bytes) (initIv m s), [])

/-! ### The commands -/

/-- R165, R166, R167: CIPHER_INIT. -/
def execCipherInit (mode ksz : Nat) (dir : Dir) (pad : Bool) (s : State) : Host.Outcome State Fault Refusal :=
  .next (finishCipher s (cipherInitResult mode ksz dir pad s))

/-- R180, R187: CIPHER_UPDATE. -/
def execCipherUpdate (s : State) : Host.Outcome State Fault Refusal :=
  .next (finishCipher s (chunkResult Config.prims false s))

/-- R180, R182, R187: CIPHER_FINAL. -/
def execCipherFinal (s : State) : Host.Outcome State Fault Refusal :=
  .next (finishCipher s (chunkResult Config.prims true s))

/-- R188: CIPHER_CLEAN. -/
def execCipherClean (s : State) : Host.Outcome State Fault Refusal := .next (complete 0 (zeroizeCtx s))

end Sys2Proof.Machine
end

