-- ==== Sys2Proof/Machine/Mac.lean ====
section
/-! DEFINITION. The MAC unit (spec/40_mac.md): key preparation (R121), pads (R122), HMAC (R124), and MAC_SETKEY
(R125), MAC_COMPUTE (R127), MAC_CLEAN (R129). -/

namespace Sys2Proof

/-- R121: `K0(h, key)`. -/
def hmacKey (p : Prims) (g : Cfg) (h : HashAlg) (key : Bytes) : Bytes :=
  if g.blockSize h < key.length then hashBytes p g h key ++ zeros (g.blockSize h - g.digestSize h)
  else key ++ zeros (g.blockSize h - key.length)

/-- R122: `InnerPad(k0)`. -/
def innerPad (k0 : Bytes) : Bytes := xorBytes k0 (List.replicate k0.length 0x36)

/-- R122: `OuterPad(k0)`. -/
def outerPad (k0 : Bytes) : Bytes := xorBytes k0 (List.replicate k0.length 0x5c)

/-- R127, R124: the HMAC of a message under the two pads. -/
def hmacPads (p : Prims) (g : Cfg) (h : HashAlg) (ipad opad m : Bytes) : Bytes :=
  hashBytes p g h (opad ++ hashBytes p g h (ipad ++ m))

/-- R124: `HMAC_h(key, m)`. -/
def hmac (p : Prims) (g : Cfg) (h : HashAlg) (key m : Bytes) : Bytes :=
  hmacPads p g h (innerPad (hmacKey p g h key)) (outerPad (hmacKey p g h key)) m

namespace Machine

/-- R125: the MAC context keyed with a key. -/
def keyedMac (p : Prims) (g : Cfg) (h : HashAlg) (key : Bytes) : MacCtx where
  mstate := .keyed
  halg := h
  k0 := toVec 128 (hmacKey p g h key)
  ipad := toVec 128 (innerPad (hmacKey p g h key))
  opad := toVec 128 (outerPad (hmacKey p g h key))

/-- R125: what MAC_SETKEY computes. -/
def macSetkeyResult (p : Prims) (halg : Nat) (s : State) : Except ErrCode (MacCtx × Bytes) :=
  match s.cfg.selectHash halg with
  | none => .error .invalidAlgorithm
  | some h => if keyInRange s then .ok (keyedMac p s.cfg h (keyBytes s), []) else .error .invalidParameters

/-- R127: the digest of a message under the keyed context. -/
def macDigest (p : Prims) (g : Cfg) (m : MacCtx) (msg : Bytes) : Bytes :=
  hmacPads p g m.halg (m.ipad.toList.take (g.blockSize m.halg)) (m.opad.toList.take (g.blockSize m.halg)) msg

/-- R127: what MAC_COMPUTE computes; R128: it leaves the MAC context as it is. -/
def macComputeResult (p : Prims) (s : State) : Except ErrCode (MacCtx × Bytes) :=
  if s.mac.mstate ≠ .keyed then .error .invalidState
  else if !(srcInRange s && dstInRange s) then .error .invalidParameters
  else if s.eng.op.dstCap.toNat < s.cfg.digestSize s.mac.halg then .error .bufferTooSmall
  else .ok (s.mac, macDigest p s.cfg s.mac (srcBytes s))

/-- R125, R126, R130: MAC_SETKEY. -/
def execMacSetkey (halg : Nat) (s : State) : Host.Outcome State Fault Refusal :=
  .next (finishMac s (macSetkeyResult Config.prims halg s))

/-- R127, R128, R130: MAC_COMPUTE. -/
def execMacCompute (s : State) : Host.Outcome State Fault Refusal :=
  .next (finishMac s (macComputeResult Config.prims s))

/-- R129: MAC_CLEAN. -/
def execMacClean (s : State) : Host.Outcome State Fault Refusal := .next (complete 0 (zeroizeMac s))

end Machine
end Sys2Proof
end

