-- ==== Sys2Proof/Machine/Kdf.lean ====
section
/-! DEFINITION. The key derivation command (spec/41_kdf.md): PBKDF2 (R140, R141, R142) and KDF_DERIVE (R145). -/

namespace Sys2Proof

/-- R140: `PRF(P, x)`. -/
def prf (p : Prims) (g : Cfg) (h : HashAlg) (password x : Bytes) : Bytes := hmac p g h password x

/-- R141: the exclusive or of U and of the `n` values that follow it, each the PRF of the one before. -/
def xorOfUs (p : Prims) (g : Cfg) (h : HashAlg) (password : Bytes) : Nat → Bytes → Bytes
  | 0, u => u
  | n + 1, u => xorBytes u (xorOfUs p g h password n (prf p g h password u))

/-- R141: `F(P, S, c, i)`, the exclusive or of U1 to Uc. -/
def pbkdf2Block (p : Prims) (g : Cfg) (h : HashAlg) (password salt : Bytes) (c i : Nat) : Bytes :=
  xorOfUs p g h password (c - 1) (prf p g h password (salt ++ be32 i))

/-- R142: the blocks with indices `i` to `i + n - 1`, one after the other. -/
def pbkdf2Blocks (p : Prims) (g : Cfg) (h : HashAlg) (password salt : Bytes) (c : Nat) : Nat → Nat → Bytes
  | _, 0 => []
  | i, n + 1 => pbkdf2Block p g h password salt c i ++ pbkdf2Blocks p g h password salt c (i + 1) n

/-- R11: `ceil(a/b)`. -/
def ceilDiv (a b : Nat) : Nat := (a + b - 1) / b

/-- R142: `PBKDF2(h, P, S, c, dkLen)`. -/
def pbkdf2 (p : Prims) (g : Cfg) (h : HashAlg) (password salt : Bytes) (c dkLen : Nat) : Bytes :=
  (pbkdf2Blocks p g h password salt c 1 (ceilDiv dkLen (g.digestSize h))).take dkLen

namespace Machine

/-- R145: the password, salt and output areas lie in RAM. -/
def kdfInRange (s : State) : Bool :=
  keyInRange s && auxInRange s && s.cfg.inRange s.eng.op.dstAddr.toNat s.eng.op.dkLen.toNat

/-- R145: what KDF_DERIVE computes; R146: it leaves the MAC unit zeroized. -/
def kdfResult (p : Prims) (halg : Nat) (s : State) : Except ErrCode (MacCtx × Bytes) :=
  match s.cfg.selectHash halg with
  | none => .error .invalidAlgorithm
  | some h =>
    if s.eng.op.iterCount = 0 ∨ s.eng.op.dkLen = 0 then .error .invalidParameters
    else if !kdfInRange s then .error .invalidParameters
    else if s.cfg.digestSize h * (2 ^ 32 - 1) < s.eng.op.dkLen.toNat then .error .invalidParameters
    else .ok (MacCtx.unkeyed,
      pbkdf2 p s.cfg h (keyBytes s) (auxBytes s) s.eng.op.iterCount.toNat s.eng.op.dkLen.toNat)

/-- R145, R146, R147: KDF_DERIVE. -/
def execKdfDerive (halg : Nat) (s : State) : Host.Outcome State Fault Refusal :=
  .next (finishMac s (kdfResult Config.prims halg s))

end Machine
end Sys2Proof
end

