-- ==== Sys2Proof/Machine/System.lean ====
section
/-! DEFINITION. The system commands (spec/43_system.md): NOP (R220), BUF_ZERO (R222), ZEROIZE_ALL (R224). -/

namespace Sys2Proof.Machine

/-- R222: what BUF_ZERO writes. -/
def bufZeroResult (s : State) : Except ErrCode Bytes :=
  if dstInRange s then .ok (zeros s.eng.op.dstCap.toNat) else .error .invalidParameters

/-- R220: NOP. -/
def execNop (s : State) : Host.Outcome State Fault Refusal := .next (complete 0 s)

/-- R222, R223: BUF_ZERO. -/
def execBufZero (s : State) : Host.Outcome State Fault Refusal :=
  .next (finishSystem s (bufZeroResult s))

/-- R224, R225: ZEROIZE_ALL. -/
def execZeroizeAll (s : State) : Host.Outcome State Fault Refusal :=
  .next (complete 0 (zeroizeRam (zeroizeMac (zeroizeCtx s))))

end Sys2Proof.Machine
end

