-- ==== Sys2Proof/Machine/Dispatch.lean ====
section
/-! DEFINITION. Every command's meaning, one arm for each row of spec/opcode_table.json. -/

namespace Sys2Proof.Machine

def exec (i : Instr) (s : State) : Host.Outcome State Fault Refusal :=
  match i with
  | .nop => Sys2Proof.Machine.execNop s
  | .cipherInit mode ksz dir pad => Sys2Proof.Machine.execCipherInit mode ksz dir pad s
  | .cipherUpdate => Sys2Proof.Machine.execCipherUpdate s
  | .cipherFinal => Sys2Proof.Machine.execCipherFinal s
  | .cipherClean => Sys2Proof.Machine.execCipherClean s
  | .macSetkey halg => Sys2Proof.Machine.execMacSetkey halg s
  | .macCompute => Sys2Proof.Machine.execMacCompute s
  | .macClean => Sys2Proof.Machine.execMacClean s
  | .kdfDerive halg => Sys2Proof.Machine.execKdfDerive halg s
  | .bufZero => Sys2Proof.Machine.execBufZero s
  | .zeroizeAll => Sys2Proof.Machine.execZeroizeAll s

end Sys2Proof.Machine
end

