-- ==== Sys2Proof/Machine/Flags.lean ====
section
/-! DEFINITION. The flags: STATUS and its write-1-to-clear (spec/10_state.md R23, R37), CTRL (R24), the constants ID
and CAPS (R21, R22), and the interrupt output (R41, spec/60_exceptions.md R250). -/

namespace Sys2Proof.Machine

/-- R240: the ERRCODE value of an error. -/
def ErrCode.code : ErrCode → Nat
  | .ok => 0
  | .invalidAlgorithm => 1
  | .invalidState => 2
  | .invalidParameters => 3
  | .bufferTooSmall => 4
  | .invalidPadding => 5
  | .illegalCommand => 6

/-- R23: the CSTATE value. -/
def CState.code : CState → Nat
  | .uninit => 0 | .active => 1 | .done => 2

/-- R23: MAC_KEYED. -/
def MState.bit : MState → Bool
  | .unkeyed => false | .keyed => true

/-- A field of `len` bits at bit `lo` of a register, holding the low bits of `v`. -/
def regField (lo len v : Nat) : Word := (BitVec.ofNat len v).setWidth 32 <<< lo

/-- R23: STATUS as a read returns it. -/
def statusWord (s : State) : Word :=
  regField 0 1 s.eng.busy.toNat ||| regField 1 1 s.eng.done.toNat ||| regField 2 1 s.eng.overrun.toNat |||
  regField 3 1 s.eng.accessErr.toNat ||| regField 4 4 s.eng.errcode.code ||| regField 8 2 s.ctx.cstate.code |||
  regField 10 1 s.mac.mstate.bit.toNat ||| regField 12 4 s.ctx.off.val ||| regField 16 5 s.ctx.res.length |||
  regField 21 3 s.ctx.mode.code ||| regField 24 1 s.ctx.dir.bit.toNat ||| regField 25 1 s.ctx.pad.toNat |||
  regField 26 3 s.mac.halg.code

/-- R23: a write to STATUS clears DONE, OVERRUN and ACCESS_ERR where the value has a 1, and nothing else. -/
def clearStatus (v : Word) (s : State) : State :=
  { s with eng := { s.eng with
      done := s.eng.done && !v.getLsbD 1,
      overrun := s.eng.overrun && !v.getLsbD 2,
      accessErr := s.eng.accessErr && !v.getLsbD 3 } }

/-- R24: CTRL as a read returns it. -/
def ctrlWord (s : State) : Word := regField 0 1 s.eng.ie.toNat

/-- R24: a write to CTRL sets IE and ignores bits [31:1]. -/
def writeCtrl (v : Word) (s : State) : State := { s with eng := { s.eng with ie := v.getLsbD 0 } }

/-- R21: ID. -/
def idWord : Word := 0x49445801

/-- R22: CAPS. -/
def capsWord (g : Cfg) : Word := regField 0 5 g.halgPresent.toNat ||| regField 8 5 g.bufLog

/-- R41, R250: the interrupt output, IE AND DONE. -/
def State.irq (s : State) : Bool := s.eng.ie && s.eng.done

end Sys2Proof.Machine
end

