-- ==== Sys2Proof/Machine/Port.lean ====
section
/-! DEFINITION. The host port: the offset map (spec/20_memory.md R61, spec/10_state.md R29), refused accesses (R68),
reads and writes with their effects (R62, R71), command overrun (spec/70_reset_and_hazards.md R288) and reset (R280). -/

namespace Sys2Proof.Machine

/-- R6, R61: RAM_BASE. -/
def ramBase : Nat := 0x100000

/-- R61: the region of a host offset (log 9: an access belongs to the region of its first byte). -/
def regionOf (g : Cfg) (off : HostOffset) : Region :=
  if off.toNat < 0x1000 then .registers
  else if off.toNat < ramBase then .reserved
  else if off.toNat < ramBase + g.bufSize then .ram (off.toNat - ramBase)
  else .reserved

/-- R21 to R29: the register at an offset of the register file. -/
def regAt (off : Nat) : Reg :=
  match off with
  | 0x000 => .id
  | 0x004 => .caps
  | 0x008 => .status
  | 0x00C => .ctrl
  | 0x010 => .cmd
  | 0x014 => .resultLen
  | 0x020 => .operand .srcAddr
  | 0x024 => .operand .srcLen
  | 0x028 => .operand .dstAddr
  | 0x02C => .operand .dstCap
  | 0x030 => .operand .keyAddr
  | 0x034 => .operand .keyLen
  | 0x038 => .operand .auxAddr
  | 0x03C => .operand .auxLen
  | 0x040 => .operand .iterCount
  | 0x044 => .operand .dkLen
  | _ => .reserved

/-- R68: the access is refused. An access to a reserved region is not (R61). -/
def refused (s : State) (off : HostOffset) (width : Nat) : Bool :=
  match regionOf s.cfg off with
  | .registers => width != 4 || off.toNat % 4 != 0
  | .ram _ => s.eng.busy || !(width == 1 || width == 2 || width == 4) || off.toNat % width != 0
  | .reserved => false

/-- R21 to R29: the value a read of a register returns. -/
def readReg (s : State) : Reg → Word
  | .id => idWord
  | .caps => capsWord s.cfg
  | .status => statusWord s
  | .ctrl => ctrlWord s
  | .cmd => 0
  | .resultLen => s.eng.resultLen
  | .operand r => s.regs.get r
  | .reserved => 0

/-- R25, R244, R288: a command word written to CMD is accepted, or dropped with OVERRUN set. -/
def writeCmd (w : Word) (s : State) : State :=
  if s.eng.busy then { s with eng := { s.eng with overrun := true } } else accept w s

/-- R21 to R29, R71: the effect of a write to a register. -/
def writeReg (v : Word) (s : State) : Reg → State
  | .id => s
  | .caps => s
  | .status => clearStatus v s
  | .ctrl => writeCtrl v s
  | .cmd => writeCmd v s
  | .resultLen => s
  | .operand r => { s with regs := s.regs.set v r }
  | .reserved => s

/-- R62, R68: the value a host read returns; a refused read returns 0. -/
def hostReadValue (s : State) (off : HostOffset) (width : Nat) : Word :=
  if refused s off width then 0
  else match regionOf s.cfg off with
    | .registers => readReg s (regAt off.toNat)
    | .ram a => BitVec.ofNat 32 (leValue (memRead s.ram a width))
    | .reserved => 0

/-- R68: a refused access sets ACCESS_ERR. -/
def noteRefusal (s : State) : State := { s with eng := { s.eng with accessErr := true } }

/-- R68, R71: a host read; its only effect on the block is ACCESS_ERR when it is refused. -/
def hostRead (off : HostOffset) (width : Nat) (s : State) : State :=
  if refused s off width then { noteRefusal s with rdata := 0 }
  else { s with rdata := hostReadValue s off width }

/-- R62, R68, R71: a host write. -/
def hostWrite (off : HostOffset) (width : Nat) (v : Word) (s : State) : State :=
  if refused s off width then noteRefusal s
  else match regionOf s.cfg off with
    | .registers => writeReg v s (regAt off.toNat)
    | .ram a => { s with ram := memWrite s.ram a (leBytes width v.toNat) }
    | .reserved => s

/-- R280, R281: every piece of state takes its reset value; a command in progress is abandoned. What is still to come,
and what the host has read, are not the block's (log 11). -/
def resetAll (s : State) : State := { State.resetOf s.cfg with inbox := s.inbox, rdata := s.rdata }

end Sys2Proof.Machine
end

