-- ==== Sys2Proof/Machine/Engine.lean ====
section
/-! DEFINITION. What the agents do in one step: the engine's completion step (spec/70_reset_and_hazards.md R285), the
host's accesses and reset (spec/20_memory.md R72), one action at a time (log 1). -/

namespace Sys2Proof.Machine

/-- R285, R97, R247: the engine performs the accepted word, if there is one: the command it decodes to, or
IllegalCommand. An engine with no accepted command does nothing (R257, R280). -/
def completionStep (s : State) : Host.Outcome State Fault Refusal :=
  match s.eng.busy, decode s.eng.cmd with
  | false, _ => .next s
  | true, .ok i => exec i s
  | true, .error _ => .next (illegalCommand s)

/-- R72: one action of an agent. -/
def act (a : Action) (s : State) : Host.Outcome State Fault Refusal :=
  match a with
  | .read off width => .next (hostRead off width s)
  | .write off width value => .next (hostWrite off width value s)
  | .engine => completionStep s
  | .reset => .next (resetAll s)

/-- Log 1: the next action, or with none to come the engine's completion step, which R285 makes happen in the end. -/
def nextTurn (s : State) : Host.Outcome State Fault Refusal :=
  match s.inbox with
  | [] => completionStep s
  | a :: rest => act a { s with inbox := rest }

/-- The engine's completion step is the next action. -/
def engineNext (s : State) : State := { s with inbox := .engine :: s.inbox }

end Sys2Proof.Machine
end

