-- ==== Sys2Proof/Machine/Step.lean ====
section
/-! DEFINITION. One step of the machine, and how an instruction is put where the next step runs it (log 2). -/

namespace Sys2Proof.Machine

/-- One step: the next action of an agent (spec/20_memory.md R72, spec/70_reset_and_hazards.md R285). -/
def step (s : State) : Host.Outcome State Fault Refusal := nextTurn s

/-- The command word accepted (R244) and the engine's completion step next, so that the very next step runs it. A
command is 32 bits (R90); the table's numbering is the word's own. -/
def State.withFetchWord (s : State) (nbits w : Nat) : State := engineNext (accept (BitVec.ofNat 32 (w % 2 ^ nbits)) s)

end Sys2Proof.Machine
end

