-- ==== Sys2Proof/Safety.lean ====
section
/-! DEFINITION. The terms claims use: legal configurations (spec/00_scope.md R6), the invariants the spec states of
the contexts (spec/10_state.md R31, R34) and of the rest of the state, and what the host may not see (R38). -/

namespace Sys2Proof

/-- R6: the sizes of a hash are positive, L_h <= B_h <= 128. -/
structure HashSize.Legal (z : HashSize) : Prop where
  digest_pos : 0 < z.digest
  digest_le : z.digest ≤ z.block
  block_le : z.block ≤ 128

/-- R6: the legal configurations. -/
structure Cfg.Legal (g : Cfg) : Prop where
  bufLog_ge : 12 ≤ g.bufLog
  bufLog_le : g.bufLog ≤ 20
  hash_sizes : ∀ h, (g.hashSize h).Legal

/-- R7: what the model assumes of the block cipher. -/
def Prims.Legal (p : Prims) : Prop := ∀ k key b, p.aesDec k key (p.aesEnc k key b) = b

namespace Machine

/-- R31, and of `key` R30. The bounds of `civ`, `oiv`, `ks` and `off` hold by their types. -/
structure CipherCtx.Inv (c : CipherCtx) : Prop where
  res_le : c.res.length ≤ 16
  block_off : c.mode.isBlock = true → c.off = 0
  block_ks : c.mode.isBlock = true → c.ks = Vector.replicate 16 0
  ecb_oiv : c.mode = .ecb → c.oiv = Vector.replicate 16 0
  ecb_civ : c.mode = .ecb → c.civ = Vector.replicate 16 0
  stream_res : c.mode.isBlock = false → c.dir = .enc ∨ c.pad = false → c.res = []
  uninit_zero : c.cstate = .uninit → c = CipherCtx.uninit
  key_tail : ∀ i : Fin 32, c.ksz.bytes ≤ i.val → c.key[i] = 0

/-- R34, and R120: only a hash that is present can be keyed. -/
structure MacCtx.Inv (g : Cfg) (m : MacCtx) : Prop where
  unkeyed_zero : m.mstate = .unkeyed → m = MacCtx.unkeyed
  keyed_present : m.mstate = .keyed → g.present m.halg = true
  ipad_eq : m.mstate = .keyed → ∀ i : Fin 128, i.val < g.blockSize m.halg → m.ipad[i] = m.k0[i] ^^^ 0x36
  opad_eq : m.mstate = .keyed → ∀ i : Fin 128, i.val < g.blockSize m.halg → m.opad[i] = m.k0[i] ^^^ 0x5c
  tail_zero : ∀ i : Fin 128, g.blockSize m.halg ≤ i.val → m.k0[i] = 0 ∧ m.ipad[i] = 0 ∧ m.opad[i] = 0

/-- R60: the RAM list is in canonical form and holds no address beyond BUF_SIZE. -/
structure Memory.Inv (g : Cfg) (m : Memory) : Prop where
  wf : Memory.wf m = true
  in_range : ∀ cell ∈ m, cell.1 < g.bufSize

/-- R37, R244 to R246, R26: BUSY and DONE exclude each other, an error leaves RESULT_LEN 0, and no result is longer
than the RAM. -/
structure Eng.Inv (g : Cfg) (e : Eng) : Prop where
  busy_done : ¬(e.busy = true ∧ e.done = true)
  error_len : e.errcode ≠ .ok → e.resultLen = 0
  len_le : e.resultLen.toNat ≤ g.bufSize

/-- The invariant of the machine. -/
structure State.Inv (s : State) : Prop where
  cfg : s.cfg.Legal
  ctx : s.ctx.Inv
  mac : s.mac.Inv s.cfg
  ram : Memory.Inv s.cfg s.ram
  eng : s.eng.Inv s.cfg

/-! ### Refused accesses -/

/-- R68: the access is refused: in the window while BUSY, of another width than 1, 2, 4, or misaligned; in the register
file of another width than 4, or misaligned. An access is in the region of its first byte (log 9). -/
def RefusedAccess (s : State) (off : HostOffset) (w : Nat) : Prop :=
  (0x100000 ≤ off.toNat ∧ off.toNat < 0x100000 + s.cfg.bufSize ∧
    (s.eng.busy = true ∨ ¬(w = 1 ∨ w = 2 ∨ w = 4) ∨ off.toNat % w ≠ 0)) ∨
  (off.toNat < 0x1000 ∧ (w ≠ 4 ∨ off.toNat % 4 ≠ 0))

/-! ### What the host may not see -/

/-- What R38 says no access reads. `res` shows its length only (STATUS.RESLEN). -/
structure Secrets where
  ksz : KeySize
  key : Vector Byte 32
  oiv : Block
  civ : Block
  ks : Block
  res : Bytes
  k0 : Vector Byte 128
  ipad : Vector Byte 128
  opad : Vector Byte 128
  cmd : Word
  op : OpRegs

/-- The state with other secrets. -/
def State.withSecrets (s : State) (x : Secrets) : State :=
  { s with
    ctx := { s.ctx with ksz := x.ksz, key := x.key, oiv := x.oiv, civ := x.civ, ks := x.ks, res := x.res }
    mac := { s.mac with k0 := x.k0, ipad := x.ipad, opad := x.opad }
    eng := { s.eng with cmd := x.cmd, op := x.op } }

/-! ### How a command ends -/

/-- R245: the engine state that `complete(n)` leaves. -/
def Eng.completed (e : Eng) (n : Nat) : Eng :=
  { e with resultLen := BitVec.ofNat 32 n, errcode := .ok, busy := false, done := true }

/-- R246: the engine state that `raise E` leaves. -/
def Eng.failed (e : Eng) (c : ErrCode) : Eng := { e with resultLen := 0, errcode := c, busy := false, done := true }

/-- What no command changes: the operand registers, the configuration, and the model's own fields. -/
structure SameRest (s t : State) : Prop where
  regs : t.regs = s.regs
  cfg : t.cfg = s.cfg
  inbox : t.inbox = s.inbox
  rdata : t.rdata = s.rdata

/-- Every byte of RAM reads as before. -/
def RamSame (s t : State) : Prop := ∀ x, readByte t.ram x = readByte s.ram x

/-- Every byte of RAM outside the `n` bytes at `a` reads as before. -/
def RamSameOutside (s t : State) (a n : Nat) : Prop :=
  ∀ x, x < a ∨ a + n ≤ x → readByte t.ram x = readByte s.ram x

/-- The bytes of RAM from `a` on are the string. -/
def RamHolds (t : State) (a : Nat) (out : Bytes) : Prop := ∀ i, i < out.length → readByte t.ram (a + i) = out.getD i 0

/-- The operands of a data command: SRC and DST areas in RAM (R180, R127). -/
def DataInRange (s : State) : Prop :=
  s.eng.op.srcAddr.toNat + s.eng.op.srcLen.toNat ≤ s.cfg.bufSize ∧
    s.eng.op.dstAddr.toNat + s.eng.op.dstCap.toNat ≤ s.cfg.bufSize

/-! ### Messages in pieces -/

/-- R190: non-final chunks one after the other; their outputs joined, and the context after them. -/
def updateAll (p : Prims) (c : CipherCtx) : List Bytes → Except ErrCode (Bytes × CipherCtx)
  | [] => .ok ([], c)
  | x :: xs =>
    match chunk p false c x with
    | .error e => .error e
    | .ok (o, c1) =>
      match updateAll p c1 xs with
      | .error e => .error e
      | .ok (os, c2) => .ok (o ++ os, c2)

/-- Block `j` of a byte string. -/
def blockAt (s : Bytes) (j : Nat) : Block := toBlock ((s.drop (16 * j)).take 16)

/-- R186: how many bytes CIPHER_UPDATE gives, for a chunk of `m` bytes. -/
def updateLength (c : CipherCtx) (m : Nat) : Nat :=
  if c.mode.isBlock then
    if c.dir = .dec ∧ c.pad = true ∧ (c.res.length + m) % 16 = 0 ∧ 0 < c.res.length + m
    then 16 * ((c.res.length + m) / 16 - 1) else 16 * ((c.res.length + m) / 16)
  else if c.dir = .dec ∧ c.pad = true then c.res.length + m - 16 else m

/-- R186: how many bytes CIPHER_FINAL gives for a chunk of `m` bytes, but for a decryption with padding, where it
depends on the data. -/
def finalLength (c : CipherCtx) (m : Nat) : Nat :=
  c.res.length + m + (if c.pad then 16 - (c.off.val + c.res.length + m) % 16 else 0)

end Machine
end Sys2Proof
end

