-- ==== Sys2Proof/Certificates/Slice0/Obligations.lean ====
section
/-! DEFINITION. The statements for the provers, in the order of spec/: reset, the host port, command words,
the engine's step, the MAC unit, key derivation, the cipher unit, the system commands, whole-machine rules. -/

open Sys2Proof Sys2Proof.Machine

/-! ### Reset -/

/-- spec/10_state.md R42, for every configuration. -/
def Obligations.ResetGivesTheTableOfValues : Prop :=
  ∀ g : Cfg, let s := State.resetOf g
    statusWord s = 0 ∧ s.eng.ie = false ∧ s.eng.resultLen = 0 ∧
    s.regs.srcAddr = 0 ∧ s.regs.srcLen = 0 ∧ s.regs.dstAddr = 0 ∧ s.regs.dstCap = 0 ∧ s.regs.keyAddr = 0 ∧
    s.regs.keyLen = 0 ∧ s.regs.auxAddr = 0 ∧ s.regs.auxLen = 0 ∧ s.regs.iterCount = 500000 ∧ s.regs.dkLen = 32 ∧
    s.eng.busy = false ∧ s.eng.done = false ∧ s.eng.overrun = false ∧ s.eng.accessErr = false ∧
    s.eng.cmd = 0 ∧ s.eng.errcode = .ok ∧ (∀ r, s.eng.op.get r = 0) ∧
    s.ctx.cstate = .uninit ∧ s.ctx.mode = .ecb ∧ s.ctx.ksz = .k128 ∧ s.ctx.dir = .enc ∧ s.ctx.pad = false ∧
    (∀ i : Fin 32, s.ctx.key[i] = 0) ∧ (∀ i : Fin 16, s.ctx.oiv[i] = 0 ∧ s.ctx.civ[i] = 0 ∧ s.ctx.ks[i] = 0) ∧
    s.ctx.off = 0 ∧ s.ctx.res = [] ∧
    s.mac.mstate = .unkeyed ∧ s.mac.halg = .md5 ∧
    (∀ i : Fin 128, s.mac.k0[i] = 0 ∧ s.mac.ipad[i] = 0 ∧ s.mac.opad[i] = 0) ∧
    (∀ a, readByte s.ram a = 0) ∧ s.irq = false ∧
    hostReadValue s 0x000 4 = 0x49445801 ∧ hostReadValue s 0x004 4 = capsWord g

/-- spec/70_reset_and_hazards.md R280, R281: reset at any moment, a command in progress abandoned with no effect. That
`inbox` and `rdata` go on is the model's choice (log 11). -/
def Obligations.ResetAbandonsTheCommandInProgress : Prop :=
  ∀ (s : State) (rest : List Action), s.inbox = .reset :: rest →
    ∃ t, step s = .next t ∧ t.regs = (State.resetOf s.cfg).regs ∧ t.ctx = CipherCtx.uninit ∧ t.mac = MacCtx.unkeyed ∧
      (∀ a, readByte t.ram a = 0) ∧ t.eng = Eng.reset ∧ t.irq = false ∧ t.cfg = s.cfg ∧ t.inbox = rest ∧
      t.rdata = s.rdata

/-! ### The host port -/

/-- spec/10_state.md R22: CAPS, and that a write to it is ignored. -/
def Obligations.CapsShowsTheConfiguration : Prop :=
  ∀ (s : State) (v : Word) (rest : List Action), s.cfg.Legal →
    (hostReadValue s 0x004 4).extractLsb' 0 5 = s.cfg.halgPresent ∧
    (hostReadValue s 0x004 4).extractLsb' 5 3 = 0 ∧
    ((hostReadValue s 0x004 4).extractLsb' 8 5).toNat = s.cfg.bufLog ∧
    (hostReadValue s 0x004 4).extractLsb' 13 19 = 0 ∧
    (s.inbox = .write 0x004 4 v :: rest → step s = .next { s with inbox := rest }) ∧ Cfg.reference.bufLog = 18

/-- spec/10_state.md R23, the fields of STATUS, in the states of the invariant. -/
def Obligations.StatusShowsEveryField : Prop :=
  ∀ s : State, s.Inv → let w := hostReadValue s 0x008 4
    w.getLsbD 0 = s.eng.busy ∧ w.getLsbD 1 = s.eng.done ∧ w.getLsbD 2 = s.eng.overrun ∧
    w.getLsbD 3 = s.eng.accessErr ∧
    (w.extractLsb' 4 4).toNat = (match s.eng.errcode with
      | .ok => 0 | .invalidAlgorithm => 1 | .invalidState => 2 | .invalidParameters => 3 | .bufferTooSmall => 4
      | .invalidPadding => 5 | .illegalCommand => 6) ∧
    (w.extractLsb' 8 2).toNat = (match s.ctx.cstate with | .uninit => 0 | .active => 1 | .done => 2) ∧
    w.getLsbD 10 = decide (s.mac.mstate = .keyed) ∧ w.getLsbD 11 = false ∧
    (w.extractLsb' 12 4).toNat = s.ctx.off.val ∧ (w.extractLsb' 16 5).toNat = s.ctx.res.length ∧
    (w.extractLsb' 21 3).toNat = (match s.ctx.mode with | .ecb => 0 | .cbc => 1 | .cfb => 2 | .ofb => 3 | .ctr => 4) ∧
    w.getLsbD 24 = decide (s.ctx.dir = .dec) ∧ w.getLsbD 25 = s.ctx.pad ∧
    (w.extractLsb' 26 3).toNat = (match s.mac.halg with
      | .md5 => 0 | .sha1 => 1 | .sha256 => 2 | .sha384 => 3 | .sha512 => 4) ∧
    w.extractLsb' 29 3 = 0

/-- spec/10_state.md R21, R24, R25, R26, R27, R29: what a 32-bit read of the register file returns, besides CAPS and
STATUS. -/
def Obligations.RegisterFileReadsItsMap : Prop :=
  ∀ s : State,
    hostReadValue s 0x000 4 = 0x49445801 ∧ hostReadValue s 0x00C 4 = (if s.eng.ie then 1 else 0) ∧
    hostReadValue s 0x010 4 = 0 ∧ hostReadValue s 0x014 4 = s.eng.resultLen ∧
    hostReadValue s 0x020 4 = s.regs.srcAddr ∧ hostReadValue s 0x024 4 = s.regs.srcLen ∧
    hostReadValue s 0x028 4 = s.regs.dstAddr ∧ hostReadValue s 0x02C 4 = s.regs.dstCap ∧
    hostReadValue s 0x030 4 = s.regs.keyAddr ∧ hostReadValue s 0x034 4 = s.regs.keyLen ∧
    hostReadValue s 0x038 4 = s.regs.auxAddr ∧ hostReadValue s 0x03C 4 = s.regs.auxLen ∧
    hostReadValue s 0x040 4 = s.regs.iterCount ∧ hostReadValue s 0x044 4 = s.regs.dkLen ∧
    hostReadValue s 0x018 4 = 0 ∧ hostReadValue s 0x01C 4 = 0 ∧
    ∀ off : HostOffset, 0x048 ≤ off.toNat → off.toNat < 0x1000 → hostReadValue s off 4 = 0

/-- spec/10_state.md R23, R24, R27, R29, spec/20_memory.md R71: what an aligned 32-bit write to the register file
changes, besides CMD; nothing else of the state changes. -/
def Obligations.RegisterFileWritesItsMap : Prop :=
  ∀ (s : State) (off : HostOffset) (v : Word) (rest : List Action), s.inbox = .write off 4 v :: rest →
    ((off = 0x000 ∨ off = 0x004 ∨ off = 0x014 ∨ off = 0x018 ∨ off = 0x01C ∨
        (0x048 ≤ off.toNat ∧ off.toNat < 0x1000 ∧ off.toNat % 4 = 0)) → step s = .next { s with inbox := rest }) ∧
    (off = 0x008 → step s = .next { s with inbox := rest, eng := { s.eng with
        done := s.eng.done && !v.getLsbD 1, overrun := s.eng.overrun && !v.getLsbD 2,
        accessErr := s.eng.accessErr && !v.getLsbD 3 } }) ∧
    (off = 0x00C → step s = .next { s with inbox := rest, eng := { s.eng with ie := v.getLsbD 0 } }) ∧
    (off = 0x020 → step s = .next { s with inbox := rest, regs := { s.regs with srcAddr := v } }) ∧
    (off = 0x024 → step s = .next { s with inbox := rest, regs := { s.regs with srcLen := v } }) ∧
    (off = 0x028 → step s = .next { s with inbox := rest, regs := { s.regs with dstAddr := v } }) ∧
    (off = 0x02C → step s = .next { s with inbox := rest, regs := { s.regs with dstCap := v } }) ∧
    (off = 0x030 → step s = .next { s with inbox := rest, regs := { s.regs with keyAddr := v } }) ∧
    (off = 0x034 → step s = .next { s with inbox := rest, regs := { s.regs with keyLen := v } }) ∧
    (off = 0x038 → step s = .next { s with inbox := rest, regs := { s.regs with auxAddr := v } }) ∧
    (off = 0x03C → step s = .next { s with inbox := rest, regs := { s.regs with auxLen := v } }) ∧
    (off = 0x040 → step s = .next { s with inbox := rest, regs := { s.regs with iterCount := v } }) ∧
    (off = 0x044 → step s = .next { s with inbox := rest, regs := { s.regs with dkLen := v } })

/-- spec/20_memory.md R62: the little-endian view of the window, read and written. -/
def Obligations.WindowIsLittleEndian : Prop :=
  ∀ (s : State) (off : HostOffset) (a w : Nat) (v : Word) (rest : List Action),
    s.eng.busy = false → (w = 1 ∨ w = 2 ∨ w = 4) → off.toNat = 0x100000 + a → off.toNat % w = 0 → a < s.cfg.bufSize →
    (∀ i, i < w → (hostReadValue s off w).extractLsb' (8 * i) 8 = readByte s.ram (a + i)) ∧
    (hostReadValue s off w).toNat < 2 ^ (8 * w) ∧
    (s.inbox = .write off w v :: rest → ∃ t, step s = .next t ∧
      (∀ i, i < w → readByte t.ram (a + i) = v.extractLsb' (8 * i) 8) ∧ RamSameOutside s t a w ∧
      t = { s with inbox := rest, ram := t.ram })

/-- spec/20_memory.md R68: which accesses are refused, and what a refused one does. That an access across the border of
two regions targets the region of its first byte is the model's choice (log 9). -/
def Obligations.RefusedAccessesSetAccessErrOnly : Prop :=
  ∀ (s : State) (off : HostOffset) (w : Nat) (v : Word) (rest : List Action),
    ((0x100000 ≤ off.toNat ∧ off.toNat < 0x100000 + s.cfg.bufSize ∧
        (s.eng.busy = true ∨ ¬(w = 1 ∨ w = 2 ∨ w = 4) ∨ off.toNat % w ≠ 0)) ∨
      (off.toNat < 0x1000 ∧ (w ≠ 4 ∨ off.toNat % 4 ≠ 0))) →
    (s.inbox = .read off w :: rest →
      step s = .next { s with inbox := rest, rdata := 0, eng := { s.eng with accessErr := true } }) ∧
    (s.inbox = .write off w v :: rest →
      step s = .next { s with inbox := rest, eng := { s.eng with accessErr := true } })

/-- spec/20_memory.md R61: the reserved regions read 0, ignore writes and set no ACCESS_ERR. That this is so whatever the
width is the model's choice (log 13), and so is that an access that begins there and ends in the window is one of
theirs (log 9). -/
def Obligations.ReservedOffsetsReadZeroAndIgnoreWrites : Prop :=
  ∀ (s : State) (off : HostOffset) (w : Nat) (v : Word) (rest : List Action),
    ((0x1000 ≤ off.toNat ∧ off.toNat < 0x100000) ∨ 0x100000 + s.cfg.bufSize ≤ off.toNat) →
    (s.inbox = .read off w :: rest → step s = .next { s with inbox := rest, rdata := 0 }) ∧
    (s.inbox = .write off w v :: rest → step s = .next { s with inbox := rest })

/-- spec/20_memory.md R71: a read has no side effect on the block, but for ACCESS_ERR, set when the read is refused
(R68, with the model's choice at the borders of regions, log 9) and else left as it is. `rdata` is the model's own
field (log 3). -/
def Obligations.ReadsHaveNoSideEffect : Prop :=
  ∀ (s : State) (off : HostOffset) (w : Nat) (rest : List Action), s.inbox = .read off w :: rest →
    ∃ t, step s = .next t ∧ t.rdata = hostReadValue s off w ∧ t.inbox = rest ∧ t.regs = s.regs ∧ t.ctx = s.ctx ∧
      t.mac = s.mac ∧ t.ram = s.ram ∧ t.cfg = s.cfg ∧
      (RefusedAccess s off w → t.rdata = 0 ∧ t.eng = { s.eng with accessErr := true }) ∧
      (¬RefusedAccess s off w → t.eng = s.eng)

/-- spec/60_exceptions.md R244: the CMD write that is accepted, and the one that is not (R288). -/
def Obligations.CommandWritesAreAcceptedWhenIdle : Prop :=
  ∀ (s : State) (w : Word) (rest : List Action), s.inbox = .write 0x010 4 w :: rest →
    (s.eng.busy = false → step s = .next { s with inbox := rest, eng := { s.eng with
      cmd := w, op := s.regs, busy := true, done := false } }) ∧
    (s.eng.busy = true → step s = .next { s with inbox := rest, eng := { s.eng with overrun := true } })

/-- spec/70_reset_and_hazards.md R286, R288, spec/20_memory.md R70: while BUSY, no host access changes the contexts,
the RAM, the accepted command, its operands or the last result. -/
def Obligations.BusyWindowKeepsTheCommand : Prop :=
  ∀ (s t : State) (a : Action) (rest : List Action), s.eng.busy = true → s.inbox = a :: rest →
    ((∃ off w, a = .read off w) ∨ (∃ off w v, a = .write off w v)) → step s = .next t →
    t.ctx = s.ctx ∧ t.mac = s.mac ∧ t.ram = s.ram ∧ t.eng.busy = true ∧ t.eng.cmd = s.eng.cmd ∧ t.eng.op = s.eng.op ∧
      t.eng.errcode = s.eng.errcode ∧ t.eng.resultLen = s.eng.resultLen

/-- spec/10_state.md R38: no read of the host depends on a secret. -/
def Obligations.HostReadsShowNoSecret : Prop :=
  ∀ (s : State) (x : Secrets) (off : HostOffset) (w : Nat), x.res.length = s.ctx.res.length →
    hostReadValue (s.withSecrets x) off w = hostReadValue s off w ∧ (s.withSecrets x).irq = s.irq

/-- spec/60_exceptions.md R250: the level, and what clears it. -/
def Obligations.InterruptFollowsDone : Prop :=
  ∀ (s t : State) (rest : List Action), step s = .next t →
    s.irq = (s.eng.ie && s.eng.done) ∧
    (∀ v, s.inbox = .write 0x008 4 v :: rest → v.getLsbD 1 = true → t.irq = false) ∧
    (∀ w, s.inbox = .write 0x010 4 w :: rest → s.eng.busy = false → t.irq = false) ∧
    (s.inbox = .engine :: rest → s.eng.busy = true → t.irq = s.eng.ie)

/-! ### Command words -/

/-- spec/30_encoding.md R103 and spec/95_test_vectors.md V-ENC-1: a few words, written out there. -/
def Obligations.SampleWordsDecode : Prop :=
  decode 0x00000A11 = .ok (.cipherInit 1 2 .enc true) ∧ decode 0x00000E11 = .ok (.cipherInit 1 2 .dec true) ∧
  decode 0x00000521 = .ok (.cipherInit 2 1 .dec false) ∧ decode 0x00000071 = .ok (.cipherInit 7 0 .enc false) ∧
  decode 0x00002005 = .ok (.macSetkey 2) ∧ decode 0x00001008 = .ok (.kdfDerive 1) ∧
  decode 0x00000002 = .ok .cipherUpdate ∧ decode 0x00000003 = .ok .cipherFinal ∧
  decode 0x00002001 = .error .unusedFieldNonzero ∧ decode 0x00000081 = .error .reservedBitSet ∧
  decode 0x0000000B = .error .reservedOpcode

/-- spec/30_encoding.md R90, R97: every well-formed command is what its word decodes to. -/
def Obligations.DecodeReadsBackEncode : Prop := ∀ i : Instr, WellFormed i → decode (encode i) = .ok i

/-- spec/30_encoding.md R90, R97: a legal word is the word of the command it decodes to, which is well-formed; so no
two legal words decode to one command. -/
def Obligations.LegalWordsAreEncodings : Prop :=
  ∀ (w : Word) (i : Instr), decode w = .ok i → WellFormed i ∧ encode i = w

/-- spec/30_encoding.md R99: which words each row selects, and that no word selects two. -/
def Obligations.OpcodeMapRowsSelectTheirCommands : Prop :=
  ∀ w : Word,
    (w &&& 0xFFFFFFFF = 0x00000000 ↔ decode w = .ok .nop) ∧
    (w &&& 0xFFFFF08F = 0x00000001 ↔ ∃ mode ksz dir pad, decode w = .ok (.cipherInit mode ksz dir pad)) ∧
    (w &&& 0xFFFFFFFF = 0x00000002 ↔ decode w = .ok .cipherUpdate) ∧
    (w &&& 0xFFFFFFFF = 0x00000003 ↔ decode w = .ok .cipherFinal) ∧
    (w &&& 0xFFFFFFFF = 0x00000004 ↔ decode w = .ok .cipherClean) ∧
    (w &&& 0xFFFF8FFF = 0x00000005 ↔ ∃ halg, decode w = .ok (.macSetkey halg)) ∧
    (w &&& 0xFFFFFFFF = 0x00000006 ↔ decode w = .ok .macCompute) ∧
    (w &&& 0xFFFFFFFF = 0x00000007 ↔ decode w = .ok .macClean) ∧
    (w &&& 0xFFFF8FFF = 0x00000008 ↔ ∃ halg, decode w = .ok (.kdfDerive halg)) ∧
    (w &&& 0xFFFFFFFF = 0x00000009 ↔ decode w = .ok .bufZero) ∧
    (w &&& 0xFFFFFFFF = 0x0000000A ↔ decode w = .ok .zeroizeAll) ∧
    (opcodeMap.filter (selectsRow w)).length ≤ 1

/-! ### The engine's step -/

/-- spec/70_reset_and_hazards.md R285, spec/30_encoding.md R97: the engine's turn, marked in `inbox` or come because
nothing else is to come (log 1), is the meaning of the command that the accepted word decodes to; with no command
accepted it does nothing (R280, spec/60_exceptions.md R257). That such turns are steps is the model's choice (log 1). -/
def Obligations.StepRunsTheDecodedCommand : Prop :=
  (∀ (s : State) (i : Instr), s.eng.busy = true → decode s.eng.cmd = .ok i → WellFormed i →
    (∀ rest, s.inbox = .engine :: rest → step s = exec i { s with inbox := rest }) ∧
    (s.inbox = [] → step s = exec i s)) ∧
  (∀ s : State, s.eng.busy = false →
    (∀ rest, s.inbox = .engine :: rest → step s = .next { s with inbox := rest }) ∧
    (s.inbox = [] → step s = .next s))

/-- spec/60_exceptions.md R247: an illegal word, accepted, changes STATUS and RESULT_LEN only. -/
def Obligations.IllegalWordsChangeStatusOnly : Prop :=
  ∀ (s : State) (e : DecodeError) (rest : List Action), s.eng.busy = true → decode s.eng.cmd = .error e →
    s.inbox = .engine :: rest → step s = .next { s with inbox := rest, eng := s.eng.failed .illegalCommand }

/-- spec/60_exceptions.md R243, R245, R246: every command completes, and completion touches nothing but the contexts,
the RAM and four fields of the engine. -/
def Obligations.EveryCommandCompletes : Prop :=
  ∀ (i : Instr) (s : State), ∃ t, exec i s = .next t ∧ SameRest s t ∧
    ((∃ n, t.eng = s.eng.completed n) ∨ (∃ e, e ≠ .ok ∧ t.eng = s.eng.failed e))

/-- spec/60_exceptions.md R246, R248, spec/20_memory.md R67: an error writes no RAM and erases the unit of its command;
KDF_DERIVE zeroizes the MAC unit on every outcome. -/
def Obligations.ErrorsEraseTheirUnit : Prop :=
  ∀ (i : Instr) (s t : State), exec i s = .next t →
    (t.eng.errcode ≠ .ok → t.ram = s.ram ∧ t.eng.resultLen = 0 ∧
      (match i with
        | .cipherInit .. | .cipherUpdate | .cipherFinal => t.ctx = CipherCtx.uninit ∧ t.mac = s.mac
        | .macSetkey _ | .macCompute | .kdfDerive _ => t.mac = MacCtx.unkeyed ∧ t.ctx = s.ctx
        | .bufZero => t.ctx = s.ctx ∧ t.mac = s.mac
        | .nop | .cipherClean | .macClean | .zeroizeAll => False)) ∧
    (∀ h, i = .kdfDerive h → t.mac = MacCtx.unkeyed)

/-- spec/70_reset_and_hazards.md R287: a command depends on the latched operands only, and acceptance latches them. -/
def Obligations.CommandsReadTheLatchedOperands : Prop :=
  (∀ (i : Instr) (s : State) (r : OpRegs), ∃ t, exec i s = .next t ∧
    exec i { s with regs := r } = .next { t with regs := r }) ∧
  (∀ (s : State) (w : Word) (rest : List Action), s.eng.busy = false → s.inbox = .write 0x010 4 w :: rest →
    ∃ t, step s = .next t ∧ t.eng.op = s.regs)

/-! ### The MAC unit -/

/-- spec/40_mac.md R125, R121, R122: MAC_SETKEY with a hash that is present and a key in RAM. -/
def Obligations.MacSetkeyStoresKeyAndPads : Prop :=
  ∀ (s : State) (halg : Nat) (h : HashAlg), s.cfg.Legal →
    (halg, h) ∈ [(0, HashAlg.md5), (1, .sha1), (2, .sha256), (3, .sha384), (4, .sha512)] →
    s.cfg.halgPresent.getLsbD halg = true →
    s.eng.op.keyAddr.toNat + s.eng.op.keyLen.toNat ≤ s.cfg.bufSize →
    let b := (s.cfg.hashSize h).block
    let key := memRead s.ram s.eng.op.keyAddr.toNat s.eng.op.keyLen.toNat
    let k0 := (if b < key.length then hashBytes Config.prims s.cfg h key else key)
    ∃ t, exec (.macSetkey halg) s = .next t ∧ t.mac.mstate = .keyed ∧ t.mac.halg = h ∧
      (∀ i : Fin 128, t.mac.k0[i] = k0.getD i.val 0 ∧
        t.mac.ipad[i] = (if i.val < b then k0.getD i.val 0 ^^^ 0x36 else 0) ∧
        t.mac.opad[i] = (if i.val < b then k0.getD i.val 0 ^^^ 0x5c else 0)) ∧
      t.eng = s.eng.completed 0 ∧ t.ctx = s.ctx ∧ RamSame s t ∧ SameRest s t

/-- spec/40_mac.md R125, spec/60_exceptions.md R242: MAC_SETKEY's errors, in the order they are checked. -/
def Obligations.MacSetkeyErrorsInOrder : Prop :=
  ∀ (s : State) (halg : Nat), ∃ t, exec (.macSetkey halg) s = .next t ∧
    (4 < halg ∨ s.cfg.halgPresent.getLsbD halg = false → t.eng = s.eng.failed .invalidAlgorithm) ∧
    (halg ≤ 4 → s.cfg.halgPresent.getLsbD halg = true →
      s.cfg.bufSize < s.eng.op.keyAddr.toNat + s.eng.op.keyLen.toNat → t.eng = s.eng.failed .invalidParameters)

/-- spec/40_mac.md R127: MAC_COMPUTE under a keyed context. -/
def Obligations.MacComputeWritesTheDigest : Prop :=
  ∀ s : State, s.cfg.Legal → s.mac.mstate = .keyed → DataInRange s →
    (s.cfg.hashSize s.mac.halg).digest ≤ s.eng.op.dstCap.toNat →
    let h := s.mac.halg
    let b := (s.cfg.hashSize h).block
    let m := memRead s.ram s.eng.op.srcAddr.toNat s.eng.op.srcLen.toNat
    let inner := hashBytes Config.prims s.cfg h (s.mac.ipad.toList.take b ++ m)
    let d := hashBytes Config.prims s.cfg h (s.mac.opad.toList.take b ++ inner)
    d.length = (s.cfg.hashSize h).digest ∧
    ∃ t, exec .macCompute s = .next t ∧ RamHolds t s.eng.op.dstAddr.toNat d ∧
      RamSameOutside s t s.eng.op.dstAddr.toNat (s.cfg.hashSize h).digest ∧
      t.eng = s.eng.completed (s.cfg.hashSize h).digest ∧ t.mac = s.mac ∧ t.ctx = s.ctx ∧ SameRest s t

/-- spec/40_mac.md R127, spec/60_exceptions.md R242: MAC_COMPUTE's errors, in the order they are checked. -/
def Obligations.MacComputeErrorsInOrder : Prop :=
  ∀ s : State, ∃ t, exec .macCompute s = .next t ∧
    (s.mac.mstate = .unkeyed → t.eng = s.eng.failed .invalidState) ∧
    (s.mac.mstate = .keyed → ¬DataInRange s → t.eng = s.eng.failed .invalidParameters) ∧
    (s.mac.mstate = .keyed → DataInRange s → s.eng.op.dstCap.toNat < (s.cfg.hashSize s.mac.halg).digest →
      t.eng = s.eng.failed .bufferTooSmall)

/-- spec/40_mac.md R124: HMAC under a key, and that a context keyed with it (R125) gives it (R127). -/
def Obligations.KeyedDigestIsHmac : Prop :=
  ∀ (p : Prims) (g : Cfg) (h : HashAlg) (key msg : Bytes), g.Legal →
    (hmacKey p g h key).length = (g.hashSize h).block ∧
    hmac p g h key msg = hashBytes p g h
      ((hmacKey p g h key).map (· ^^^ 0x5c) ++ hashBytes p g h ((hmacKey p g h key).map (· ^^^ 0x36) ++ msg)) ∧
    (hmac p g h key msg).length = (g.hashSize h).digest ∧
    macDigest p g (keyedMac p g h key) msg = hmac p g h key msg

/-- spec/40_mac.md R129: MAC_CLEAN, with its corner case and its example. -/
def Obligations.MacCleanZeroizes : Prop :=
  decode 0x00000007 = .ok .macClean ∧
  ∀ s : State, (s.Inv → s.mac.mstate = .unkeyed → exec .macClean s = .next { s with eng := s.eng.completed 0 }) ∧
    (∀ e, ∃ t, exec .macCompute { s with mac := MacCtx.unkeyed, eng := e } = .next t ∧ t.eng.errcode = .invalidState) ∧
    exec .macClean s = .next { s with mac := MacCtx.unkeyed, eng := s.eng.completed 0 } ∧
    MacCtx.unkeyed.mstate = .unkeyed ∧ MacCtx.unkeyed.halg = .md5 ∧
    ∀ i : Fin 128, MacCtx.unkeyed.k0[i] = 0 ∧ MacCtx.unkeyed.ipad[i] = 0 ∧ MacCtx.unkeyed.opad[i] = 0

/-- spec/40_mac.md R123: the MAC lifecycle. -/
def Obligations.MacLifecycle : Prop :=
  (∀ (i : Instr) (s t : State), exec i s = .next t →
    (match i with
      | .macSetkey halg => if t.eng.errcode = .ok
          then t.mac.mstate = .keyed ∧
            ∃ h, s.cfg.selectHash halg = some h ∧ t.mac = keyedMac Config.prims s.cfg h (keyBytes s)
          else t.mac = MacCtx.unkeyed
      | .macCompute => if t.eng.errcode = .ok then t.mac = s.mac else t.mac = MacCtx.unkeyed
      | .macClean | .kdfDerive _ | .zeroizeAll => t.mac = MacCtx.unkeyed
      | .nop | .cipherInit .. | .cipherUpdate | .cipherFinal | .cipherClean | .bufZero => t.mac = s.mac)) ∧
  (∀ (s t : State) (rest : List Action), step s = .next t →
    (s.inbox = .reset :: rest → t.mac = MacCtx.unkeyed) ∧
    (∀ off w, s.inbox = .read off w :: rest → t.mac = s.mac) ∧
    (∀ off w v, s.inbox = .write off w v :: rest → t.mac = s.mac) ∧
    (s.inbox = [] ∨ s.inbox = .engine :: rest →
      (s.eng.busy = false ∨ ∃ e, decode s.eng.cmd = .error e) → t.mac = s.mac))

/-! ### Key derivation -/

/-- spec/41_kdf.md R145: KDF_DERIVE on operands that meet its checks. -/
def Obligations.KdfDeriveWritesTheKey : Prop :=
  ∀ (s : State) (halg : Nat) (h : HashAlg), s.cfg.Legal →
    (halg, h) ∈ [(0, HashAlg.md5), (1, .sha1), (2, .sha256), (3, .sha384), (4, .sha512)] →
    s.cfg.halgPresent.getLsbD halg = true →
    0 < s.eng.op.iterCount.toNat → 0 < s.eng.op.dkLen.toNat →
    s.eng.op.keyAddr.toNat + s.eng.op.keyLen.toNat ≤ s.cfg.bufSize →
    s.eng.op.auxAddr.toNat + s.eng.op.auxLen.toNat ≤ s.cfg.bufSize →
    s.eng.op.dstAddr.toNat + s.eng.op.dkLen.toNat ≤ s.cfg.bufSize →
    let dk := pbkdf2 Config.prims s.cfg h (memRead s.ram s.eng.op.keyAddr.toNat s.eng.op.keyLen.toNat)
      (memRead s.ram s.eng.op.auxAddr.toNat s.eng.op.auxLen.toNat) s.eng.op.iterCount.toNat s.eng.op.dkLen.toNat
    dk.length = s.eng.op.dkLen.toNat ∧
    ∃ t, exec (.kdfDerive halg) s = .next t ∧ RamHolds t s.eng.op.dstAddr.toNat dk ∧
      RamSameOutside s t s.eng.op.dstAddr.toNat s.eng.op.dkLen.toNat ∧
      t.eng = s.eng.completed s.eng.op.dkLen.toNat ∧ t.mac = MacCtx.unkeyed ∧ t.ctx = s.ctx ∧ SameRest s t

/-- spec/41_kdf.md R145, spec/60_exceptions.md R242: KDF_DERIVE's errors, in the order they are checked. -/
def Obligations.KdfDeriveErrorsInOrder : Prop :=
  ∀ (s : State) (halg : Nat), ∃ t, exec (.kdfDerive halg) s = .next t ∧
    (4 < halg ∨ s.cfg.halgPresent.getLsbD halg = false → t.eng = s.eng.failed .invalidAlgorithm) ∧
    (halg ≤ 4 → s.cfg.halgPresent.getLsbD halg = true →
      (s.eng.op.iterCount = 0 ∨ s.eng.op.dkLen = 0 ∨
        s.cfg.bufSize < s.eng.op.keyAddr.toNat + s.eng.op.keyLen.toNat ∨
        s.cfg.bufSize < s.eng.op.auxAddr.toNat + s.eng.op.auxLen.toNat ∨
        s.cfg.bufSize < s.eng.op.dstAddr.toNat + s.eng.op.dkLen.toNat) →
      t.eng = s.eng.failed .invalidParameters)

/-- spec/41_kdf.md R141: with c = 1 the block is U1, and each further round puts the next U in. -/
def Obligations.KdfBlockXorsEveryRound : Prop :=
  ∀ (p : Prims) (g : Cfg) (h : HashAlg) (password salt : Bytes) (c i : Nat), 1 ≤ c → i < 2 ^ 32 → g.Legal →
    let u1 := hmac p g h password (salt ++ [BitVec.ofNat 8 (i / 2 ^ 24), BitVec.ofNat 8 (i / 2 ^ 16),
      BitVec.ofNat 8 (i / 2 ^ 8), BitVec.ofNat 8 i])
    pbkdf2Block p g h password salt 1 i = u1 ∧
    pbkdf2Block p g h password salt (c + 1) i =
      xorBytes (pbkdf2Block p g h password salt c i) ((hmac p g h password)^[c] u1) ∧
    (pbkdf2Block p g h password salt c i).length = (g.hashSize h).digest

/-- spec/41_kdf.md R142: the derived key is the blocks 1, 2, ... joined and cut to length: byte n is byte n mod hLen of
block n / hLen + 1. -/
def Obligations.KdfJoinsItsBlocks : Prop :=
  ∀ (p : Prims) (g : Cfg) (h : HashAlg) (password salt : Bytes) (c dkLen n : Nat), g.Legal → 1 ≤ c → n < dkLen →
    (pbkdf2 p g h password salt c dkLen).length = dkLen ∧
    (pbkdf2 p g h password salt c dkLen).getD n 0 =
      (pbkdf2Block p g h password salt c (n / (g.hashSize h).digest + 1)).getD (n % (g.hashSize h).digest) 0

/-! ### The cipher unit -/

/-- spec/42_cipher.md R165, R167: CIPHER_INIT on operands that meet its checks, in every state of the old context. -/
def Obligations.CipherInitStartsAContext : Prop :=
  ∀ (s : State) (mode ksz kb : Nat) (m : Mode) (k : KeySize) (dir : Dir) (pad : Bool),
    (mode, m) ∈ [(0, Mode.ecb), (1, .cbc), (2, .cfb), (3, .ofb), (4, .ctr)] →
    (ksz, k, kb) ∈ [(0, KeySize.k128, 16), (1, .k192, 24), (2, .k256, 32)] →
    s.eng.op.keyLen.toNat = kb → s.eng.op.keyAddr.toNat + kb ≤ s.cfg.bufSize →
    (m = .ecb ∨ s.eng.op.auxAddr.toNat + 16 ≤ s.cfg.bufSize) →
    ∃ t, exec (.cipherInit mode ksz dir pad) s = .next t ∧
      t.ctx.cstate = .active ∧ t.ctx.mode = m ∧ t.ctx.ksz = k ∧ t.ctx.dir = dir ∧ t.ctx.pad = pad ∧
      (∀ i : Fin 32, t.ctx.key[i] = if i.val < kb then readByte s.ram (s.eng.op.keyAddr.toNat + i.val) else 0) ∧
      (∀ i : Fin 16, t.ctx.oiv[i] = if m = .ecb then 0 else readByte s.ram (s.eng.op.auxAddr.toNat + i.val)) ∧
      t.ctx.civ = t.ctx.oiv ∧ (∀ i : Fin 16, t.ctx.ks[i] = 0) ∧ t.ctx.off = 0 ∧ t.ctx.res = [] ∧
      t.eng = s.eng.completed 0 ∧ t.mac = s.mac ∧ RamSame s t ∧ SameRest s t

/-- spec/42_cipher.md R166: CIPHER_INIT's errors; the old context, whatever its state, is zeroized. -/
def Obligations.CipherInitErrorsZeroize : Prop :=
  ∀ (s : State) (mode ksz : Nat) (dir : Dir) (pad : Bool), WellFormed (.cipherInit mode ksz dir pad) →
    (4 < mode ∨ ksz = 3 ∨ s.eng.op.keyLen.toNat ≠ 16 + 8 * ksz ∨
      s.cfg.bufSize < s.eng.op.keyAddr.toNat + (16 + 8 * ksz) ∨
      (mode ≠ 0 ∧ s.cfg.bufSize < s.eng.op.auxAddr.toNat + 16)) →
    ∃ t, exec (.cipherInit mode ksz dir pad) s = .next t ∧ t.eng = s.eng.failed .invalidParameters ∧
      t.ctx = CipherCtx.uninit ∧ t.mac = s.mac ∧ RamSame s t ∧ SameRest s t

/-- spec/42_cipher.md R180, R181, R184, R185: CIPHER_UPDATE on a chunk whose output fits: what it writes and the context
it leaves. `updateLength` is R186's row; `chunk` is what the statements about messages in pieces speak of. -/
def Obligations.CipherUpdateCompletes : Prop :=
  ∀ s : State, s.ctx.cstate = .active → DataInRange s →
    updateLength s.ctx s.eng.op.srcLen.toNat ≤ s.eng.op.dstCap.toNat →
    let x := memRead s.ram s.eng.op.srcAddr.toNat s.eng.op.srcLen.toNat
    ∃ t out, exec .cipherUpdate s = .next t ∧ chunk Config.prims false s.ctx x = .ok (out, t.ctx) ∧
      (s.ctx.mode.isBlock = true →
        let data := s.ctx.res ++ x
        let n := data.length
        let k := if s.ctx.dir = .dec ∧ s.ctx.pad = true ∧ 0 < n ∧ n % 16 = 0 then n / 16 - 1 else n / 16
        let m := blockMap Config.prims s.ctx (data.take (16 * k))
        out = m.1 ∧ t.ctx = { s.ctx with civ := m.2, res := data.drop (16 * k) }) ∧
      (s.ctx.mode.isBlock = false →
        let m := streamMap Config.prims s.ctx x
        if s.ctx.dir = .dec ∧ s.ctx.pad = true then
          let full := s.ctx.res ++ m.1
          out = full.take (full.length - 16) ∧
            t.ctx = { s.ctx with civ := m.2.civ, ks := m.2.ks, off := m.2.off, res := full.drop (full.length - 16) }
        else out = m.1 ∧ t.ctx = { s.ctx with civ := m.2.civ, ks := m.2.ks, off := m.2.off, res := [] }) ∧
      out.length = updateLength s.ctx s.eng.op.srcLen.toNat ∧ t.ctx.cstate = .active ∧
      RamHolds t s.eng.op.dstAddr.toNat out ∧ RamSameOutside s t s.eng.op.dstAddr.toNat out.length ∧
      t.eng = s.eng.completed out.length ∧ t.mac = s.mac ∧ SameRest s t

/-- spec/42_cipher.md R180, R182, R183, R184: CIPHER_FINAL of an encryption, or of a message without padding, whose
length the mode allows and whose output fits: what it writes and the context it leaves. `finalLength` is R186's row,
`padBytes` the pad of R177 (DepadTakesOffAValidPad). -/
def Obligations.CipherFinalCompletesWithoutDepadding : Prop :=
  ∀ s : State, s.ctx.cstate = .active → s.ctx.Inv → DataInRange s → ¬(s.ctx.dir = .dec ∧ s.ctx.pad = true) →
    (s.ctx.mode.isBlock = true → s.ctx.pad = false → (s.ctx.res.length + s.eng.op.srcLen.toNat) % 16 = 0) →
    finalLength s.ctx s.eng.op.srcLen.toNat ≤ s.eng.op.dstCap.toNat →
    let x := memRead s.ram s.eng.op.srcAddr.toNat s.eng.op.srcLen.toNat
    ∃ t out c, exec .cipherFinal s = .next t ∧ chunk Config.prims true s.ctx x = .ok (out, c) ∧
      t.ctx = { c with cstate := .done } ∧
      (s.ctx.mode.isBlock = true →
        let data := s.ctx.res ++ x
        let m := blockMap Config.prims s.ctx (if s.ctx.pad then data ++ padBytes data.length else data)
        out = m.1 ∧ t.ctx = { s.ctx with cstate := .done, civ := m.2, res := [] }) ∧
      (s.ctx.mode.isBlock = false →
        let m := streamMap Config.prims s.ctx (if s.ctx.pad then x ++ padBytes (s.ctx.off.val + x.length) else x)
        out = m.1 ∧
          t.ctx = { s.ctx with cstate := .done, civ := m.2.civ, ks := m.2.ks, off := m.2.off, res := [] }) ∧
      out.length = finalLength s.ctx s.eng.op.srcLen.toNat ∧ RamHolds t s.eng.op.dstAddr.toNat out ∧
      RamSameOutside s t s.eng.op.dstAddr.toNat out.length ∧
      t.eng = s.eng.completed out.length ∧ t.mac = s.mac ∧ SameRest s t

/-- spec/42_cipher.md R180, R182, R183, R184, R185: CIPHER_FINAL of a padded decryption: `plain` is the decrypted data
that is held or comes with this chunk; it ends OK exactly when the pad is valid and the rest fits. -/
def Obligations.CipherFinalDepadsDecryption : Prop :=
  ∀ (s : State) (plain : Bytes), s.ctx.cstate = .active → DataInRange s → s.ctx.dir = .dec → s.ctx.pad = true →
    let x := memRead s.ram s.eng.op.srcAddr.toNat s.eng.op.srcLen.toNat
    (if s.ctx.mode.isBlock then (s.ctx.res.length + s.eng.op.srcLen.toNat) % 16 = 0 ∧
        plain = (blockMap Config.prims s.ctx (s.ctx.res ++ x)).1
      else plain = s.ctx.res ++ (streamMap Config.prims s.ctx x).1) →
    ∃ t, exec .cipherFinal s = .next t ∧ t.mac = s.mac ∧ SameRest s t ∧
      (∀ out n, 1 ≤ n → n ≤ 16 → plain = out ++ List.replicate n (BitVec.ofNat 8 n) →
        (out.length ≤ s.eng.op.dstCap.toNat →
          t.ctx.cstate = .done ∧ t.ctx.key = s.ctx.key ∧ t.ctx.res = [] ∧ RamHolds t s.eng.op.dstAddr.toNat out ∧
          RamSameOutside s t s.eng.op.dstAddr.toNat out.length ∧ t.eng = s.eng.completed out.length) ∧
        (s.eng.op.dstCap.toNat < out.length →
          t.ctx = CipherCtx.uninit ∧ RamSame s t ∧ t.eng = s.eng.failed .bufferTooSmall)) ∧
      ((∀ out n, 1 ≤ n → n ≤ 16 → plain ≠ out ++ List.replicate n (BitVec.ofNat 8 n)) →
        t.ctx = CipherCtx.uninit ∧ RamSame s t ∧ t.eng = s.eng.failed .invalidPadding)

/-- spec/42_cipher.md R187, spec/60_exceptions.md R242: the errors of CIPHER_UPDATE and CIPHER_FINAL in the order they
are checked, but for a bad pad and the capacity of a decryption with padding (CipherFinalDepadsDecryption). -/
def Obligations.CipherChunkErrorsInOrder : Prop :=
  ∀ (s : State) (i : Instr), i = .cipherUpdate ∨ i = .cipherFinal → ∃ t, exec i s = .next t ∧
    (s.ctx.cstate ≠ .active → t.eng = s.eng.failed .invalidState) ∧
    (s.ctx.cstate = .active → ¬DataInRange s → t.eng = s.eng.failed .invalidParameters) ∧
    (s.ctx.cstate = .active → DataInRange s → i = .cipherFinal → s.ctx.mode.isBlock = true →
      ¬(s.ctx.dir = .enc ∧ s.ctx.pad = true) → (s.ctx.res.length + s.eng.op.srcLen.toNat) % 16 ≠ 0 →
      t.eng = s.eng.failed .invalidParameters) ∧
    (s.ctx.cstate = .active → DataInRange s → i = .cipherUpdate →
      s.eng.op.dstCap.toNat < updateLength s.ctx s.eng.op.srcLen.toNat → t.eng = s.eng.failed .bufferTooSmall) ∧
    (s.ctx.cstate = .active → DataInRange s → i = .cipherFinal → s.ctx.Inv →
      ¬(s.ctx.dir = .dec ∧ s.ctx.pad = true) →
      (s.ctx.mode.isBlock = true → s.ctx.pad = false → (s.ctx.res.length + s.eng.op.srcLen.toNat) % 16 = 0) →
      s.eng.op.dstCap.toNat < finalLength s.ctx s.eng.op.srcLen.toNat → t.eng = s.eng.failed .bufferTooSmall) ∧
    (t.eng.errcode ≠ .ok → t.ctx = CipherCtx.uninit ∧ t.mac = s.mac ∧ t.eng.resultLen = 0 ∧ RamSame s t ∧ SameRest s t)

/-- spec/42_cipher.md R162, R163, R164: the output blocks of the block modes, and the chaining value after them. -/
def Obligations.BlockModesChain : Prop :=
  ∀ (p : Prims) (c : CipherCtx) (s : Bytes) (m : Nat), s.length = 16 * m →
    let out := (blockMap p c s).1
    let civ := (blockMap p c s).2
    out.length = 16 * m ∧
    (c.mode = .ecb → c.dir = .enc → civ = c.civ ∧ ∀ j, j < m → blockAt out j = encBlock p c (blockAt s j)) ∧
    (c.mode = .ecb → c.dir = .dec → civ = c.civ ∧ ∀ j, j < m → blockAt out j = decBlock p c (blockAt s j)) ∧
    (c.mode = .cbc → c.dir = .enc → civ = (if m = 0 then c.civ else blockAt out (m - 1)) ∧ ∀ j, j < m →
      blockAt out j = encBlock p c (xorBlock (blockAt s j) (if j = 0 then c.civ else blockAt out (j - 1)))) ∧
    (c.mode = .cbc → c.dir = .dec → civ = (if m = 0 then c.civ else blockAt s (m - 1)) ∧ ∀ j, j < m →
      blockAt out j = xorBlock (decBlock p c (blockAt s j)) (if j = 0 then c.civ else blockAt s (j - 1)))

/-- spec/42_cipher.md R171, R174: OFB from the start of a keystream block: block n of the keystream is the primitive
applied n + 1 times to the feedback value. -/
def Obligations.OfbReencryptsTheKeystream : Prop :=
  ∀ (p : Prims) (c : CipherCtx) (s : Bytes) (i : Nat), c.mode = .ofb → c.off = 0 → i < s.length →
    (streamMap p c s).1.length = s.length ∧
    (streamMap p c s).1.getD i 0 =
      s.getD i 0 ^^^ ((encBlock p c)^[i / 16 + 1] c.civ)[i % 16]'(Nat.mod_lt i (by decide)) ∧
    (streamMap p c s).2.off.val = s.length % 16

/-- spec/42_cipher.md R173, R176: CTR from the start of a keystream block: block n of the keystream is the primitive on
the counter plus n, the counter a 128-bit big-endian integer that wraps. -/
def Obligations.CtrEncryptsTheCounter : Prop :=
  ∀ (p : Prims) (c : CipherCtx) (s : Bytes) (i : Nat), c.mode = .ctr → c.off = 0 → i < s.length →
    (streamMap p c s).1.length = s.length ∧
    (streamMap p c s).1.getD i 0 =
      s.getD i 0 ^^^ (encBlock p c (toBE128 ((be128 c.civ + i / 16) % 2 ^ 128)))[i % 16]'(Nat.mod_lt i (by decide)) ∧
    (streamMap p c s).2.civ = toBE128 ((be128 c.civ + (s.length + 15) / 16) % 2 ^ 128) ∧
    (streamMap p c s).2.off.val = s.length % 16

/-- spec/42_cipher.md R172: CFB from the start of a keystream block: each block is masked with the encryption of the
ciphertext block before it. -/
def Obligations.CfbFeedsBackTheCiphertext : Prop :=
  ∀ (p : Prims) (c : CipherCtx) (s : Bytes) (i : Nat), c.mode = .cfb → c.off = 0 → i < s.length →
    let out := (streamMap p c s).1
    let cipher := if c.dir = .enc then out else s
    let prev := if i / 16 = 0 then c.civ else blockAt cipher (i / 16 - 1)
    out.length = s.length ∧ out.getD i 0 = s.getD i 0 ^^^ (encBlock p c prev)[i % 16]'(Nat.mod_lt i (by decide)) ∧
    (s.length % 16 = 0 → (streamMap p c s).2.civ = blockAt cipher (s.length / 16 - 1)) ∧
    (streamMap p c s).2.off.val = s.length % 16

/-- spec/42_cipher.md R176, spec/00_scope.md R12: the counter's increment is modulo 2^128 on all 16 bytes; and R12's
conversions, byte 0 the most significant, each the other's inverse. -/
def Obligations.CounterCountsModulo : Prop :=
  (∀ b : Block, be128 (nextCounter b) = (be128 b + 1) % 2 ^ 128 ∧ be128 b < 2 ^ 128 ∧
    (∀ i : Fin 16, b[i].toNat = be128 b / 256 ^ (15 - i.val) % 256) ∧ toBE128 (be128 b) = b) ∧
  ∀ n : Nat, n < 2 ^ 128 → be128 (toBE128 n) = n

/-- spec/42_cipher.md R175: OFB and CTR do not read the direction. -/
def Obligations.OfbAndCtrIgnoreTheDirection : Prop :=
  ∀ (p : Prims) (c : CipherCtx) (d : Dir) (s : Bytes), c.mode = .ofb ∨ c.mode = .ctr →
    (streamMap p { c with dir := d } s).1 = (streamMap p c s).1 ∧
    (streamMap p { c with dir := d } s).2 = { (streamMap p c s).2 with dir := d }

/-- spec/42_cipher.md R178: depad succeeds exactly on a string that ends in 1 to 16 bytes of their number's value, and
takes them off; else it raises InvalidPadding. And R177: the pad of n bytes is such an end, up to a whole block. -/
def Obligations.DepadTakesOffAValidPad : Prop :=
  (∀ s : Bytes,
    (∀ r, depad s = .ok r ↔ ∃ n, 1 ≤ n ∧ n ≤ 16 ∧ s = r ++ List.replicate n (BitVec.ofNat 8 n)) ∧
    ((∀ r, depad s ≠ .ok r) → depad s = .error .invalidPadding)) ∧
  (∀ n : Nat, 1 ≤ (padBytes n).length ∧ (padBytes n).length ≤ 16 ∧ (n + (padBytes n).length) % 16 = 0 ∧
    ∀ b ∈ padBytes n, b.toNat = (padBytes n).length)

/-- spec/42_cipher.md R186: the output lengths, and that a capacity of r + m + 16 is always enough. -/
def Obligations.ChunkOutputLengths : Prop :=
  ∀ (p : Prims) (c : CipherCtx) (x : Bytes), c.Inv →
    let r := c.res.length
    let m := x.length
    (∃ out c', chunk p false c x = .ok (out, c') ∧ out.length = updateLength c m ∧ out.length ≤ r + m + 16) ∧
    (∀ out c', chunk p true c x = .ok (out, c') → out.length ≤ r + m + 16 ∧
      (match c.mode.isBlock, c.dir, c.pad with
        | true, .enc, false => out.length = r + m ∧ (r + m) % 16 = 0
        | true, .enc, true => out.length = 16 * ((r + m) / 16 + 1)
        | true, .dec, false => out.length = r + m ∧ (r + m) % 16 = 0
        | true, .dec, true => (r + m) % 16 = 0 ∧ 16 ≤ r + m ∧ ∃ n, 1 ≤ n ∧ n ≤ 16 ∧ out.length + n = r + m
        | false, .enc, false => out.length = m
        | false, .enc, true => out.length = m + 16 - (c.off.val + m) % 16
        | false, .dec, false => out.length = m
        | false, .dec, true => ∃ n, 1 ≤ n ∧ n ≤ 16 ∧ out.length + n = r + m))

/-- spec/42_cipher.md R190: chunk invariance, for every context and every split of a message into pieces. -/
def Obligations.ChunkingDoesNotChangeTheMessage : Prop :=
  ∀ (p : Prims) (c : CipherCtx) (pieces : List Bytes) (last : Bytes),
    ∃ o1 c1, updateAll p c pieces = .ok (o1, c1) ∧
      (match chunk p true c1 last, chunk p true c (pieces.flatten ++ last) with
        | .ok (o2, c2), .ok (o, c') => o1 ++ o2 = o ∧ c2 = c'
        | .error e, .error e' => e = e'
        | _, _ => False)

/-- spec/42_cipher.md R191: what was encrypted decrypts to the message, with padding in every mode, and without
padding where the mode allows the length. -/
def Obligations.DecryptionUndoesEncryption : Prop :=
  ∀ (p : Prims) (mode : Mode) (k : KeySize) (pad : Bool) (key : Bytes) (iv : Block) (msg : Bytes), p.Legal →
    (pad = true ∨ mode.isBlock = false ∨ msg.length % 16 = 0) →
    ∃ cipher c1 c2, chunk p true (freshCtx mode k .enc pad key iv) msg = .ok (cipher, c1) ∧
      chunk p true (freshCtx mode k .dec pad key iv) cipher = .ok (msg, c2)

/-- spec/42_cipher.md R188: CIPHER_CLEAN, with what it leaves in STATUS. -/
def Obligations.CipherCleanZeroizes : Prop :=
  decode 0x00000004 = .ok .cipherClean ∧
  ∀ s : State, exec .cipherClean s = .next { s with ctx := CipherCtx.uninit, eng := s.eng.completed 0 } ∧
    (s.Inv → s.ctx.cstate = .uninit → exec .cipherClean s = .next { s with eng := s.eng.completed 0 }) ∧
    ∃ w, w = statusWord { s with ctx := CipherCtx.uninit, eng := s.eng.completed 0 } ∧
      w.extractLsb' 4 6 = 0 ∧ w.extractLsb' 12 14 = 0 ∧ w.getLsbD 0 = false ∧ w.getLsbD 1 = true

/-- spec/42_cipher.md R160: the life of the cipher context. -/
def Obligations.CipherLifecycle : Prop :=
  (∀ (i : Instr) (s t : State), exec i s = .next t →
    (match i with
      | .cipherInit .. => if t.eng.errcode = .ok then t.ctx.cstate = .active else t.ctx = CipherCtx.uninit
      | .cipherUpdate => if t.eng.errcode = .ok then s.ctx.cstate = .active ∧ t.ctx.cstate = .active
          else t.ctx = CipherCtx.uninit
      | .cipherFinal => if t.eng.errcode = .ok then s.ctx.cstate = .active ∧ t.ctx.cstate = .done ∧
          t.ctx.key = s.ctx.key
          else t.ctx = CipherCtx.uninit
      | .cipherClean | .zeroizeAll => t.ctx = CipherCtx.uninit
      | .nop | .macSetkey _ | .macCompute | .macClean | .kdfDerive _ | .bufZero => t.ctx = s.ctx)) ∧
  (∀ (s t : State) (rest : List Action), step s = .next t →
    (s.inbox = .reset :: rest → t.ctx = CipherCtx.uninit) ∧
    (∀ off w, s.inbox = .read off w :: rest → t.ctx = s.ctx) ∧
    (∀ off w v, s.inbox = .write off w v :: rest → t.ctx = s.ctx) ∧
    (s.inbox = [] ∨ s.inbox = .engine :: rest →
      (s.eng.busy = false ∨ ∃ e, decode s.eng.cmd = .error e) → t.ctx = s.ctx))

/-! ### System commands -/

/-- spec/43_system.md R220: NOP, and its example from reset. -/
def Obligations.NopCompletes : Prop :=
  decode 0x00000000 = .ok .nop ∧ (∀ s : State, exec .nop s = .next { s with eng := s.eng.completed 0 }) ∧
  ∀ g, ∃ t, step ((State.resetOf g).withFetchWord 32 0) = .next t ∧ statusWord t = 0x00000002

/-- spec/43_system.md R222: BUF_ZERO of an area in RAM, and of one that is not. -/
def Obligations.BufZeroErasesItsArea : Prop :=
  decode 0x00000009 = .ok .bufZero ∧ ∀ s : State,
    let a := s.eng.op.dstAddr.toNat
    let n := s.eng.op.dstCap.toNat
    ∃ t, exec .bufZero s = .next t ∧ t.ctx = s.ctx ∧ t.mac = s.mac ∧ SameRest s t ∧
      (a + n ≤ s.cfg.bufSize → (∀ i, i < n → readByte t.ram (a + i) = 0) ∧ RamSameOutside s t a n ∧
        t.eng = s.eng.completed n) ∧
      (s.cfg.bufSize < a + n → RamSame s t ∧ t.eng = s.eng.failed .invalidParameters)

/-- spec/43_system.md R224: ZEROIZE_ALL. -/
def Obligations.ZeroizeAllErasesEverySecret : Prop :=
  decode 0x0000000A = .ok .zeroizeAll ∧ ∀ s : State, ∃ t, exec .zeroizeAll s = .next t ∧
    t.ctx = CipherCtx.uninit ∧ t.mac = MacCtx.unkeyed ∧
    (∀ a, readByte t.ram a = 0) ∧ t.eng = s.eng.completed 0 ∧ SameRest s t

/-! ### Whole-machine rules -/

/-- spec/10_state.md R28: only a host write to an operand register, and reset, change the operand registers. -/
def Obligations.OnlyTheHostWritesOperandRegisters : Prop :=
  ∀ s t : State, step s = .next t → t.regs ≠ s.regs →
    ∃ rest, s.inbox = .reset :: rest ∨
      ∃ off v, 0x020 ≤ off.toNat ∧ off.toNat ≤ 0x044 ∧ s.inbox = .write off 4 v :: rest

/-- spec/10_state.md R40: what changes the buffer RAM. -/
def Obligations.OnlyTheseEventsChangeRam : Prop :=
  ∀ s t : State, step s = .next t → t.ram ≠ s.ram →
    (∃ rest, s.inbox = .reset :: rest) ∨
    (s.eng.busy = false ∧ ∃ off w v rest, s.inbox = .write off w v :: rest ∧
      0x100000 ≤ off.toNat ∧ off.toNat < 0x100000 + s.cfg.bufSize) ∨
    (s.eng.busy = true ∧ (s.inbox = [] ∨ ∃ rest, s.inbox = .engine :: rest) ∧ t.eng.errcode = .ok ∧
      t.eng.done = true ∧ ∃ i, decode s.eng.cmd = .ok i ∧
      (i = .cipherUpdate ∨ i = .cipherFinal ∨ i = .macCompute ∨ (∃ h, i = .kdfDerive h) ∨ i = .bufZero ∨
        i = .zeroizeAll))

/-- spec/10_state.md R37: when each flag is set and when it is cleared, both ways, reset (R280) apart; and the engine's
turn, where BUSY falls, DONE rises and ERRCODE is written (spec/60_exceptions.md R244 to R246). That turns are steps is
the model's choice (log 1); so is which region an access across a border is in (log 9). -/
def Obligations.FlagsChangeOnlyAsSaid : Prop :=
  ∀ s t : State, step s = .next t → (∀ rest, s.inbox ≠ .reset :: rest) →
    let turn := s.inbox = [] ∨ ∃ rest, s.inbox = .engine :: rest
    let cmdWrite := ∃ w rest, s.inbox = .write 0x010 4 w :: rest
    let clears := fun bit => ∃ v rest, s.inbox = .write 0x008 4 v :: rest ∧ v.getLsbD bit = true
    (s.eng.busy = false → (t.eng.busy = true ↔ cmdWrite)) ∧
    (s.eng.busy = true → (t.eng.busy = false ↔ turn)) ∧
    (s.eng.done = false → (t.eng.done = true ↔ s.eng.busy = true ∧ turn)) ∧
    (s.eng.done = true → (t.eng.done = false ↔ clears 1 ∨ (s.eng.busy = false ∧ cmdWrite))) ∧
    (s.eng.overrun = false → (t.eng.overrun = true ↔ s.eng.busy = true ∧ cmdWrite)) ∧
    (s.eng.overrun = true → (t.eng.overrun = false ↔ clears 2)) ∧
    (s.eng.accessErr = false → (t.eng.accessErr = true ↔
      ∃ off w rest, RefusedAccess s off w ∧
        (s.inbox = .read off w :: rest ∨ ∃ v, s.inbox = .write off w v :: rest))) ∧
    (s.eng.accessErr = true → (t.eng.accessErr = false ↔ clears 3)) ∧
    (∀ w rest, s.inbox = .write 0x010 4 w :: rest → s.eng.busy = false → t.eng.cmd = w ∧ t.eng.op = s.regs) ∧
    (s.eng.busy = true → turn →
      (∃ n, t.eng = s.eng.completed n) ∨ ∃ e, e ≠ .ok ∧ t.eng = s.eng.failed e) ∧
    (t.eng.errcode ≠ s.eng.errcode → s.eng.busy = true ∧ turn)

/-- spec/10_state.md R31, R34, R37: the invariant of the machine holds right after reset, in every legal
configuration, the reference one among them (log 4). -/
def Obligations.ResetMeetsTheInvariant : Prop := (∀ g : Cfg, g.Legal → (State.resetOf g).Inv) ∧ State.reset.Inv

/-- spec/10_state.md R31, R34, R37, spec/20_memory.md R64, R65: every step keeps the invariant of the machine. -/
def Obligations.EveryStepKeepsTheInvariant : Prop := ∀ s t : State, s.Inv → step s = .next t → t.Inv
end

