-- ==== Sys2Proof/Laws/Memory.lean ====
section
/-! SUPPORT. The buffer RAM: what a read gives after a write (spec/20_memory.md R64, R65), that every operation keeps
the canonical form and the range, and that the canonical form makes equal memories equal lists. -/

namespace Sys2Proof.Machine

/-! ### Reading after a write -/

theorem readByte_eraseByte (m : Memory) (a x : Nat) :
    readByte (eraseByte a m) x = if x = a then unlistedByte else readByte m x := by
  induction m with
  | nil => simp [eraseByte, readByte]
  | cons c m ih =>
    obtain ⟨k, b⟩ := c
    by_cases hk : k = a
    · rw [eraseByte, if_pos hk, ih]
      by_cases hx : x = a
      · rw [if_pos hx, if_pos hx]
      · rw [if_neg hx, if_neg hx, readByte, if_neg (by omega)]
    · rw [eraseByte, if_neg hk, readByte, readByte, ih]
      by_cases hkx : k = x
      · rw [if_pos hkx, if_neg (by omega), if_pos hkx]
      · simp [hkx]

theorem readByte_insertByte (m : Memory) (a x : Nat) (b : Byte) (h : ∀ c ∈ m, c.1 ≠ a) :
    readByte (insertByte a b m) x = if x = a then b else readByte m x := by
  induction m with
  | nil => by_cases hx : a = x <;> simp [insertByte, readByte, hx, eq_comm]
  | cons c m ih =>
    obtain ⟨k, v⟩ := c
    have hk : k ≠ a := h (k, v) (by simp)
    have ih := ih fun c hc => h c (by simp [hc])
    by_cases hlt : k < a
    · rw [insertByte, if_pos hlt, readByte, readByte, ih]
      by_cases hkx : k = x
      · rw [if_pos hkx, if_neg (by omega), if_pos hkx]
      · simp [hkx]
    · rw [insertByte, if_neg hlt, readByte]
      by_cases hx : x = a
      · rw [if_pos hx.symm, if_pos hx]
      · rw [if_neg (by omega), if_neg hx]

theorem eraseByte_not_mem (m : Memory) (a : Nat) : ∀ c ∈ eraseByte a m, c.1 ≠ a := by
  induction m with
  | nil => simp [eraseByte]
  | cons c m ih =>
    obtain ⟨k, b⟩ := c
    by_cases hk : k = a
    · simpa [eraseByte, hk] using ih
    · intro c hc
      simp only [eraseByte, hk, if_false, List.mem_cons] at hc
      rcases hc with rfl | hc
      · exact hk
      · exact ih c hc

/-- R65: a write changes the byte at its address and no other. -/
theorem readByte_writeByte (m : Memory) (a x : Nat) (b : Byte) :
    readByte (writeByte m a b) x = if x = a then b else readByte m x := by
  unfold writeByte
  split
  · rename_i hb; simp [readByte_eraseByte, hb]
  · rw [readByte_insertByte _ _ _ _ (eraseByte_not_mem m a), readByte_eraseByte]
    by_cases hx : x = a <;> simp [hx]

/-- R65: `MemWrite` sets the bytes of its area and no other. -/
theorem readByte_memWrite (m : Memory) (a x : Nat) (s : Bytes) :
    readByte (memWrite m a s) x = if a ≤ x ∧ x < a + s.length then s.getD (x - a) 0 else readByte m x := by
  induction s generalizing m a with
  | nil => rw [memWrite, if_neg (by simp)]
  | cons b s ih =>
    rw [memWrite, ih, readByte_writeByte, List.length_cons]
    by_cases hx : x = a
    · subst hx
      rw [if_neg (by omega), if_pos rfl, if_pos (by omega), Nat.sub_self, List.getD_cons_zero]
    · by_cases hin : a + 1 ≤ x ∧ x < a + 1 + s.length
      · rw [if_pos hin, if_pos (by omega), show x - a = (x - (a + 1)) + 1 by omega, List.getD_cons_succ]
      · rw [if_neg hin, if_neg hx, if_neg (by omega)]

theorem readByte_memWrite_outside {m : Memory} {a x : Nat} {s : Bytes} (h : x < a ∨ a + s.length ≤ x) :
    readByte (memWrite m a s) x = readByte m x := by
  rw [readByte_memWrite, if_neg (by omega)]

/-! ### `MemRead` -/

@[simp] theorem memRead_length (m : Memory) (a n : Nat) : (memRead m a n).length = n := by
  induction n generalizing a with
  | zero => rfl
  | succ n ih => simp [memRead, ih]

/-- R64: byte i of `MemRead(a, n)` is the byte at a + i. -/
theorem memRead_getD (m : Memory) (a n i : Nat) (h : i < n) : (memRead m a n).getD i 0 = readByte m (a + i) := by
  induction n generalizing a i with
  | zero => omega
  | succ n ih =>
    cases i with
    | zero => simp [memRead]
    | succ i =>
      rw [memRead, List.getD_cons_succ, ih (a + 1) i (by omega)]
      congr 1; omega

theorem memRead_congr {m m' : Memory} {a n : Nat} (h : ∀ i < n, readByte m (a + i) = readByte m' (a + i)) :
    memRead m a n = memRead m' a n := by
  induction n generalizing a with
  | zero => rfl
  | succ n ih =>
    rw [memRead, memRead, ih fun i hi => by rw [show a + 1 + i = a + (i + 1) by omega]; exact h (i + 1) (by omega)]
    rw [show readByte m a = readByte m' a from h 0 (by omega)]

/-- R64, R65: reading an area back gives what was written to it. -/
theorem memRead_memWrite_same (m : Memory) (a : Nat) (s : Bytes) : memRead (memWrite m a s) a s.length = s := by
  apply List.ext_getElem (by simp)
  intro i h1 h2
  have := memRead_getD (memWrite m a s) a s.length i h2
  rw [readByte_memWrite, if_pos (by omega)] at this
  simpa [List.getD_eq_getElem?_getD, List.getElem?_eq_getElem, h1, h2] using this

/-! ### The canonical form and the range -/

theorem memWfFrom_mono {lo lo' : Nat} {m : Memory} (h : memWfFrom lo m = true) (hlo : lo' ≤ lo) :
    memWfFrom lo' m = true := by
  cases m with
  | nil => rfl
  | cons c m =>
    obtain ⟨k, b⟩ := c
    simp only [memWfFrom, Bool.and_eq_true, decide_eq_true_eq] at h ⊢
    exact ⟨⟨hlo.trans h.1.1, h.1.2⟩, h.2⟩

theorem memWfFrom_eraseByte {lo : Nat} {m : Memory} (a : Nat) (h : memWfFrom lo m = true) :
    memWfFrom lo (eraseByte a m) = true := by
  induction m generalizing lo with
  | nil => rfl
  | cons c m ih =>
    obtain ⟨k, b⟩ := c
    simp only [memWfFrom, Bool.and_eq_true, decide_eq_true_eq] at h
    by_cases hk : k = a
    · simp only [eraseByte, hk, if_true]
      exact memWfFrom_mono (ih h.2) (by omega)
    · simp only [eraseByte, hk, if_false, memWfFrom, Bool.and_eq_true, decide_eq_true_eq]
      exact ⟨h.1, ih h.2⟩

theorem memWfFrom_insertByte {lo : Nat} {m : Memory} {a : Nat} {b : Byte} (h : memWfFrom lo m = true)
    (hb : b ≠ unlistedByte) (ha : lo ≤ a) (hm : ∀ c ∈ m, c.1 ≠ a) : memWfFrom lo (insertByte a b m) = true := by
  induction m generalizing lo with
  | nil => simp [insertByte, memWfFrom, ha, hb]
  | cons c m ih =>
    obtain ⟨k, v⟩ := c
    have hk : k ≠ a := hm (k, v) (by simp)
    simp only [memWfFrom, Bool.and_eq_true, decide_eq_true_eq] at h
    by_cases hlt : k < a
    · simp only [insertByte, hlt, if_true, memWfFrom, Bool.and_eq_true, decide_eq_true_eq]
      exact ⟨h.1, ih h.2 hlt fun c hc => hm c (by simp [hc])⟩
    · simp only [insertByte, hlt, if_false, memWfFrom, Bool.and_eq_true, decide_eq_true_eq, bne_iff_ne]
      refine ⟨⟨ha, hb⟩, ⟨by omega, ?_⟩, h.2⟩
      simpa using h.1.2

/-- A byte write keeps the canonical form. -/
theorem writeByte_wf {m : Memory} (a : Nat) (b : Byte) (h : Memory.wf m = true) : Memory.wf (writeByte m a b) = true := by
  unfold Memory.wf writeByte at *
  split
  · exact memWfFrom_eraseByte a h
  · rename_i hb
    exact memWfFrom_insertByte (memWfFrom_eraseByte a h) hb (Nat.zero_le a) (eraseByte_not_mem m a)

/-- `MemWrite` keeps the canonical form. -/
theorem memWrite_wf {m : Memory} (a : Nat) (s : Bytes) (h : Memory.wf m = true) : Memory.wf (memWrite m a s) = true := by
  induction s generalizing m a with
  | nil => exact h
  | cons b s ih => exact ih _ (writeByte_wf a b h)

theorem mem_eraseByte {m : Memory} {a : Nat} {c : Host.Cell} (h : c ∈ eraseByte a m) : c ∈ m := by
  induction m with
  | nil => simp [eraseByte] at h
  | cons d m ih =>
    obtain ⟨k, b⟩ := d
    by_cases hk : k = a
    · simp only [eraseByte, hk, if_true] at h
      exact List.mem_cons_of_mem _ (ih h)
    · simp only [eraseByte, hk, if_false, List.mem_cons] at h ⊢
      exact h.imp id ih

theorem mem_insertByte {m : Memory} {a : Nat} {b : Byte} {c : Host.Cell} (h : c ∈ insertByte a b m) :
    c = (a, b) ∨ c ∈ m := by
  induction m with
  | nil => simpa [insertByte] using h
  | cons d m ih =>
    obtain ⟨k, v⟩ := d
    by_cases hk : k < a
    · simp only [insertByte, hk, if_true, List.mem_cons] at h ⊢
      rcases h with h | h
      · exact .inr (.inl h)
      · exact (ih h).imp id .inr
    · simp only [insertByte, hk, if_false, List.mem_cons] at h ⊢
      exact h

/-- A byte that is listed after a byte write was listed before, or is the one written. -/
theorem mem_writeByte {m : Memory} {a : Nat} {b : Byte} {c : Host.Cell} (h : c ∈ writeByte m a b) :
    c.1 = a ∨ c ∈ m := by
  unfold writeByte at h
  split at h
  · exact .inr (mem_eraseByte h)
  · exact (mem_insertByte h).imp (fun h => by rw [h]) mem_eraseByte

theorem mem_memWrite {m : Memory} {a : Nat} {s : Bytes} {c : Host.Cell} (h : c ∈ memWrite m a s) :
    (a ≤ c.1 ∧ c.1 < a + s.length) ∨ c ∈ m := by
  induction s generalizing m a with
  | nil => exact .inr h
  | cons b s ih =>
    rcases ih h with h | h
    · left; simp; omega
    · exact (mem_writeByte h).imp (fun h => by simp; omega) id

/-- A write inside the RAM keeps the RAM's invariant. -/
theorem memWrite_inv {g : Cfg} {m : Memory} {a : Nat} {s : Bytes} (h : Memory.Inv g m)
    (hr : a + s.length ≤ g.bufSize) : Memory.Inv g (memWrite m a s) where
  wf := memWrite_wf a s h.wf
  in_range c hc := (mem_memWrite hc).elim (fun h => by omega) (h.in_range c)

theorem memory_inv_nil (g : Cfg) : Memory.Inv g [] := ⟨rfl, by simp⟩

theorem readByte_below {lo x : Nat} {m : Memory} (h : memWfFrom lo m = true) (hx : x < lo) :
    readByte m x = unlistedByte := by
  induction m generalizing lo with
  | nil => rfl
  | cons c m ih =>
    obtain ⟨k, b⟩ := c
    simp only [memWfFrom, Bool.and_eq_true, decide_eq_true_eq] at h
    have : ¬ k = x := by omega
    rw [readByte, if_neg this]
    exact ih h.2 (by omega)

theorem memWfFrom_ext {lo : Nat} {m m' : Memory} (h : memWfFrom lo m = true) (h' : memWfFrom lo m' = true)
    (hr : ∀ x, readByte m x = readByte m' x) : m = m' := by
  induction m generalizing lo m' with
  | nil =>
    cases m' with
    | nil => rfl
    | cons c m' =>
      obtain ⟨k, b⟩ := c
      simp only [memWfFrom, Bool.and_eq_true, bne_iff_ne] at h'
      exact absurd (by simpa [readByte] using (hr k).symm) h'.1.2
  | cons c m ih =>
    obtain ⟨k, b⟩ := c
    simp only [memWfFrom, Bool.and_eq_true, decide_eq_true_eq, bne_iff_ne] at h
    have hk : readByte ((k, b) :: m) k = b := by simp [readByte]
    cases m' with
    | nil => exact absurd (by rw [← hk, hr k]; rfl) h.1.2
    | cons c' m' =>
      obtain ⟨k', b'⟩ := c'
      have h'0 := h'
      simp only [memWfFrom, Bool.and_eq_true, decide_eq_true_eq, bne_iff_ne] at h'
      have hk' : readByte ((k', b') :: m') k' = b' := by simp [readByte]
      have e : k = k' := by
        rcases Nat.lt_trichotomy k k' with hlt | heq | hgt
        · exact absurd (by rw [← hk, hr k, readByte, if_neg (by omega)]; exact readByte_below h'.2 (by omega)) h.1.2
        · exact heq
        · exact absurd (by rw [← hk', ← hr k', readByte, if_neg (by omega)]; exact readByte_below h.2 (by omega)) h'.1.2
      subst e
      have eb : b = b' := by rw [← hk, hr k, hk']
      subst eb
      rw [ih h.2 h'.2 fun x => ?_]
      by_cases hx : k = x
      · subst hx; rw [readByte_below h.2 (by omega), readByte_below h'.2 (by omega)]
      · simpa [readByte, hx] using hr x

end Sys2Proof.Machine
end

