-- ==== Sys2Proof/Laws/State.lean ====
section
/-! SUPPORT. What each named update of the state changes, one lemma for each field, by rfl. -/

namespace Sys2Proof.Machine

variable (s : State) (w : Word) (n : Nat) (e : ErrCode) (out : Bytes)

/-! ### accept -/
@[simp] theorem accept_regs : (accept w s).regs = s.regs := rfl
@[simp] theorem accept_ctx : (accept w s).ctx = s.ctx := rfl
@[simp] theorem accept_mac : (accept w s).mac = s.mac := rfl
@[simp] theorem accept_ram : (accept w s).ram = s.ram := rfl
@[simp] theorem accept_eng :
    (accept w s).eng = { s.eng with cmd := w, op := s.regs, busy := true, done := false } := rfl
@[simp] theorem accept_cfg : (accept w s).cfg = s.cfg := rfl
@[simp] theorem accept_inbox : (accept w s).inbox = s.inbox := rfl
@[simp] theorem accept_rdata : (accept w s).rdata = s.rdata := rfl

/-! ### complete -/
@[simp] theorem complete_regs : (complete n s).regs = s.regs := rfl
@[simp] theorem complete_ctx : (complete n s).ctx = s.ctx := rfl
@[simp] theorem complete_mac : (complete n s).mac = s.mac := rfl
@[simp] theorem complete_ram : (complete n s).ram = s.ram := rfl
@[simp] theorem complete_eng : (complete n s).eng =
    { s.eng with resultLen := BitVec.ofNat 32 n, errcode := .ok, busy := false, done := true } := rfl
@[simp] theorem complete_cfg : (complete n s).cfg = s.cfg := rfl
@[simp] theorem complete_inbox : (complete n s).inbox = s.inbox := rfl
@[simp] theorem complete_rdata : (complete n s).rdata = s.rdata := rfl

/-! ### raiseErr -/
@[simp] theorem raiseErr_regs : (raiseErr e s).regs = s.regs := rfl
@[simp] theorem raiseErr_ctx : (raiseErr e s).ctx = s.ctx := rfl
@[simp] theorem raiseErr_mac : (raiseErr e s).mac = s.mac := rfl
@[simp] theorem raiseErr_ram : (raiseErr e s).ram = s.ram := rfl
@[simp] theorem raiseErr_eng : (raiseErr e s).eng =
    { s.eng with resultLen := 0, errcode := e, busy := false, done := true } := rfl
@[simp] theorem raiseErr_cfg : (raiseErr e s).cfg = s.cfg := rfl
@[simp] theorem raiseErr_inbox : (raiseErr e s).inbox = s.inbox := rfl
@[simp] theorem raiseErr_rdata : (raiseErr e s).rdata = s.rdata := rfl

/-! ### zeroizeCtx -/
@[simp] theorem zeroizeCtx_regs : (zeroizeCtx s).regs = s.regs := rfl
@[simp] theorem zeroizeCtx_ctx : (zeroizeCtx s).ctx = CipherCtx.uninit := rfl
@[simp] theorem zeroizeCtx_mac : (zeroizeCtx s).mac = s.mac := rfl
@[simp] theorem zeroizeCtx_ram : (zeroizeCtx s).ram = s.ram := rfl
@[simp] theorem zeroizeCtx_eng : (zeroizeCtx s).eng = s.eng := rfl
@[simp] theorem zeroizeCtx_cfg : (zeroizeCtx s).cfg = s.cfg := rfl
@[simp] theorem zeroizeCtx_inbox : (zeroizeCtx s).inbox = s.inbox := rfl
@[simp] theorem zeroizeCtx_rdata : (zeroizeCtx s).rdata = s.rdata := rfl

/-! ### zeroizeMac -/
@[simp] theorem zeroizeMac_regs : (zeroizeMac s).regs = s.regs := rfl
@[simp] theorem zeroizeMac_ctx : (zeroizeMac s).ctx = s.ctx := rfl
@[simp] theorem zeroizeMac_mac : (zeroizeMac s).mac = MacCtx.unkeyed := rfl
@[simp] theorem zeroizeMac_ram : (zeroizeMac s).ram = s.ram := rfl
@[simp] theorem zeroizeMac_eng : (zeroizeMac s).eng = s.eng := rfl
@[simp] theorem zeroizeMac_cfg : (zeroizeMac s).cfg = s.cfg := rfl
@[simp] theorem zeroizeMac_inbox : (zeroizeMac s).inbox = s.inbox := rfl
@[simp] theorem zeroizeMac_rdata : (zeroizeMac s).rdata = s.rdata := rfl

/-! ### zeroizeRam -/
@[simp] theorem zeroizeRam_regs : (zeroizeRam s).regs = s.regs := rfl
@[simp] theorem zeroizeRam_ctx : (zeroizeRam s).ctx = s.ctx := rfl
@[simp] theorem zeroizeRam_mac : (zeroizeRam s).mac = s.mac := rfl
@[simp] theorem zeroizeRam_ram : (zeroizeRam s).ram = [] := rfl
@[simp] theorem zeroizeRam_eng : (zeroizeRam s).eng = s.eng := rfl
@[simp] theorem zeroizeRam_cfg : (zeroizeRam s).cfg = s.cfg := rfl
@[simp] theorem zeroizeRam_inbox : (zeroizeRam s).inbox = s.inbox := rfl
@[simp] theorem zeroizeRam_rdata : (zeroizeRam s).rdata = s.rdata := rfl

/-! ### storeOut -/
@[simp] theorem storeOut_regs : (storeOut out s).regs = s.regs := rfl
@[simp] theorem storeOut_ctx : (storeOut out s).ctx = s.ctx := rfl
@[simp] theorem storeOut_mac : (storeOut out s).mac = s.mac := rfl
@[simp] theorem storeOut_ram : (storeOut out s).ram = memWrite s.ram s.eng.op.dstAddr.toNat out := rfl
@[simp] theorem storeOut_eng : (storeOut out s).eng = s.eng := rfl
@[simp] theorem storeOut_cfg : (storeOut out s).cfg = s.cfg := rfl
@[simp] theorem storeOut_inbox : (storeOut out s).inbox = s.inbox := rfl
@[simp] theorem storeOut_rdata : (storeOut out s).rdata = s.rdata := rfl

/-! ### clearStatus, writeCtrl, noteRefusal, resetAll, engineNext -/
@[simp] theorem clearStatus_eng : (clearStatus w s).eng = { s.eng with
    done := s.eng.done && !w.getLsbD 1, overrun := s.eng.overrun && !w.getLsbD 2,
    accessErr := s.eng.accessErr && !w.getLsbD 3 } := rfl
@[simp] theorem clearStatus_frame : { clearStatus w s with eng := s.eng } = s := rfl
@[simp] theorem writeCtrl_eng : (writeCtrl w s).eng = { s.eng with ie := w.getLsbD 0 } := rfl
@[simp] theorem writeCtrl_frame : { writeCtrl w s with eng := s.eng } = s := rfl
@[simp] theorem noteRefusal_eng : (noteRefusal s).eng = { s.eng with accessErr := true } := rfl
@[simp] theorem noteRefusal_frame : { noteRefusal s with eng := s.eng } = s := rfl
@[simp] theorem resetAll_eq :
    resetAll s = { State.resetOf s.cfg with inbox := s.inbox, rdata := s.rdata } := rfl
@[simp] theorem engineNext_eq : engineNext s = { s with inbox := .engine :: s.inbox } := rfl

/-! ### The operand registers by name -/
@[simp] theorem get_set_same (r : OpRegs) (v : Word) (n : OpReg) : (r.set v n).get n = v := by cases n <;> rfl
theorem get_set_other (r : OpRegs) (v : Word) (n m : OpReg) (h : m ≠ n) : (r.set v n).get m = r.get m := by
  cases n <;> cases m <;> first | rfl | exact absurd rfl h

end Sys2Proof.Machine
end

