-- ==== Sys2Proof/Laws/Ops.lean ====
section
/-! SUPPORT. What the shared operations do, said once: how a command ends (spec/60_exceptions.md R245, R246, R248), and
the small facts of byte strings, blocks and operand ranges that every family uses. -/

namespace Sys2Proof

/-! ### Byte strings -/

@[simp] theorem zeros_length (n : Nat) : (zeros n).length = n := List.length_replicate

@[simp] theorem zeros_getD (n i : Nat) : (zeros n).getD i 0 = 0 := by
  simp [zeros, List.getD_eq_getElem?_getD, List.getElem?_replicate]; split <;> rfl

theorem xorBytes_length (a b : Bytes) : (xorBytes a b).length = min a.length b.length := by simp [xorBytes]

theorem xorBytes_assoc (a b c : Bytes) : xorBytes (xorBytes a b) c = xorBytes a (xorBytes b c) := by
  induction a generalizing b c with
  | nil => simp [xorBytes]
  | cons x a ih =>
    cases b with
    | nil => simp [xorBytes]
    | cons y b =>
      cases c with
      | nil => simp [xorBytes]
      | cons z c => simpa [xorBytes, BitVec.xor_assoc] using ih b c

@[simp] theorem toVec_getElem (n : Nat) (s : Bytes) (i : Nat) (h : i < n) : (toVec n s)[i] = s.getD i 0 := by
  simp [toVec]

theorem toBlock_getElem (s : Bytes) (i : Nat) (h : i < 16) : (toBlock s)[i] = s.getD i 0 := toVec_getElem 16 s i h

/-- A block's 16 bytes make the block again. -/
@[simp] theorem toBlock_toList (b : Block) : toBlock b.toList = b := by
  ext i h
  simp [toBlock_getElem, List.getD_eq_getElem?_getD, h]

/-- 16 bytes are the bytes of the block they make. -/
theorem toList_toBlock (s : Bytes) (h : s.length = 16) : (toBlock s).toList = s := by
  apply List.ext_getElem
  · simp [h]
  · intro i h1 h2
    simp only [Vector.length_toList] at h1
    simp [toBlock_getElem, List.getD_eq_getElem?_getD, h2]

theorem xorBlock_getElem (a b : Block) (i : Nat) (h : i < 16) : (xorBlock a b)[i] = a[i] ^^^ b[i] := by
  simp [xorBlock]

/-- Masking a block twice with the same block gives it back. -/
@[simp] theorem xorBlock_cancel (a b : Block) : xorBlock (xorBlock a b) b = a := by
  ext i h
  simp [xorBlock_getElem]

/-! ### Parameters -/

theorem hashBytes_length {p : Prims} {g : Cfg} {h : HashAlg} (hg : (g.hashSize h).Legal) (m : Bytes) :
    (hashBytes p g h m).length = (g.hashSize h).digest := by
  have := hg.digest_le; have := hg.block_le
  simp [hashBytes, Cfg.digestSize]; omega

/-- R93: which HALG values select which hash. -/
theorem selectHash_eq_some {g : Cfg} {halg : Nat} {h : HashAlg} :
    g.selectHash halg = some h ↔ halg = h.code ∧ g.halgPresent.getLsbD halg = true := by
  unfold Cfg.selectHash
  match halg with
  | 0 | 1 | 2 | 3 | 4 =>
    cases h <;> simp [HashAlg.ofCode, Cfg.present, HashAlg.code]
  | n + 5 => cases h <;> simp [HashAlg.ofCode, HashAlg.code]

theorem selectHash_eq_none {g : Cfg} {halg : Nat} :
    g.selectHash halg = none ↔ 4 < halg ∨ g.halgPresent.getLsbD halg = false := by
  unfold Cfg.selectHash
  match halg with
  | 0 | 1 | 2 | 3 | 4 => simp [HashAlg.ofCode, Cfg.present, HashAlg.code]
  | n + 5 => simp [HashAlg.ofCode]

@[simp] theorem inRange_iff (g : Cfg) (a n : Nat) : g.inRange a n = true ↔ a + n ≤ g.bufSize := by simp [Cfg.inRange]

theorem inRange_false_iff (g : Cfg) (a n : Nat) : g.inRange a n = false ↔ g.bufSize < a + n := by simp [Cfg.inRange]

namespace Machine

theorem dataInRange_iff (s : State) : (srcInRange s && dstInRange s) = true ↔ DataInRange s := by
  simp [srcInRange, dstInRange, DataInRange]

@[simp] theorem srcBytes_length (s : State) : (srcBytes s).length = s.eng.op.srcLen.toNat := memRead_length ..
@[simp] theorem keyBytes_length (s : State) : (keyBytes s).length = s.eng.op.keyLen.toNat := memRead_length ..
@[simp] theorem auxBytes_length (s : State) : (auxBytes s).length = s.eng.op.auxLen.toNat := memRead_length ..

/-! ### The frame relations -/

theorem RamSame.refl (s : State) : RamSame s s := fun _ => rfl

theorem RamSame.of_eq {s t : State} (h : t.ram = s.ram) : RamSame s t := fun x => by rw [h]

/-- Storing a string leaves its bytes in place. -/
theorem ramHolds_memWrite {t : State} {m : Memory} {a : Nat} {out : Bytes} (h : t.ram = memWrite m a out) :
    RamHolds t a out := fun i hi => by
  rw [h, readByte_memWrite, if_pos (by omega), Nat.add_sub_cancel_left]

/-- Storing a string leaves every byte outside it. -/
theorem ramSameOutside_memWrite {s t : State} {a : Nat} {out : Bytes} (h : t.ram = memWrite s.ram a out) :
    RamSameOutside s t a out.length := fun x hx => by rw [h, readByte_memWrite_outside hx]

/-! ### How a command ends -/

/-- What a command that ends OK leaves: its output in RAM and nothing else there, and a completed engine. -/
structure EndsOk (s t : State) (out : Bytes) : Prop where
  holds : RamHolds t s.eng.op.dstAddr.toNat out
  outside : RamSameOutside s t s.eng.op.dstAddr.toNat out.length
  eng : t.eng = s.eng.completed out.length
  rest : SameRest s t

/-- What a command that ends with an error leaves of RAM and engine. -/
structure EndsIn (s t : State) (e : ErrCode) : Prop where
  ram : t.ram = s.ram
  eng : t.eng = s.eng.failed e
  rest : SameRest s t

theorem EndsIn.ramSame {s t : State} {e : ErrCode} (h : EndsIn s t e) : RamSame s t := .of_eq h.ram

/-- With no output, RAM is as before. -/
theorem EndsOk.ramSame {s t : State} (h : EndsOk s t []) : RamSame s t := fun x => h.outside x (by simp; omega)

theorem finishCipher_ok (s : State) (c : CipherCtx) (out : Bytes) :
    EndsOk s (finishCipher s (.ok (c, out))) out ∧ (finishCipher s (.ok (c, out))).ctx = c ∧
      (finishCipher s (.ok (c, out))).mac = s.mac :=
  ⟨⟨ramHolds_memWrite rfl, ramSameOutside_memWrite rfl, rfl, rfl, rfl, rfl, rfl⟩, rfl, rfl⟩

theorem finishCipher_error (s : State) (e : ErrCode) :
    EndsIn s (finishCipher s (.error e)) e ∧ (finishCipher s (.error e)).ctx = CipherCtx.uninit ∧
      (finishCipher s (.error e)).mac = s.mac :=
  ⟨⟨rfl, rfl, rfl, rfl, rfl, rfl⟩, rfl, rfl⟩

theorem finishMac_ok (s : State) (m : MacCtx) (out : Bytes) :
    EndsOk s (finishMac s (.ok (m, out))) out ∧ (finishMac s (.ok (m, out))).mac = m ∧
      (finishMac s (.ok (m, out))).ctx = s.ctx :=
  ⟨⟨ramHolds_memWrite rfl, ramSameOutside_memWrite rfl, rfl, rfl, rfl, rfl, rfl⟩, rfl, rfl⟩

theorem finishMac_error (s : State) (e : ErrCode) :
    EndsIn s (finishMac s (.error e)) e ∧ (finishMac s (.error e)).mac = MacCtx.unkeyed ∧
      (finishMac s (.error e)).ctx = s.ctx :=
  ⟨⟨rfl, rfl, rfl, rfl, rfl, rfl⟩, rfl, rfl⟩

theorem finishSystem_ok (s : State) (out : Bytes) :
    EndsOk s (finishSystem s (.ok out)) out ∧ (finishSystem s (.ok out)).ctx = s.ctx ∧
      (finishSystem s (.ok out)).mac = s.mac :=
  ⟨⟨ramHolds_memWrite rfl, ramSameOutside_memWrite rfl, rfl, rfl, rfl, rfl, rfl⟩, rfl, rfl⟩

theorem finishSystem_error (s : State) (e : ErrCode) :
    EndsIn s (finishSystem s (.error e)) e ∧ (finishSystem s (.error e)).ctx = s.ctx ∧
      (finishSystem s (.error e)).mac = s.mac :=
  ⟨⟨rfl, rfl, rfl, rfl, rfl, rfl⟩, rfl, rfl⟩

end Machine
end Sys2Proof
end

