-- ==== Sys2Proof/Laws/Cipher.lean ====
section
/-! SUPPORT. What the transforms of the cipher unit do, said once (spec/42_cipher.md R162, R170, R177, R178, R181,
R183, R184): their lengths, what they leave of the context, and how they act on a string in two parts. -/

namespace Sys2Proof.Machine

/-! ### Contexts with one field replaced -/

section Replaced
variable (c : CipherCtx) (r q : Bytes) (v w : Block)

@[simp] theorem holding_cstate : (c.holding r).cstate = c.cstate := rfl
@[simp] theorem holding_mode : (c.holding r).mode = c.mode := rfl
@[simp] theorem holding_ksz : (c.holding r).ksz = c.ksz := rfl
@[simp] theorem holding_dir : (c.holding r).dir = c.dir := rfl
@[simp] theorem holding_pad : (c.holding r).pad = c.pad := rfl
@[simp] theorem holding_key : (c.holding r).key = c.key := rfl
@[simp] theorem holding_oiv : (c.holding r).oiv = c.oiv := rfl
@[simp] theorem holding_civ : (c.holding r).civ = c.civ := rfl
@[simp] theorem holding_ks : (c.holding r).ks = c.ks := rfl
@[simp] theorem holding_off : (c.holding r).off = c.off := rfl
@[simp] theorem holding_res : (c.holding r).res = r := rfl
@[simp] theorem holding_holding : (c.holding r).holding q = c.holding q := rfl
@[simp] theorem chained_cstate : (c.chained v).cstate = c.cstate := rfl
@[simp] theorem chained_mode : (c.chained v).mode = c.mode := rfl
@[simp] theorem chained_ksz : (c.chained v).ksz = c.ksz := rfl
@[simp] theorem chained_dir : (c.chained v).dir = c.dir := rfl
@[simp] theorem chained_pad : (c.chained v).pad = c.pad := rfl
@[simp] theorem chained_key : (c.chained v).key = c.key := rfl
@[simp] theorem chained_oiv : (c.chained v).oiv = c.oiv := rfl
@[simp] theorem chained_civ : (c.chained v).civ = v := rfl
@[simp] theorem chained_ks : (c.chained v).ks = c.ks := rfl
@[simp] theorem chained_off : (c.chained v).off = c.off := rfl
@[simp] theorem chained_res : (c.chained v).res = c.res := rfl
@[simp] theorem chained_chained : (c.chained v).chained w = c.chained w := rfl
@[simp] theorem chained_self : c.chained c.civ = c := rfl
@[simp] theorem holding_self : c.holding c.res = c := rfl
@[simp] theorem holding_chained : (c.holding r).chained v = (c.chained v).holding r := rfl

end Replaced

/-! ### Block modes -/

theorem blockMapFrom_length (p : Prims) (c : CipherCtx) (m : Nat) (civ : Block) (s : Bytes) :
    (blockMapFrom p c m civ s).1.length = 16 * m := by
  induction m generalizing civ s with
  | zero => rfl
  | succ m ih => simp [blockMapFrom, ih]; omega

theorem blockMap_length {p : Prims} {c : CipherCtx} {s : Bytes} (h : s.length % 16 = 0) :
    (blockMap p c s).1.length = s.length := by
  rw [blockMap, blockMapFrom_length]; omega

/-- Only the first `16 m` bytes matter. -/
theorem blockMapFrom_take (p : Prims) (c : CipherCtx) (m : Nat) (civ : Block) (s t : Bytes) (h : s.length = 16 * m) :
    blockMapFrom p c m civ (s ++ t) = blockMapFrom p c m civ s := by
  induction m generalizing civ s with
  | zero => rfl
  | succ m ih =>
    have h1 : (s ++ t).take 16 = s.take 16 := by rw [List.take_append_of_le_length (by omega)]
    have h2 : (s ++ t).drop 16 = s.drop 16 ++ t := by rw [List.drop_append_of_le_length (by omega)]
    simp only [blockMapFrom, h1, h2]
    rw [ih _ (s.drop 16) (by simp; omega)]

/-- R162: the blocks of a string in two parts are those of the first, then those of the second from where it ends. -/
theorem blockMapFrom_append (p : Prims) (c : CipherCtx) (m n : Nat) (civ : Block) (s t : Bytes)
    (h : s.length = 16 * m) :
    blockMapFrom p c (m + n) civ (s ++ t) =
      ((blockMapFrom p c m civ s).1 ++ (blockMapFrom p c n (blockMapFrom p c m civ s).2 t).1,
        (blockMapFrom p c n (blockMapFrom p c m civ s).2 t).2) := by
  induction m generalizing civ s with
  | zero =>
    obtain rfl : s = [] := List.length_eq_zero_iff.mp (by simpa using h)
    simp [blockMapFrom]
  | succ m ih =>
    have h1 : (s ++ t).take 16 = s.take 16 := by rw [List.take_append_of_le_length (by omega)]
    have h2 : (s ++ t).drop 16 = s.drop 16 ++ t := by rw [List.drop_append_of_le_length (by omega)]
    rw [show m + 1 + n = (m + n) + 1 by omega]
    simp only [blockMapFrom, h1, h2]
    rw [ih _ (s.drop 16) (by simp; omega)]
    simp

/-- Of the context, the blocks read the mode, the direction and the key only. -/
theorem blockMapFrom_congr (p : Prims) {c d : CipherCtx} (hm : d.mode = c.mode) (hd : d.dir = c.dir)
    (hk : d.ksz = c.ksz) (hkey : d.key = c.key) (m : Nat) (civ : Block) (s : Bytes) :
    blockMapFrom p d m civ s = blockMapFrom p c m civ s := by
  have hs : blockStep p d = blockStep p c := by
    funext v b
    simp only [blockStep, encBlock, decBlock, CipherCtx.keyString, hm, hd, hk, hkey]
  induction m generalizing civ s with
  | zero => rfl
  | succ m ih => simp only [blockMapFrom, hs, ih]

theorem blockMap_append (p : Prims) (c : CipherCtx) (s t : Bytes) (h : s.length % 16 = 0) :
    blockMap p c (s ++ t) = ((blockMap p c s).1 ++ (blockMap p (c.chained (blockMap p c s).2) t).1,
      (blockMap p (c.chained (blockMap p c s).2) t).2) := by
  have e : (s ++ t).length / 16 = s.length / 16 + t.length / 16 := by rw [List.length_append]; omega
  have hc : ∀ v m y, blockMapFrom p (c.chained v) m v y = blockMapFrom p c m v y := fun v m y =>
    blockMapFrom_congr p (c := c) (d := c.chained v) rfl rfl rfl rfl m v y
  simp only [blockMap, e, chained_civ, hc]
  exact blockMapFrom_append _ _ _ _ _ _ _ (by omega)

@[simp] theorem blockMap_holding (p : Prims) (c : CipherCtx) (r s : Bytes) :
    blockMap p (c.holding r) s = blockMap p c s :=
  blockMapFrom_congr p (c := c) (d := c.holding r) rfl rfl rfl rfl _ _ _

/-- R163: ECB does not move the chaining value. -/
theorem blockMap_ecb_civ {p : Prims} {c : CipherCtx} (s : Bytes) (h : c.mode = .ecb) : (blockMap p c s).2 = c.civ := by
  have : ∀ m civ s, (blockMapFrom p c m civ s).2 = civ := by
    intro m
    induction m with
    | zero => intros; rfl
    | succ m ih =>
      intro civ s
      simp only [blockMapFrom, ih, blockStep, h]
      cases c.dir <;> rfl
  exact this _ _ _

/-! ### Stream modes -/

/-- What a byte of a stream mode leaves: all but the chaining value, the keystream block and the offset, which moves
on. -/
theorem streamByte_frame (p : Prims) (c : CipherCtx) (x : Byte) :
    (streamByte p c x).2.cstate = c.cstate ∧ (streamByte p c x).2.mode = c.mode ∧ (streamByte p c x).2.ksz = c.ksz ∧
    (streamByte p c x).2.dir = c.dir ∧ (streamByte p c x).2.pad = c.pad ∧ (streamByte p c x).2.key = c.key ∧
    (streamByte p c x).2.oiv = c.oiv ∧ (streamByte p c x).2.res = c.res ∧
    (streamByte p c x).2.off = c.off + 1 := by
  have hr : (refill p c).cstate = c.cstate ∧ (refill p c).mode = c.mode ∧ (refill p c).ksz = c.ksz ∧
      (refill p c).dir = c.dir ∧ (refill p c).pad = c.pad ∧ (refill p c).key = c.key ∧ (refill p c).oiv = c.oiv ∧
      (refill p c).res = c.res ∧ (refill p c).off = c.off := by
    unfold refill; split
    · split <;> simp
    · simp
  have hf : ∀ d y, (feedback d x y).cstate = d.cstate ∧ (feedback d x y).mode = d.mode ∧ (feedback d x y).ksz = d.ksz ∧
      (feedback d x y).dir = d.dir ∧ (feedback d x y).pad = d.pad ∧ (feedback d x y).key = d.key ∧
      (feedback d x y).oiv = d.oiv ∧ (feedback d x y).res = d.res ∧ (feedback d x y).off = d.off := by
    intro d y; unfold feedback; split <;> simp
  simp [streamByte, hf, hr]

theorem streamMap_frame (p : Prims) (c : CipherCtx) (s : Bytes) :
    (streamMap p c s).2.cstate = c.cstate ∧ (streamMap p c s).2.mode = c.mode ∧ (streamMap p c s).2.ksz = c.ksz ∧
    (streamMap p c s).2.dir = c.dir ∧ (streamMap p c s).2.pad = c.pad ∧ (streamMap p c s).2.key = c.key ∧
    (streamMap p c s).2.oiv = c.oiv ∧ (streamMap p c s).2.res = c.res := by
  induction s generalizing c with
  | nil => simp [streamMap]
  | cons x s ih =>
    obtain ⟨h1, h2, h3, h4, h5, h6, h7, h8⟩ := ih (streamByte p c x).2
    obtain ⟨g1, g2, g3, g4, g5, g6, g7, g8, -⟩ := streamByte_frame p c x
    simp only [streamMap]
    exact ⟨h1.trans g1, h2.trans g2, h3.trans g3, h4.trans g4, h5.trans g5, h6.trans g6, h7.trans g7, h8.trans g8⟩

/-- R170: of the context, the bytes move the chaining value, the keystream block and the offset. -/
theorem streamMap_ctx (p : Prims) (c : CipherCtx) (s : Bytes) :
    (streamMap p c s).2 = { c with
      civ := (streamMap p c s).2.civ, ks := (streamMap p c s).2.ks, off := (streamMap p c s).2.off } := by
  obtain ⟨h1, h2, h3, h4, h5, h6, h7, h8⟩ := streamMap_frame p c s
  rw [← h1, ← h2, ← h3, ← h4, ← h5, ← h6, ← h7, ← h8]

@[simp] theorem streamMap_length (p : Prims) (c : CipherCtx) (s : Bytes) : (streamMap p c s).1.length = s.length := by
  induction s generalizing c with
  | nil => rfl
  | cons x s ih => simp [streamMap, ih]

/-- R174: the offset counts the bytes, modulo 16. -/
theorem streamMap_off (p : Prims) (c : CipherCtx) (s : Bytes) :
    (streamMap p c s).2.off.val = (c.off.val + s.length) % 16 := by
  induction s generalizing c with
  | nil => simp [streamMap]; omega
  | cons x s ih =>
    obtain ⟨-, -, -, -, -, -, -, -, h⟩ := streamByte_frame p c x
    simp only [streamMap, ih, h, List.length_cons, Fin.val_add]
    simp; omega

/-- R170: the bytes of a string in two parts are those of the first, then those of the second from where it ends. -/
theorem streamMap_append (p : Prims) (c : CipherCtx) (s t : Bytes) :
    streamMap p c (s ++ t) = ((streamMap p c s).1 ++ (streamMap p (streamMap p c s).2 t).1,
      (streamMap p (streamMap p c s).2 t).2) := by
  induction s generalizing c with
  | nil => simp [streamMap]
  | cons x s ih => simp [streamMap, ih]

/-- The held bytes are not read. -/
@[simp] theorem streamMap_holding (p : Prims) (c : CipherCtx) (r s : Bytes) :
    streamMap p (c.holding r) s = ((streamMap p c s).1, (streamMap p c s).2.holding r) := by
  have hb : ∀ (c : CipherCtx) x, streamByte p (c.holding r) x =
      ((streamByte p c x).1, (streamByte p c x).2.holding r) := by
    intro c x
    have h1 : refill p (c.holding r) = (refill p c).holding r := by
      unfold refill
      by_cases h0 : c.off = 0
      · rw [if_pos h0, if_pos (show (c.holding r).off = 0 from h0), holding_mode]
        cases c.mode <;> rfl
      · rw [if_neg h0, if_neg (show ¬(c.holding r).off = 0 from h0)]
    have h2 : ∀ (d : CipherCtx) y, feedback (d.holding r) x y = (feedback d x y).holding r := by
      intro d y
      unfold feedback
      rw [holding_mode, holding_dir]
      cases d.mode <;> cases d.dir <;> rfl
    simp only [streamByte, h1, h2]
    rfl
  induction s generalizing c with
  | nil => simp [streamMap]
  | cons x s ih => simp [streamMap, hb, ih]

/-! ### Padding -/

@[simp] theorem padBytes_length (n : Nat) : (padBytes n).length = padLength n := by simp [padBytes]

theorem padLength_bounds (n : Nat) : 1 ≤ padLength n ∧ padLength n ≤ 16 ∧ (n + padLength n) % 16 = 0 := by
  unfold padLength; omega

/-- R178: what a valid pad is. -/
theorem validPad_iff (s : Bytes) :
    validPad s = true ↔ ∃ r n, 1 ≤ n ∧ n ≤ 16 ∧ s = r ++ List.replicate n (BitVec.ofNat 8 n) := by
  constructor
  · intro h
    simp only [validPad, Bool.and_eq_true, decide_eq_true_eq, beq_iff_eq] at h
    obtain ⟨⟨⟨h1, h2⟩, h3⟩, h4⟩ := h
    refine ⟨s.take (s.length - lastPad s), lastPad s, h1, h2, ?_⟩
    rw [← h4, List.take_append_drop]
  · rintro ⟨r, n, h1, h2, rfl⟩
    have hl : lastPad (r ++ List.replicate n (BitVec.ofNat 8 n)) = n := by
      obtain ⟨m, rfl⟩ : ∃ m, n = m + 1 := ⟨n - 1, by omega⟩
      rw [lastPad, List.replicate_succ', ← List.append_assoc]
      simp; omega
    simp [validPad, hl, h1, h2]

/-- R178: a valid pad comes off. -/
theorem depad_append {r : Bytes} {n : Nat} (h1 : 1 ≤ n) (h2 : n ≤ 16) :
    depad (r ++ List.replicate n (BitVec.ofNat 8 n)) = .ok r := by
  have hl : lastPad (r ++ List.replicate n (BitVec.ofNat 8 n)) = n := by
    obtain ⟨m, rfl⟩ : ∃ m, n = m + 1 := ⟨n - 1, by omega⟩
    rw [lastPad, List.replicate_succ', ← List.append_assoc]
    simp; omega
  rw [depad, if_pos ((validPad_iff _).mpr ⟨r, n, h1, h2, rfl⟩), hl]
  simp

/-- R178: any other string raises InvalidPadding. -/
theorem depad_error {s : Bytes} (h : ∀ r n, 1 ≤ n → n ≤ 16 → s ≠ r ++ List.replicate n (BitVec.ofNat 8 n)) :
    depad s = .error .invalidPadding := by
  rw [depad, if_neg]
  intro hv
  obtain ⟨r, n, h1, h2, e⟩ := (validPad_iff s).mp hv
  exact h r n h1 h2 e

theorem depad_padBytes (r : Bytes) (n : Nat) : depad (r ++ padBytes n) = .ok r :=
  depad_append (padLength_bounds n).1 (padLength_bounds n).2.1

theorem depad_ok_inv {s r : Bytes} (h : depad s = .ok r) :
    ∃ n, 1 ≤ n ∧ n ≤ 16 ∧ s = r ++ List.replicate n (BitVec.ofNat 8 n) := by
  by_cases hv : validPad s = true
  · obtain ⟨r', n, h1, h2, e⟩ := (validPad_iff s).mp hv
    rw [e, depad_append h1 h2] at h
    cases h; exact ⟨n, h1, h2, e⟩
  · rw [depad, if_neg hv] at h; cases h

/-- R178: the error of `depad` is InvalidPadding and no other. -/
theorem depad_error_inv {s : Bytes} {e : ErrCode} (h : depad s = .error e) : e = .invalidPadding := by
  rw [depad] at h; split at h <;> cases h; rfl

/-! ### Chunks -/

/-- R183: the final data is padded in an encryption with padding, else it must be whole blocks. -/
theorem blockFinalData_cases (c : CipherCtx) (data : Bytes) :
    (c.dir = .enc ∧ c.pad = true ∧ blockFinalData c data = .ok (data ++ padBytes data.length)) ∨
    (¬(c.dir = .enc ∧ c.pad = true) ∧ data.length % 16 ≠ 0 ∧
      blockFinalData c data = .error .invalidParameters) ∨
    (¬(c.dir = .enc ∧ c.pad = true) ∧ data.length % 16 = 0 ∧ blockFinalData c data = .ok data) := by
  by_cases hm : data.length % 16 = 0 <;> rcases hd : c.dir <;> rcases hp : c.pad <;>
    simp [blockFinalData, hd, hp, hm]

/-- The data of the final chunk is whole blocks. -/
theorem blockFinalData_length {c : CipherCtx} {data d : Bytes} (h : blockFinalData c data = .ok d) :
    d.length % 16 = 0 := by
  rcases blockFinalData_cases c data with ⟨-, -, e⟩ | ⟨-, -, e⟩ | ⟨-, hm, e⟩
  · rw [e] at h; cases h
    have := (padLength_bounds data.length).2.2
    simpa using this
  · rw [e] at h; cases h
  · rw [e] at h; cases h; exact hm

/-- R183: what a final chunk of a block mode gives, when it does not fail. -/
theorem blockFinal_ok_inv {p : Prims} {c : CipherCtx} {x out : Bytes} {c' : CipherCtx}
    (h : blockFinal p c x = .ok (out, c')) :
    ∃ data, blockFinalData c (c.res ++ x) = .ok data ∧ finalOut c (blockMap p c data).1 = .ok out ∧
      c' = (c.chained (blockMap p c data).2).holding [] := by
  unfold blockFinal at h
  split at h
  · cases h
  · rename_i data hd
    simp only at h
    split at h
    · cases h
    · rename_i o ho
      cases h
      exact ⟨data, hd, ho, rfl⟩

/-- R181: no more blocks than there are. -/
theorem blocksNow_le (c : CipherCtx) (n : Nat) : 16 * blocksNow c n ≤ n := by
  unfold blocksNow; split <;> omega

/-- R179: only a decryption with padding removes a pad. -/
theorem finalOut_eq (c : CipherCtx) (out : Bytes) :
    finalOut c out = if c.dir = .dec ∧ c.pad = true then depad out else .ok out := by
  unfold finalOut; rcases c.dir <;> rcases c.pad <;> simp

/-- R184: a non-final chunk of a decryption with padding holds its last bytes back. -/
theorem streamUpdate_holds {c : CipherCtx} (p : Prims) (x : Bytes) (hd : c.dir = .dec) (hp : c.pad = true) :
    streamUpdate p c x =
      ((c.res ++ (streamMap p c x).1).take (releaseNow (c.res.length + x.length)),
        (streamMap p c x).2.holding
          ((c.res ++ (streamMap p c x).1).drop (releaseNow (c.res.length + x.length)))) := by
  unfold streamUpdate; rw [hd, hp]; simp

/-- R184: any other non-final chunk gives every byte. -/
theorem streamUpdate_all {c : CipherCtx} (p : Prims) (x : Bytes) (h : ¬(c.dir = .dec ∧ c.pad = true)) :
    streamUpdate p c x = ((streamMap p c x).1, (streamMap p c x).2.holding []) := by
  unfold streamUpdate
  rcases hd : c.dir <;> rcases hp : c.pad <;> first | rfl | exact absurd ⟨hd, hp⟩ h

/-- R184: the final chunk of a decryption with padding. -/
theorem streamFinal_depads {c : CipherCtx} (p : Prims) (x : Bytes) (hd : c.dir = .dec) (hp : c.pad = true) :
    streamFinal p c x = (depad (c.res ++ (streamMap p c x).1)).map fun out =>
      (out, (streamMap p c x).2.holding []) := by
  unfold streamFinal
  rw [hd, hp]
  rcases h : depad (c.res ++ (streamMap p c x).1) <;> simp [h, Except.map]

/-- R184: the final chunk of an encryption with padding. -/
theorem streamFinal_pads {c : CipherCtx} (p : Prims) (x : Bytes) (hd : c.dir = .enc) (hp : c.pad = true) :
    streamFinal p c x = .ok ((streamMap p c (x ++ padBytes (c.off.val + x.length))).1,
      (streamMap p c (x ++ padBytes (c.off.val + x.length))).2.holding []) := by
  unfold streamFinal; rw [hd, hp]

/-- R184: the final chunk without padding. -/
theorem streamFinal_plain {c : CipherCtx} (p : Prims) (x : Bytes) (hp : c.pad = false) :
    streamFinal p c x = .ok ((streamMap p c x).1, (streamMap p c x).2.holding []) := by
  unfold streamFinal; rw [hp]; rcases c.dir <;> rfl

/-! ### Chunk commands -/

/-- R180: how CIPHER_UPDATE and CIPHER_FINAL end: one of the two checks, an error of the transform, too small a
capacity, or OK. -/
theorem chunkResult_cases (p : Prims) (final : Bool) (s : State) :
    (s.ctx.cstate ≠ .active ∧ chunkResult p final s = .error .invalidState) ∨
    (s.ctx.cstate = .active ∧ ¬DataInRange s ∧ chunkResult p final s = .error .invalidParameters) ∨
    (s.ctx.cstate = .active ∧ DataInRange s ∧
      ((∃ e, chunk p final s.ctx (srcBytes s) = .error e ∧ chunkResult p final s = .error e) ∨
       (∃ out c, chunk p final s.ctx (srcBytes s) = .ok (out, c) ∧ s.eng.op.dstCap.toNat < out.length ∧
         chunkResult p final s = .error .bufferTooSmall) ∨
       (∃ out c, chunk p final s.ctx (srcBytes s) = .ok (out, c) ∧ out.length ≤ s.eng.op.dstCap.toNat ∧
         chunkResult p final s = .ok (settleCtx final c, out)))) := by
  by_cases h1 : s.ctx.cstate = .active
  · by_cases h2 : DataInRange s
    · refine .inr (.inr ⟨h1, h2, ?_⟩)
      have h2' := (dataInRange_iff s).mpr h2
      rcases hc : chunk p final s.ctx (srcBytes s) with e | ⟨out, c⟩
      · exact .inl ⟨e, rfl, by simp [chunkResult, h1, h2', hc]⟩
      · by_cases h3 : s.eng.op.dstCap.toNat < out.length
        · exact .inr (.inl ⟨out, c, rfl, h3, by simp [chunkResult, h1, h2', hc, h3]⟩)
        · exact .inr (.inr ⟨out, c, rfl, by omega, by simp [chunkResult, h1, h2', hc, h3]⟩)
    · have h2' : (srcInRange s && dstInRange s) = false := by
        rw [Bool.eq_false_iff]; exact fun h => h2 ((dataInRange_iff s).mp h)
      exact .inr (.inl ⟨h1, h2, by simp [chunkResult, h1, h2']⟩)
  · exact .inl ⟨h1, by simp [chunkResult, h1]⟩

end Sys2Proof.Machine
end

