-- ==== Sys2Proof/Laws/PerInstr.lean ====
section
/-! SUPPORT. Facts about each command as a term, one lemma for each constructor of Instr (spec/30_encoding.md R99). -/

namespace Sys2Proof.Laws

/-- The word of the command selects the command's own row of the opcode map, and that row is in the map. -/
def RowMatch.Statement (i : Instr) : Prop :=
  WellFormed i → encode i &&& rowMask i = rowMatch i ∧ (rowMatch i, rowMask i) ∈ opcodeMap

theorem RowMatch.nop : RowMatch.Statement .nop := fun _ => by decide

theorem RowMatch.cipherInit (mode ksz : Nat) (dir : Dir) (pad : Bool) :
    RowMatch.Statement (.cipherInit mode ksz dir pad) := fun h => by
  simp only [WellFormed, wellFormed, modeFits, kszFits, Bool.and_eq_true, decide_eq_true_eq] at h
  obtain ⟨hm, hk⟩ := h
  cases dir <;> cases pad <;> interval_cases mode <;> interval_cases ksz <;> decide

theorem RowMatch.cipherUpdate : RowMatch.Statement .cipherUpdate := fun _ => by decide

theorem RowMatch.cipherFinal : RowMatch.Statement .cipherFinal := fun _ => by decide

theorem RowMatch.cipherClean : RowMatch.Statement .cipherClean := fun _ => by decide

theorem RowMatch.macSetkey (halg : Nat) : RowMatch.Statement (.macSetkey halg) := fun h => by
  simp only [WellFormed, wellFormed, halgFits, decide_eq_true_eq] at h
  interval_cases halg <;> decide

theorem RowMatch.macCompute : RowMatch.Statement .macCompute := fun _ => by decide

theorem RowMatch.macClean : RowMatch.Statement .macClean := fun _ => by decide

theorem RowMatch.kdfDerive (halg : Nat) : RowMatch.Statement (.kdfDerive halg) := fun h => by
  simp only [WellFormed, wellFormed, halgFits, decide_eq_true_eq] at h
  interval_cases halg <;> decide

theorem RowMatch.bufZero : RowMatch.Statement .bufZero := fun _ => by decide

theorem RowMatch.zeroizeAll : RowMatch.Statement .zeroizeAll := fun _ => by decide

end Sys2Proof.Laws
end

