-- ==== Sys2Proof/Laws/Port.lean ====
section
/-! SUPPORT. What a host access can do (spec/20_memory.md R61, R62, R68), and which offsets name which register
(spec/10_state.md R29). -/

namespace Sys2Proof.Machine

/-! ### Offsets -/

theorem regionOf_registers {g : Cfg} {off : HostOffset} (h : off.toNat < 0x1000) : regionOf g off = .registers := by
  simp [regionOf, h]

theorem regionOf_ram {g : Cfg} {off : HostOffset} {a : Nat} (h : off.toNat = ramBase + a) (ha : a < g.bufSize) :
    regionOf g off = .ram a := by
  simp only [ramBase] at h
  simp [regionOf, ramBase, h, ha]
  omega

theorem regionOf_reserved {g : Cfg} {off : HostOffset}
    (h : (0x1000 ≤ off.toNat ∧ off.toNat < ramBase) ∨ ramBase + g.bufSize ≤ off.toNat) :
    regionOf g off = .reserved := by
  have hb : ramBase = 0x100000 := rfl
  unfold regionOf
  by_cases h2 : off.toNat < ramBase
  · rw [if_neg (by omega), if_pos h2]
  · rw [if_neg (by omega), if_neg h2, if_neg (by omega)]

/-- The window holds the offsets from RAM_BASE on, one for each byte of RAM. -/
theorem regionOf_eq_ram {g : Cfg} {off : HostOffset} {a : Nat} (h : regionOf g off = .ram a) :
    off.toNat = ramBase + a ∧ a < g.bufSize := by
  unfold regionOf at h
  by_cases h1 : off.toNat < 0x1000
  · simp [h1] at h
  · by_cases h2 : off.toNat < ramBase
    · simp [h1, h2] at h
    · by_cases h3 : off.toNat < ramBase + g.bufSize
      · simp [h1, h2, h3] at h; omega
      · simp [h1, h2, h3] at h

theorem regionOf_eq_registers {g : Cfg} {off : HostOffset} (h : regionOf g off = .registers) : off.toNat < 0x1000 := by
  unfold regionOf at h
  by_cases h1 : off.toNat < 0x1000
  · exact h1
  · by_cases h2 : off.toNat < ramBase
    · simp [h1, h2] at h
    · by_cases h3 : off.toNat < ramBase + g.bufSize <;> simp [h1, h2, h3] at h

theorem regAt_eq_status {n : Nat} (h : regAt n = .status) : n = 0x008 := by
  unfold regAt at h; split at h <;> first | rfl | cases h

theorem regAt_eq_ctrl {n : Nat} (h : regAt n = .ctrl) : n = 0x00C := by
  unfold regAt at h; split at h <;> first | rfl | cases h

theorem regAt_eq_cmd {n : Nat} (h : regAt n = .cmd) : n = 0x010 := by
  unfold regAt at h; split at h <;> first | rfl | cases h

theorem regAt_eq_operand {n : Nat} {r : OpReg} (h : regAt n = .operand r) : 0x020 ≤ n ∧ n ≤ 0x044 := by
  unfold regAt at h; split at h <;> first | decide | cases h

theorem regAt_reserved {n : Nat} (h : 0x048 ≤ n) : regAt n = .reserved := by
  unfold regAt; split <;> first | omega | rfl

/-! ### Refused accesses -/

/-- R68: the machine refuses the accesses that the rule names. -/
theorem refused_iff (s : State) (off : HostOffset) (w : Nat) : refused s off w = true ↔ RefusedAccess s off w := by
  have hb : ramBase = 0x100000 := rfl
  unfold RefusedAccess
  by_cases h1 : off.toNat < 0x1000
  · simp [refused, regionOf_registers h1, h1]; omega
  · by_cases h2 : 0x100000 ≤ off.toNat ∧ off.toNat < 0x100000 + s.cfg.bufSize
    · have hr : regionOf s.cfg off = .ram (off.toNat - 0x100000) := regionOf_ram (by omega) (by omega)
      simp [refused, hr, h1, h2]; tauto
    · have hr : regionOf s.cfg off = .reserved := regionOf_reserved (by omega)
      simp only [refused, hr]
      constructor
      · intro h; cases h
      · rintro (⟨h3, h4, -⟩ | ⟨h3, -⟩) <;> omega

/-! ### What a write does -/

/-- A host write is refused, or reaches an aligned place of the RAM of an idle engine, or a register, or nothing. -/
theorem hostWrite_cases (off : HostOffset) (width : Nat) (v : Word) (s : State) :
    (refused s off width = true ∧ hostWrite off width v s = noteRefusal s) ∨
    (∃ a, off.toNat = ramBase + a ∧ a < s.cfg.bufSize ∧ s.eng.busy = false ∧ (width = 1 ∨ width = 2 ∨ width = 4) ∧
      off.toNat % width = 0 ∧ hostWrite off width v s = { s with ram := memWrite s.ram a (leBytes width v.toNat) }) ∨
    (off.toNat < 0x1000 ∧ width = 4 ∧ off.toNat % 4 = 0 ∧
      hostWrite off width v s = writeReg v s (regAt off.toNat)) ∨
    hostWrite off width v s = s := by
  by_cases hr : refused s off width = true
  · exact .inl ⟨hr, by simp [hostWrite, hr]⟩
  · rcases hreg : regionOf s.cfg off with _ | a | _
    · refine .inr (.inr (.inl ?_))
      simp only [refused, hreg] at hr
      simp at hr
      refine ⟨regionOf_eq_registers hreg, hr.1, hr.2, ?_⟩
      simp [hostWrite, refused, hreg, hr]
    · refine .inr (.inl ⟨a, (regionOf_eq_ram hreg).1, (regionOf_eq_ram hreg).2, ?_⟩)
      have h2 : hostWrite off width v s = { s with ram := memWrite s.ram a (leBytes width v.toNat) } := by
        simp [hostWrite, hr, hreg]
      simp only [refused, hreg] at hr
      simp at hr
      exact ⟨hr.1.1, by tauto, hr.2, h2⟩
    · exact .inr (.inr (.inr (by simp [hostWrite, refused, hreg])))

/-- What a register write changes: the operand registers, or the engine, but never its result or operands while it is
busy. -/
theorem writeReg_frame (v : Word) (s : State) (r : Reg) :
    (writeReg v s r).ctx = s.ctx ∧ (writeReg v s r).mac = s.mac ∧ (writeReg v s r).ram = s.ram ∧
    (writeReg v s r).cfg = s.cfg ∧ (writeReg v s r).inbox = s.inbox ∧ (writeReg v s r).rdata = s.rdata := by
  cases r
  case cmd => simp only [writeReg, writeCmd]; split <;> exact ⟨rfl, rfl, rfl, rfl, rfl, rfl⟩
  all_goals exact ⟨rfl, rfl, rfl, rfl, rfl, rfl⟩

@[simp] theorem leBytes_length (w v : Nat) : (leBytes w v).length = w := by
  induction w generalizing v with
  | zero => rfl
  | succ w ih => simp [leBytes, ih]

/-- R62: byte i of the little-endian form is bits [8i+7:8i]. -/
theorem leBytes_getD (w v i : Nat) (h : i < w) : (leBytes w v).getD i 0 = BitVec.ofNat 8 (v >>> (8 * i)) := by
  induction w generalizing v i with
  | zero => omega
  | succ w ih =>
    cases i with
    | zero => simp [leBytes]
    | succ i =>
      have := ih (v >>> 8) i (by omega)
      simp only [leBytes, List.getD_cons_succ]
      rw [this, ← Nat.shiftRight_add]; congr 2; omega

theorem leValue_lt (s : Bytes) : leValue s < 2 ^ (8 * s.length) := by
  induction s with
  | nil => simp [leValue]
  | cons b s ih =>
    have := b.isLt
    rw [leValue, List.length_cons, Nat.mul_succ, Nat.pow_add]
    omega

/-- R62: bits [8i+7:8i] of the little-endian value are byte i. -/
theorem leValue_byte (s : Bytes) (i : Nat) : BitVec.ofNat 8 (leValue s >>> (8 * i)) = s.getD i 0 := by
  induction s generalizing i with
  | nil => simp [leValue]
  | cons b s ih =>
    have hb := b.isLt
    cases i with
    | zero =>
      apply BitVec.eq_of_toNat_eq
      simp [leValue]; omega
    | succ i =>
      rw [List.getD_cons_succ, ← ih i, leValue, show 8 * (i + 1) = 8 + 8 * i by omega, Nat.shiftRight_add]
      congr 2
      rw [Nat.shiftRight_eq_div_pow]; omega

end Sys2Proof.Machine
end

