-- ==== Sys2Proof/Laws/Results.lean ====
section
/-! SUPPORT. How the commands that check operands end, said once each: which check fails, or what is computed
(spec/60_exceptions.md R242); and the lengths of what the MAC unit computes. -/

namespace Sys2Proof

@[simp] theorem innerPad_length (k : Bytes) : (innerPad k).length = k.length := by simp [innerPad, xorBytes]

@[simp] theorem outerPad_length (k : Bytes) : (outerPad k).length = k.length := by simp [outerPad, xorBytes]

theorem hmacPads_length {p : Prims} {g : Cfg} {h : HashAlg} (hg : (g.hashSize h).Legal) (i o m : Bytes) :
    (hmacPads p g h i o m).length = (g.hashSize h).digest := hashBytes_length hg _

/-- R142: no derived key is longer than was asked for. -/
theorem pbkdf2_length_le (p : Prims) (g : Cfg) (h : HashAlg) (password salt : Bytes) (c dkLen : Nat) :
    (pbkdf2 p g h password salt c dkLen).length ≤ dkLen := List.length_take_le _ _

namespace Machine

/-- R125. -/
theorem macSetkeyResult_cases (p : Prims) (halg : Nat) (s : State) :
    (s.cfg.selectHash halg = none ∧ macSetkeyResult p halg s = .error .invalidAlgorithm) ∨
    (∃ h, s.cfg.selectHash halg = some h ∧
      ((s.cfg.bufSize < s.eng.op.keyAddr.toNat + s.eng.op.keyLen.toNat ∧
          macSetkeyResult p halg s = .error .invalidParameters) ∨
       (s.eng.op.keyAddr.toNat + s.eng.op.keyLen.toNat ≤ s.cfg.bufSize ∧
          macSetkeyResult p halg s = .ok (keyedMac p s.cfg h (keyBytes s), [])))) := by
  unfold macSetkeyResult
  rcases hs : s.cfg.selectHash halg with _ | h
  · exact .inl ⟨rfl, rfl⟩
  · refine .inr ⟨h, rfl, ?_⟩
    by_cases hr : s.eng.op.keyAddr.toNat + s.eng.op.keyLen.toNat ≤ s.cfg.bufSize
    · exact .inr ⟨hr, by simp [keyInRange, hr]⟩
    · exact .inl ⟨by omega, by simp [keyInRange, hr]⟩

/-- R127. -/
theorem macComputeResult_cases (p : Prims) (s : State) :
    (s.mac.mstate = .unkeyed ∧ macComputeResult p s = .error .invalidState) ∨
    (s.mac.mstate = .keyed ∧
      ((¬DataInRange s ∧ macComputeResult p s = .error .invalidParameters) ∨
       (DataInRange s ∧ s.eng.op.dstCap.toNat < s.cfg.digestSize s.mac.halg ∧
          macComputeResult p s = .error .bufferTooSmall) ∨
       (DataInRange s ∧ s.cfg.digestSize s.mac.halg ≤ s.eng.op.dstCap.toNat ∧
          macComputeResult p s = .ok (s.mac, macDigest p s.cfg s.mac (srcBytes s))))) := by
  unfold macComputeResult
  rcases hm : s.mac.mstate
  · exact .inl ⟨rfl, by simp⟩
  · refine .inr ⟨rfl, ?_⟩
    by_cases hr : DataInRange s
    · have hr' := (dataInRange_iff s).mpr hr
      by_cases hc : s.eng.op.dstCap.toNat < s.cfg.digestSize s.mac.halg
      · exact .inr (.inl ⟨hr, hc, by simp [hr', hc]⟩)
      · exact .inr (.inr ⟨hr, by omega, by simp [hr', hc]⟩)
    · have hr' : (srcInRange s && dstInRange s) = false := by
        rw [Bool.eq_false_iff]; exact fun h => hr ((dataInRange_iff s).mp h)
      exact .inl ⟨hr, by simp [hr']⟩

/-- R145: the areas of KDF_DERIVE lie in RAM. -/
theorem kdfInRange_iff (s : State) : kdfInRange s = true ↔
    s.eng.op.keyAddr.toNat + s.eng.op.keyLen.toNat ≤ s.cfg.bufSize ∧
    s.eng.op.auxAddr.toNat + s.eng.op.auxLen.toNat ≤ s.cfg.bufSize ∧
    s.eng.op.dstAddr.toNat + s.eng.op.dkLen.toNat ≤ s.cfg.bufSize := by
  simp [kdfInRange, keyInRange, auxInRange, and_assoc]

/-- R145. -/
theorem kdfResult_cases (p : Prims) (halg : Nat) (s : State) :
    (s.cfg.selectHash halg = none ∧ kdfResult p halg s = .error .invalidAlgorithm) ∨
    (∃ h, s.cfg.selectHash halg = some h ∧
      (((s.eng.op.iterCount = 0 ∨ s.eng.op.dkLen = 0 ∨ kdfInRange s = false ∨
            s.cfg.digestSize h * (2 ^ 32 - 1) < s.eng.op.dkLen.toNat) ∧
          kdfResult p halg s = .error .invalidParameters) ∨
       (¬(s.eng.op.iterCount = 0 ∨ s.eng.op.dkLen = 0) ∧ kdfInRange s = true ∧
          s.eng.op.dkLen.toNat ≤ s.cfg.digestSize h * (2 ^ 32 - 1) ∧
          kdfResult p halg s = .ok (MacCtx.unkeyed, pbkdf2 p s.cfg h (keyBytes s) (auxBytes s)
            s.eng.op.iterCount.toNat s.eng.op.dkLen.toNat)))) := by
  unfold kdfResult
  rcases hs : s.cfg.selectHash halg with _ | h
  · exact .inl ⟨rfl, rfl⟩
  · refine .inr ⟨h, rfl, ?_⟩
    by_cases h0 : s.eng.op.iterCount = 0 ∨ s.eng.op.dkLen = 0
    · exact .inl ⟨by tauto, by simp only [if_pos h0]⟩
    · rcases hr : kdfInRange s
      · exact .inl ⟨by tauto, by simp only [if_neg h0]; rfl⟩
      · by_cases hl : s.cfg.digestSize h * (2 ^ 32 - 1) < s.eng.op.dkLen.toNat
        · exact .inl ⟨by tauto, by simp only [if_neg h0, if_pos hl]; rfl⟩
        · exact .inr ⟨h0, rfl, by omega, by simp only [if_neg h0, if_neg hl]; rfl⟩

/-- R222. -/
theorem bufZeroResult_cases (s : State) :
    (s.eng.op.dstAddr.toNat + s.eng.op.dstCap.toNat ≤ s.cfg.bufSize ∧
      bufZeroResult s = .ok (zeros s.eng.op.dstCap.toNat)) ∨
    (s.cfg.bufSize < s.eng.op.dstAddr.toNat + s.eng.op.dstCap.toNat ∧
      bufZeroResult s = .error .invalidParameters) := by
  unfold bufZeroResult
  by_cases hr : s.eng.op.dstAddr.toNat + s.eng.op.dstCap.toNat ≤ s.cfg.bufSize
  · exact .inl ⟨hr, by simp [dstInRange, hr]⟩
  · exact .inr ⟨by omega, by simp [dstInRange, hr]⟩

/-- R165: CIPHER_INIT ends with InvalidParameters, or with the new context. -/
theorem cipherInitResult_cases (mode ksz : Nat) (dir : Dir) (pad : Bool) (s : State) :
    cipherInitResult mode ksz dir pad s = .error .invalidParameters ∨
    ∃ m k, Mode.ofCode mode = some m ∧ KeySize.ofCode ksz = some k ∧ s.eng.op.keyLen.toNat = k.bytes ∧
      s.eng.op.keyAddr.toNat + k.bytes ≤ s.cfg.bufSize ∧
      (m = .ecb ∨ s.eng.op.auxAddr.toNat + 16 ≤ s.cfg.bufSize) ∧
      cipherInitResult mode ksz dir pad s =
        .ok (freshCtx m k dir pad (memRead s.ram s.eng.op.keyAddr.toNat k.bytes) (initIv m s), []) := by
  unfold cipherInitResult
  rcases hm : Mode.ofCode mode with _ | m
  · exact .inl rfl
  · rcases hk : KeySize.ofCode ksz with _ | k
    · exact .inl rfl
    · by_cases h1 : s.eng.op.keyLen.toNat = k.bytes
      · by_cases h2 : s.eng.op.keyAddr.toNat + k.bytes ≤ s.cfg.bufSize
        · by_cases h3 : m = .ecb ∨ s.eng.op.auxAddr.toNat + 16 ≤ s.cfg.bufSize
          · have h3' : ivInRange m s = true := by simpa [ivInRange] using h3
            exact .inr ⟨m, k, rfl, rfl, h1, h2, h3, by simp [h1, h2, h3']⟩
          · have h3' : ivInRange m s = false := by
              rw [Bool.eq_false_iff]; intro h; exact h3 (by simpa [ivInRange] using h)
            exact .inl (by simp [h3'])
        · exact .inl (by simp [h2])
      · exact .inl (by simp [h1])

end Machine
end Sys2Proof
end

