-- ==== Sys2Proof/Laws/Step.lean ====
section
/-! SUPPORT. What one step can be, said once (spec/20_memory.md R72, spec/70_reset_and_hazards.md R285). -/

namespace Sys2Proof.Machine

/-- The engine's turn: `s0` is the state without the mark of the turn. -/
def EngineTurn (s s0 : State) : Prop :=
  (s.inbox = [] ∧ s0 = s) ∨ ∃ rest, s.inbox = .engine :: rest ∧ s0 = { s with inbox := rest }

/-- A step is a host read, a host write, a reset, or the engine's turn: idle, a command, or an illegal word. -/
theorem step_cases {s t : State} (h : step s = .next t) :
    (∃ off w rest, s.inbox = .read off w :: rest ∧ t = hostRead off w { s with inbox := rest }) ∨
    (∃ off w v rest, s.inbox = .write off w v :: rest ∧ t = hostWrite off w v { s with inbox := rest }) ∨
    (∃ rest, s.inbox = .reset :: rest ∧ t = resetAll { s with inbox := rest }) ∨
    (∃ s0, EngineTurn s s0 ∧
      ((s.eng.busy = false ∧ t = s0) ∨
       (s.eng.busy = true ∧ ∃ i, decode s.eng.cmd = .ok i ∧ exec i s0 = .next t) ∨
       (s.eng.busy = true ∧ ∃ e, decode s.eng.cmd = .error e ∧ t = illegalCommand s0))) := by
  have turn : ∀ s0, EngineTurn s s0 → completionStep s0 = .next t →
      (s.eng.busy = false ∧ t = s0) ∨
      (s.eng.busy = true ∧ ∃ i, decode s.eng.cmd = .ok i ∧ exec i s0 = .next t) ∨
      (s.eng.busy = true ∧ ∃ e, decode s.eng.cmd = .error e ∧ t = illegalCommand s0) := by
    intro s0 h0 hc
    have he : s0.eng = s.eng := by
      rcases h0 with ⟨-, rfl⟩ | ⟨rest, -, rfl⟩ <;> rfl
    simp only [completionStep, he] at hc
    split at hc
    · rename_i hb; cases hc; exact .inl ⟨hb, rfl⟩
    · rename_i i hb hd; exact .inr (.inl ⟨hb, i, hd, hc⟩)
    · rename_i e hb hd; cases hc; exact .inr (.inr ⟨hb, e, hd, rfl⟩)
  simp only [step, nextTurn] at h
  split at h
  · rename_i hi
    exact .inr (.inr (.inr ⟨s, .inl ⟨hi, rfl⟩, turn s (.inl ⟨hi, rfl⟩) h⟩))
  · rename_i a rest hi
    cases a with
    | read off w => cases h; exact .inl ⟨off, w, rest, hi, rfl⟩
    | write off w v => cases h; exact .inr (.inl ⟨off, w, v, rest, hi, rfl⟩)
    | reset => cases h; exact .inr (.inr (.inl ⟨rest, hi, rfl⟩))
    | engine =>
      exact .inr (.inr (.inr ⟨_, .inr ⟨rest, hi, rfl⟩, turn _ (.inr ⟨rest, hi, rfl⟩) h⟩))

end Sys2Proof.Machine
end

