-- ==== Sys2Proof/Tests/Reference.lean ====
section
/-! SUPPORT. For the tests only: primitives under which byte values of spec/95_test_vectors.md hold, so that the tests
can check the model against them. AES (FIPS-197), SHA-1 and SHA-256 (FIPS 180-4) are general knowledge
(spec/93_implementation_defined.md G1, G2): a wrong constant here makes a test fail and touches nothing else. The
tests use no other hash. -/

namespace Sys2Proof.Tests

/-- One number of parts of `bits` bits each, the first part lowest. -/
def packParts (bits : Nat) : List Nat → Nat
  | [] => 0
  | a :: l => a + (packParts bits l) <<< bits

/-- FIPS-197: the S-box, entry x at bits 8x. -/
def sboxTable : Nat :=
  packParts 256 [
    0xc072a49cafa2d4adf04759fa7dc982ca76abd7fe2b670130c56f6bf27b777c63,
    0x75b227ebe28012079a059618c323c7041531d871f1e5a534ccf73f362693fdb7,
    0xcf584c4a39becb6a5bb1fc20ed00d153842fe329b3d63b52a05a6e1b1a2c8309,
    0xd2f3ff1021dab6bcf5389d928f40a351a89f3c507f02f94585334d43fbaaefd0,
    0xdb0b5ede14b8ee4688902a22dc4f816073195d643d7ea7c41744975fec130ccd,
    0x08ae7a65eaf4566ca94ed58d6d37c8e779e4959162acd3c25c2406490a3a32e0,
    0x9e1dc186b95735610ef6034866b53e708a8bbd4b1f74dde8c6b4a61c2e2578ba,
    0x16bb54b00f2d99416842e6bf0d89a18cdf2855cee9871e9b948ed9691198f8e1]

/-- FIPS-197: the inverse S-box. -/
def invSboxTable : Nat :=
  packParts 256 [
    0xcbe9dec444438e3487ff2f9b8239e37cfbd7f3819ea340bf38a53630d56a0952,
    0x25d18b6d49a25b76b224d92866a12e084ec3fa420b954cee3d23c2a632947b54,
    0x849d8da75746155edab9edfd5048706c92b6655dcc5ca4d41698688664f6f872,
    0x6b8a130103bdafc1020f3fca8f1e2cd00645b3b80558e4f70ad3bc8c00abd890,
    0x6edf751ce837f9e28535ade72274ac9673e6b4f0cecff297eadc674f4111913a,
    0xf45acd78fec0db9a2079d2c64b3e56fc1bbe18aa0e62b76f89c5291d711af147,
    0xef9cc9939f7ae52d0d4ab519a97f51605fec8027591012b131c7078833a8dd1f,
    0x7d0c2155631469e126d677ba7e042b17619953833cbbebc8b0f52aae4d3be0a0]

/-! ### AES (FIPS-197), on lists of byte values, column by column -/

def sub (x : Nat) : Nat := (sboxTable >>> (8 * x)) % 256

def invSub (x : Nat) : Nat := (invSboxTable >>> (8 * x)) % 256

def xtime (x : Nat) : Nat := if x < 128 then 2 * x else (2 * x) ^^^ 0x11b

/-- The product in GF(2^8) with a factor below 16. -/
def gmul (a x : Nat) : Nat :=
  let x2 := xtime x
  let x4 := xtime x2
  let x8 := xtime x4
  (if a.testBit 0 then x else 0) ^^^ (if a.testBit 1 then x2 else 0) ^^^
    (if a.testBit 2 then x4 else 0) ^^^ (if a.testBit 3 then x8 else 0)

/-- Each column times the circulant matrix of (a, b, c, d). -/
def mixColumns (a b c d : Nat) : List Nat → List Nat
  | w :: x :: y :: z :: s =>
    (gmul a w ^^^ gmul b x ^^^ gmul c y ^^^ gmul d z) :: (gmul d w ^^^ gmul a x ^^^ gmul b y ^^^ gmul c z) ::
    (gmul c w ^^^ gmul d x ^^^ gmul a y ^^^ gmul b z) :: (gmul b w ^^^ gmul c x ^^^ gmul d y ^^^ gmul a z) ::
    mixColumns a b c d s
  | _ => []

def permute (order : List Nat) (s : List Nat) : List Nat := order.map fun i => s.getD i 0

def shiftRows : List Nat → List Nat := permute [0, 5, 10, 15, 4, 9, 14, 3, 8, 13, 2, 7, 12, 1, 6, 11]

def invShiftRows : List Nat → List Nat := permute [0, 13, 10, 7, 4, 1, 14, 11, 8, 5, 2, 15, 12, 9, 6, 3]

def addKey (k s : List Nat) : List Nat := List.zipWith (· ^^^ ·) k s

/-- The words of the key schedule after the first `nk`, each four bytes, newest first. -/
def expandKey (nk : Nat) : Nat → Nat → Nat → List (List Nat) → List (List Nat)
  | 0, _, _, ws => ws
  | n + 1, i, rcon, ws =>
    let t := ws.getD 0 []
    let old := ws.getD (nk - 1) []
    if i % nk = 0 then
      match t with
      | [a, b, c, d] => expandKey nk n (i + 1) (xtime rcon) (addKey old [sub b ^^^ rcon, sub c, sub d, sub a] :: ws)
      | _ => ws
    else if 6 < nk ∧ i % nk = 4 then expandKey nk n (i + 1) rcon (addKey old (t.map sub) :: ws)
    else expandKey nk n (i + 1) rcon (addKey old t :: ws)

def chunksOf (k : Nat) : Nat → List Nat → List (List Nat)
  | 0, _ => []
  | n + 1, s => s.take k :: chunksOf k n (s.drop k)

/-- The round keys, 16 bytes each. -/
def roundKeys (key : List Nat) : List (List Nat) :=
  let nk := key.length / 4
  let ws := expandKey nk (4 * (nk + 7) - nk) nk 1 (chunksOf 4 nk key).reverse
  chunksOf 16 (nk + 7) ws.reverse.flatten

def encRounds : List (List Nat) → List Nat → List Nat
  | [], s => s
  | [k], s => addKey k (shiftRows (s.map sub))
  | k :: ks, s => encRounds ks (addKey k (mixColumns 2 3 1 1 (shiftRows (s.map sub))))

def decRounds : List (List Nat) → List Nat → List Nat
  | [], s => s
  | [k], s => addKey k ((invShiftRows s).map invSub)
  | k :: ks, s => decRounds ks (mixColumns 14 11 13 9 (addKey k ((invShiftRows s).map invSub)))

def aesWith (rounds : List (List Nat) → List Nat → List Nat) (keys : List (List Nat)) (b : Block) : Block :=
  match keys with
  | [] => b
  | k :: ks => toBlock ((rounds ks (addKey k (b.toList.map (·.toNat)))).map (BitVec.ofNat 8))

def aesEncrypt (key : Bytes) (b : Block) : Block := aesWith encRounds (roundKeys (key.map (·.toNat))) b

def aesDecrypt (key : Bytes) (b : Block) : Block := aesWith decRounds (roundKeys (key.map (·.toNat))).reverse b

/-! ### The constants of SHA-256, which FIPS 180-4 derives from primes -/

/-- The primes up to 311, the 64th; a number below 19 * 19 is prime unless a smaller one of these divides it. -/
def firstPrimes : List Nat :=
  (List.range 312).filter fun n => 1 < n && [2, 3, 5, 7, 11, 13, 17].all fun d => n == d || n % d != 0

/-- The `k`-th root of `n` rounded down, its low `bits` bits found from the top, below the ones in `r`. -/
def rootFrom (k n : Nat) : Nat → Nat → Nat
  | 0, r => r
  | bits + 1, r => rootFrom k n bits (if (r + 2 ^ bits) ^ k ≤ n then r + 2 ^ bits else r)

/-- The first 32 bits of the fraction of the `k`-th root of `n`, a root below 32. -/
def rootFraction (k n : Nat) : Nat := rootFrom k (n * 2 ^ (32 * k)) 37 0 % 2 ^ 32

/-- The round constants: from the cube roots of the first 64 primes. -/
def roundConstants256 : List Nat := firstPrimes.map (rootFraction 3)

/-- The initial value: from the square roots of the first 8 primes. -/
def initial256 : List Nat := (firstPrimes.take 8).map (rootFraction 2)

/-! ### SHA-1 and SHA-256 (FIPS 180-4), on 32-bit words held as numbers -/

def add32 (a b : Nat) : Nat := (a + b) % 2 ^ 32

def rotr (n x : Nat) : Nat := (x >>> n) ||| (x <<< (32 - n)) % 2 ^ 32

def rotl (n x : Nat) : Nat := rotr (32 - n) x

def not32 (x : Nat) : Nat := 0xffffffff - x

/-- The big-endian words of a byte string. -/
def words : Bytes → List Nat
  | a :: b :: c :: d :: s =>
    (((a.toNat * 256 + b.toNat) * 256 + c.toNat) * 256 + d.toNat) :: words s
  | _ => []

/-- The padded message: 0x80, zeros, and the length in bits as eight bytes. -/
def shaPad (m : Bytes) : Bytes :=
  m ++ [0x80] ++ zeros ((119 - m.length % 64) % 64) ++ be32 (m.length * 8 / 2 ^ 32) ++ be32 (m.length * 8)

/-- `n` more words of the schedule, newest first. -/
def schedule (next : List Nat → Nat) : Nat → List Nat → List Nat
  | 0, ws => ws
  | n + 1, ws => schedule next n (next ws :: ws)

def next256 (w : List Nat) : Nat :=
  let a := w.getD 14 0
  let b := w.getD 1 0
  add32 (add32 (w.getD 15 0) (rotr 7 a ^^^ rotr 18 a ^^^ (a >>> 3)))
    (add32 (w.getD 6 0) (rotr 17 b ^^^ rotr 19 b ^^^ (b >>> 10)))

def round256 (v : List Nat) (kw : Nat × Nat) : List Nat :=
  match v with
  | [a, b, c, d, e, f, g, h] =>
    let t1 := add32 (add32 h (rotr 6 e ^^^ rotr 11 e ^^^ rotr 25 e))
      (add32 ((e &&& f) ^^^ (not32 e &&& g)) (add32 kw.1 kw.2))
    let t2 := add32 (rotr 2 a ^^^ rotr 13 a ^^^ rotr 22 a) ((a &&& b) ^^^ (a &&& c) ^^^ (b &&& c))
    [add32 t1 t2, a, b, c, add32 d t1, e, f, g]
  | _ => v

def compress256 (v ws : List Nat) : List Nat :=
  List.zipWith add32 v ((roundConstants256.zip (schedule next256 48 ws.reverse).reverse).foldl round256 v)

def next1 (w : List Nat) : Nat := rotl 1 (w.getD 2 0 ^^^ w.getD 7 0 ^^^ w.getD 13 0 ^^^ w.getD 15 0)

def round1 (f : Nat → Nat → Nat → Nat) (k : Nat) (v : List Nat) (w : Nat) : List Nat :=
  match v with
  | [a, b, c, d, e] => [add32 (add32 (rotl 5 a) (f b c d)) (add32 e (add32 k w)), a, rotl 30 b, c, d]
  | _ => v

def compress1 (v ws : List Nat) : List Nat :=
  let w := (schedule next1 64 ws.reverse).reverse
  let v1 := (w.take 20).foldl (round1 (fun b c d => (b &&& c) ^^^ (not32 b &&& d)) 0x5a827999) v
  let v2 := ((w.drop 20).take 20).foldl (round1 (fun b c d => b ^^^ c ^^^ d) 0x6ed9eba1) v1
  let v3 := ((w.drop 40).take 20).foldl (round1 (fun b c d => (b &&& c) ^^^ (b &&& d) ^^^ (c &&& d)) 0x8f1bbcdc) v2
  List.zipWith add32 v ((w.drop 60).foldl (round1 (fun b c d => b ^^^ c ^^^ d) 0xca62c1d6) v3)

def shaBlocks (compress : List Nat → List Nat → List Nat) (v : List Nat) : Nat → List Nat → List Nat
  | 0, _ => v
  | n + 1, ws => shaBlocks compress (compress v (ws.take 16)) n (ws.drop 16)

def sha (compress : List Nat → List Nat → List Nat) (iv : List Nat) (m : Bytes) : Bytes :=
  (shaBlocks compress iv ((shaPad m).length / 64) (words (shaPad m))).flatMap be32

def sha256 (m : Bytes) : Bytes := sha compress256 initial256 m

def sha1 (m : Bytes) : Bytes := sha compress1 [0x67452301, 0xefcdab89, 0x98badcfe, 0x10325476, 0xc3d2e1f0] m

/-- FIPS-197 AES, SHA-1 and SHA-256. -/
def refPrims : Prims where
  aesEnc _ key b := aesEncrypt key b
  aesDec _ key b := aesDecrypt key b
  hash h m :=
    match h with
    | .sha1 => toVec 128 (sha1 m)
    | .sha256 => toVec 128 (sha256 m)
    | _ => toVec 128 []

end Sys2Proof.Tests
end

