-- ==== Sys2Proof/Tests/Slice0.lean ====
section
/-! SUPPORT. Tests: the checks of WellFormed, command words written out from spec/30_encoding.md, a few steps with
their results from spec/95_test_vectors.md, and for each statement with hypotheses a state that meets them. -/

namespace Sys2Proof.Tests

open Sys2Proof.Machine

-- One theorem after another: checked side by side they take more memory than a check is given.
set_option Elab.async false

/-! ### WellFormed refuses -/

theorem test_modeFits_refuses : wellFormed (.cipherInit 8 0 .enc false) = false := by decide
theorem test_kszFits_refuses : wellFormed (.cipherInit 0 4 .enc false) = false := by decide
theorem test_halgFits_refuses_setkey : wellFormed (.macSetkey 8) = false := by decide
theorem test_halgFits_refuses_derive : wellFormed (.kdfDerive 8) = false := by decide

/-! ### Words of spec/30_encoding.md R91, R103 and spec/95_test_vectors.md V-ENC -/

theorem test_word_nop : decodeTableWord 32 0x00000000 = some .nop := by decide
theorem test_word_cipherInit : decodeTableWord 32 0x00000521 = some (.cipherInit 2 1 .dec false) := by decide
theorem test_word_cipherInit_pad : decodeTableWord 32 0x00000A11 = some (.cipherInit 1 2 .enc true) := by decide
theorem test_word_cipherUpdate : decodeTableWord 32 0x00000002 = some .cipherUpdate := by decide
theorem test_word_cipherFinal : decodeTableWord 32 0x00000003 = some .cipherFinal := by decide
theorem test_word_cipherClean : decodeTableWord 32 0x00000004 = some .cipherClean := by decide
theorem test_word_macSetkey : decodeTableWord 32 0x00004005 = some (.macSetkey 4) := by decide
theorem test_word_macCompute : decodeTableWord 32 0x00000006 = some .macCompute := by decide
theorem test_word_macClean : decodeTableWord 32 0x00000007 = some .macClean := by decide
theorem test_word_kdfDerive : decodeTableWord 32 0x00001008 = some (.kdfDerive 1) := by decide
theorem test_word_bufZero : decodeTableWord 32 0x00000009 = some .bufZero := by decide
theorem test_word_zeroizeAll : decodeTableWord 32 0x0000000A = some .zeroizeAll := by decide
theorem test_word_illegal : decodeTableWord 32 0x00002001 = none := by decide
theorem test_encode_init : encode (.cipherInit 1 2 .dec true) = 0x00000E11 := by decide

/-! ### States and strings for the tests -/

/-- The `n` bytes of a number, the first one highest, as the vectors print them. -/
def bytesOf (n v : Nat) : Bytes := (leBytes n v).reverse

/-- spec/95_test_vectors.md, the key K and the IV of its cipher vectors. -/
def vecKey : Bytes := bytesOf 16 0x2b7e151628aed2a6abf7158809cf4f3c
def vecIv : Bytes := bytesOf 16 0x000102030405060708090a0b0c0d0e0f
def vecPlain : Bytes := bytesOf 16 0x6bc1bee22e409f96e93d7e117393172a

/-- Operands that lie in the reference RAM, each area apart. -/
def ops : OpRegs where
  srcAddr := 0x1000
  srcLen := 16
  dstAddr := 0x2000
  dstCap := 64
  keyAddr := 0
  keyLen := 16
  auxAddr := 0x40
  auxLen := 4
  iterCount := 1
  dkLen := 32

/-- A state with a command accepted: its word, its operands, and what RAM holds. -/
def accepted (w : Word) (op : OpRegs) (ram : Memory) : State :=
  { State.reset with ram := ram, eng := { Eng.reset with busy := true, cmd := w, op := op } }

/-- The key, the IV and one block of data in RAM. -/
def vecRam : Memory := memWrite (memWrite (memWrite [] 0 vecKey) 0x40 vecIv) 0x1000 vecPlain

/-- A cipher context just after CIPHER_INIT. -/
def active (mode : Mode) (dir : Dir) (pad : Bool) : CipherCtx := freshCtx mode .k128 dir pad vecKey (toBlock vecIv)

/-- A keyed MAC context (the key of spec/95_test_vectors.md V-MAC-2). -/
def keyed : MacCtx := keyedMac refPrims Cfg.reference .sha256 (bytesOf 4 0x4a656665)

/-- A state in which every unit is in use. -/
def work : State :=
  { accepted 0x00000002 ops vecRam with ctx := active .cbc .enc true, mac := keyed, inbox := [.engine] }

/-- The same with nothing accepted. -/
def idle : State := { work with eng := Eng.reset }

/-- The state of an outcome, or the reset state for a stop. -/
def after : Host.Outcome State Fault Refusal → State
  | .next s => s
  | .fault _ | .refused _ => State.reset

/-! ### The commands -/

/-- spec/43_system.md R220: the example from reset. -/
theorem test_nop_status : statusWord (after (exec .nop (accepted 0 ops []))) = 0x00000002 := by decide +kernel

/-- V-CIPH-16: STATUS after CIPHER_INIT of CBC, 128, enc, nopad. -/
theorem test_cipherInit_status :
    statusWord (after (exec (.cipherInit 1 0 .enc false) (accepted 0x00000011 ops vecRam))) = 0x00200102 := by
  decide +kernel

/-- V-CIPH-29a: MODE 7. -/
theorem test_cipherInit_reserved_mode :
    statusWord (after (exec (.cipherInit 7 0 .enc false) (accepted 0x00000071 ops vecRam))) = 0x00000032 := by
  decide +kernel

/-- V-CIPH-17: the CTR split 1 + 17 + 14, the first two chunks. -/
theorem test_cipherUpdate_ctr_split :
    ((updateAll refPrims (freshCtx .ctr .k128 .enc false vecKey (toBlock (bytesOf 16 0xf0f1f2f3f4f5f6f7f8f9fafbfcfdfeff)))
        [bytesOf 1 0x6b, bytesOf 17 0xc1bee22e409f96e93d7e117393172aae2d]).toOption.map fun r =>
      (r.1, r.2.civ, r.2.off)) =
    some (bytesOf 18 0x874d6191b620e3261bef6864990db6ce9806,
      toBlock (bytesOf 16 0xf0f1f2f3f4f5f6f7f8f9fafbfcfdff01), 2) := by decide +kernel

/-- V-CIPH-29b: CIPHER_UPDATE from reset. -/
theorem test_cipherUpdate_uninit :
    statusWord (after (exec .cipherUpdate (accepted 0x00000002 ops vecRam))) = 0x00000022 := by decide +kernel

/-- V-CIPH-26: CBC encryption with pad, split 5 + 16. -/
theorem test_cipherFinal_pads_message :
    ((updateAll refPrims (active .cbc .enc true) [bytesOf 5 0x6bc1bee22e]).toOption.bind fun r =>
      (chunk refPrims true r.2 (bytesOf 16 0x409f96e93d7e117393172aae2d8a571e)).toOption.map (·.1)) =
    some (bytesOf 32 0x7649abac8119b246cee98e9b12e9197d40053932ebc80b58118369062552a01d) := by decide +kernel

/-- V-CIPH-27f: ECB decryption with pad, p = 3, and the state it leaves. -/
theorem test_cipherFinal_depads :
    (let s := finishCipher (accepted 3 ops []) (chunkResult refPrims true { accepted 3 ops
        (memWrite [] 0x1000 (bytesOf 16 0x3d0895a183a7c711275ed0493e34c40f)) with ctx := active .ecb .dec true })
     (statusWord s, s.eng.resultLen, memRead s.ram 0x2000 14)) =
    (0x03000202, 13, bytesOf 14 0x4141414141414141414141414100) := by decide +kernel

/-- spec/42_cipher.md R188: CSTATE and the views are 0 after it. -/
theorem test_cipherClean_status : statusWord (after (exec .cipherClean work)) = 0x08000402 := by decide +kernel

/-- V-MAC-15, V-MAC-16: K0 and the pads of the key "Jefe", and STATUS. -/
theorem test_macSetkey_pads :
    (let s := after (exec (.macSetkey 2) (accepted 0x00002005 { ops with keyLen := 4 }
        (memWrite [] 0 (bytesOf 4 0x4a656665))))
     (s.mac.ipad.toList.take 5, s.mac.opad.toList.take 5, s.mac.opad.toList.drop 63, statusWord s)) =
    (bytesOf 5 0x7c53505336, bytesOf 5 0x16393a395c, 0x5c :: zeros 64, 0x08000402) := by decide +kernel

/-- V-MAC-17: HALG 5. -/
theorem test_macSetkey_reserved :
    statusWord (after (exec (.macSetkey 5) (accepted 0x00005005 ops vecRam))) = 0x00000012 := by decide +kernel

/-- V-MAC-2, RFC 4231 test case 2. -/
theorem test_macCompute_digest :
    macDigest refPrims Cfg.reference keyed (bytesOf 28 0x7768617420646f2079612077616e7420666f72206e6f7468696e673f) =
      bytesOf 32 0x5bdcc146bf60754e6a042426089575c75a003f089d2739839dec58b964ec3843 := by decide +kernel

/-- V-MAC-17: the capacity is one byte short. -/
theorem test_macCompute_capacity :
    statusWord (after (exec .macCompute { accepted 6 { ops with dstCap := 31 } vecRam with mac := keyed })) =
      0x00000042 := by decide +kernel

/-- V-MAC-17: STATUS after MAC_CLEAN. -/
theorem test_macClean_status :
    statusWord (after (exec .macClean { accepted 7 ops vecRam with mac := keyed })) = 0x00000002 := by decide +kernel

/-- V-KDF-15: U1 and T1 of c = 2, PBKDF2-HMAC-SHA256 of "password" and "salt". -/
theorem test_kdfDerive_block :
    pbkdf2 refPrims Cfg.reference .sha256 (bytesOf 8 0x70617373776f7264) (bytesOf 4 0x73616c74) 2 32 =
      bytesOf 32 0xae4d0c95af6b46d32d0adff928f06dd02a303f8ef3c251dfd6e2d85a95474c43 := by decide +kernel

/-- V-KDF-16: ITER_COUNT = 0. -/
theorem test_kdfDerive_no_rounds :
    statusWord (after (exec (.kdfDerive 2) (accepted 0x00002008 { ops with iterCount := 0 } vecRam))) =
      0x00000032 := by decide +kernel

/-- spec/43_system.md R223: the example's length, and the bytes around the area. -/
theorem test_bufZero_area :
    (let s := after (exec .bufZero (accepted 9 { ops with dstAddr := 4, dstCap := 8 } vecRam))
     (s.eng.resultLen, memRead s.ram 0 16)) = (8, bytesOf 16 0x2b7e1516000000000000000009cf4f3c) := by decide +kernel

/-- spec/43_system.md R225. -/
theorem test_zeroizeAll_everything :
    (let s := after (exec .zeroizeAll work)
     (s.ctx, s.mac, memRead s.ram 0 16, statusWord s)) =
    (CipherCtx.uninit, MacCtx.unkeyed, zeros 16, 0x00000002) := by decide +kernel

/-- spec/20_memory.md R62: the little-endian view. -/
theorem test_port_little_endian : hostReadValue idle 0x101000 4 = 0xe2bec16b := by decide +kernel

/-- The word placed for the next step is what it runs (log 2). -/
theorem test_withFetchWord_runs :
    statusWord (after (step (State.reset.withFetchWord 32 0x00000006))) = 0x00000022 := by decide +kernel

/-! ### States that meet the hypotheses of the statements, named after them -/

theorem reference_legal : Cfg.reference.Legal where
  bufLog_ge := by decide
  bufLog_le := by decide
  hash_sizes h := by cases h <;> exact ⟨by decide, by decide, by decide⟩

theorem work_ctx_inv : work.ctx.Inv where
  res_le := by decide
  block_off := by decide +kernel
  block_ks := by decide +kernel
  ecb_oiv := by decide +kernel
  ecb_civ := by decide +kernel
  stream_res := by decide +kernel
  uninit_zero := by decide +kernel
  key_tail := by decide +kernel

theorem work_inv : work.Inv where
  cfg := reference_legal
  ctx := work_ctx_inv
  mac := ⟨by decide +kernel, by decide +kernel, by decide +kernel, by decide +kernel, by decide +kernel⟩
  ram := ⟨by decide +kernel, by decide +kernel⟩
  eng := ⟨by decide, by decide, by decide⟩

/-- A state of the invariant with both contexts empty. -/
theorem empty_inv : (accepted 0 ops []).Inv where
  cfg := reference_legal
  ctx := ⟨by decide, by decide +kernel, by decide +kernel, by decide +kernel, by decide +kernel, by decide +kernel,
    by decide +kernel, by decide +kernel⟩
  mac := ⟨by decide +kernel, by decide +kernel, by decide +kernel, by decide +kernel, by decide +kernel⟩
  ram := ⟨by decide, by decide⟩
  eng := ⟨by decide, by decide, by decide⟩

theorem machine_prims_legal : Config.prims.Legal := fun k key b => (Config.aes k key).symm_apply_apply b

theorem witness_ResetAbandonsTheCommandInProgress :
    ∃ (s : State) (rest : _), s.inbox = .reset :: rest ∧ s.eng.busy = true := ⟨{ work with inbox := [.reset] }, [], rfl, rfl⟩

theorem witness_CapsShowsTheConfiguration :
    ∃ (s : State) (v : Word) (rest : _), s.cfg.Legal ∧ s.inbox = .write 0x004 4 v :: rest :=
  ⟨{ work with inbox := [.write 0x004 4 1] }, 1, [], reference_legal, rfl⟩

theorem witness_StatusShowsEveryField : ∃ s : State, s.Inv ∧ s.ctx.cstate = .active ∧ s.mac.mstate = .keyed :=
  ⟨work, work_inv, rfl, rfl⟩

theorem witness_RegisterFileReadsItsMap :
    (0x048 ≤ (0x048 : HostOffset).toNat ∧ (0x048 : HostOffset).toNat < 0x1000) ∧
    (0x048 ≤ (0xFFF : HostOffset).toNat ∧ (0xFFF : HostOffset).toNat < 0x1000) := by decide

/-- A write for each clause, the reserved offsets at both ends of their ranges. -/
theorem witness_RegisterFileWritesItsMap :
    (0x048 ≤ (0x048 : HostOffset).toNat ∧ (0xFFC : HostOffset).toNat < 0x1000 ∧ (0xFFC : HostOffset).toNat % 4 = 0) ∧
    ∀ off ∈ ([0x000, 0x004, 0x014, 0x018, 0x01C, 0x048, 0xFFC, 0x008, 0x00C, 0x020, 0x024, 0x028, 0x02C, 0x030, 0x034,
        0x038, 0x03C, 0x040, 0x044] : List HostOffset),
      ({ work with inbox := [.write off 4 0xE] } : State).inbox = .write off 4 0xE :: [] :=
  ⟨by decide, fun _ _ => rfl⟩

/-- The window's first byte and its last word. -/
theorem witness_WindowIsLittleEndian :
    idle.eng.busy = false ∧
    ((0x100000 : HostOffset).toNat = 0x100000 + 0 ∧ (0x100000 : HostOffset).toNat % 1 = 0 ∧ 0 < idle.cfg.bufSize) ∧
    ((0x13FFFC : HostOffset).toNat = 0x100000 + 0x3FFFC ∧ (0x13FFFC : HostOffset).toNat % 4 = 0 ∧
      0x3FFFC < idle.cfg.bufSize) ∧
    ({ idle with inbox := [.write 0x13FFFC 4 1] } : State).inbox = .write 0x13FFFC 4 1 :: [] := by decide +kernel

/-- The window while busy, of an odd width, misaligned; the register file by bytes, misaligned. -/
theorem witness_RefusedAccessesSetAccessErrOnly :
    (0x100000 ≤ (0x13FFFF : HostOffset).toNat ∧ (0x13FFFF : HostOffset).toNat < 0x100000 + work.cfg.bufSize ∧
      work.eng.busy = true) ∧
    (0x100000 ≤ (0x100000 : HostOffset).toNat ∧ ¬(3 = 1 ∨ 3 = 2 ∨ 3 = 4) ∧ idle.eng.busy = false) ∧
    (0x100001 : HostOffset).toNat % 2 ≠ 0 ∧
    ((0xFFF : HostOffset).toNat < 0x1000 ∧ (0xFFF : HostOffset).toNat % 4 ≠ 0) ∧
    ({ work with inbox := [.read 0x13FFFF 1] } : State).inbox = .read 0x13FFFF 1 :: [] ∧
    ({ work with inbox := [.write 0xFFF 4 1] } : State).inbox = .write 0xFFF 4 1 :: [] := by decide +kernel

theorem witness_ReservedOffsetsReadZeroAndIgnoreWrites :
    (0x1000 ≤ (0x1000 : HostOffset).toNat ∧ (0x1000 : HostOffset).toNat < 0x100000) ∧
    (0x1000 ≤ (0xFFFFF : HostOffset).toNat ∧ (0xFFFFF : HostOffset).toNat < 0x100000) ∧
    0x100000 + work.cfg.bufSize ≤ (0x140000 : HostOffset).toNat ∧
    0x100000 + work.cfg.bufSize ≤ (0x1FFFFF : HostOffset).toNat ∧
    ({ work with inbox := [.read 0x1000 1] } : State).inbox = .read 0x1000 1 :: [] ∧
    ({ work with inbox := [.write 0x140000 1 5] } : State).inbox = .write 0x140000 1 5 :: [] := by decide +kernel

/-- A read that is refused, and one of CMD, of a reserved register and of the last zero byte, which are not. -/
theorem witness_ReadsHaveNoSideEffect :
    (∀ off w, ({ work with inbox := [.read off w] } : State).inbox = .read off w :: []) ∧
    RefusedAccess { work with inbox := [.read 0x100000 1] } 0x100000 1 ∧
    ¬RefusedAccess { work with inbox := [.read 0x010 4] } 0x010 4 ∧
    ¬RefusedAccess { work with inbox := [.read 0x018 4] } 0x018 4 ∧
    ¬RefusedAccess { idle with inbox := [.read 0x13FFFF 1] } 0x13FFFF 1 := by
  refine ⟨fun _ _ => rfl, ?_, ?_, ?_, ?_⟩ <;> unfold RefusedAccess <;> decide +kernel

theorem witness_CommandWritesAreAcceptedWhenIdle :
    ({ idle with inbox := [.write 0x010 4 3] } : State).inbox = .write 0x010 4 3 :: [] ∧ idle.eng.busy = false ∧
    ({ work with inbox := [.write 0x010 4 3] } : State).inbox = .write 0x010 4 3 :: [] ∧
    work.eng.busy = true := ⟨rfl, rfl, rfl, rfl⟩

theorem witness_BusyWindowKeepsTheCommand :
    ∃ s t a rest, s.eng.busy = true ∧ s.inbox = a :: rest ∧
      ((∃ off w, a = .read off w) ∨ (∃ off w v, a = .write off w v)) ∧ step s = .next t :=
  ⟨{ work with inbox := [.write 0x101000 1 7] }, _, _, _, rfl, rfl, .inr ⟨_, _, _, rfl⟩, rfl⟩

theorem witness_HostReadsShowNoSecret : ∃ x : Secrets, x.res.length = work.ctx.res.length ∧ x.key ≠ work.ctx.key :=
  ⟨{ ksz := .k256, key := Vector.replicate 32 1, oiv := work.ctx.oiv, civ := work.ctx.civ, ks := work.ctx.ks,
     res := [], k0 := work.mac.k0, ipad := work.mac.ipad, opad := work.mac.opad, cmd := 0, op := ops },
   rfl, by decide +kernel⟩

theorem witness_InterruptFollowsDone :
    (∃ s t rest, step s = .next t ∧ s.inbox = .write 0x008 4 0x2 :: rest ∧ (0x2 : Word).getLsbD 1 = true) ∧
    (∃ s t rest, step s = .next t ∧ s.inbox = .write 0x010 4 0 :: rest ∧ s.eng.busy = false) ∧
    (∃ s t rest, step s = .next t ∧ s.inbox = .engine :: rest ∧ s.eng.busy = true) :=
  ⟨⟨{ work with inbox := [.write 0x008 4 0x2] }, _, [], rfl, rfl, rfl⟩,
   ⟨{ idle with inbox := [.write 0x010 4 0] }, _, [], rfl, rfl, rfl⟩,
   ⟨{ accepted 0 ops [] with inbox := [.engine] }, _, [], rfl, rfl, rfl⟩⟩

/-- The largest field values. -/
theorem witness_DecodeReadsBackEncode :
    WellFormed (.cipherInit 7 3 .dec true) ∧ WellFormed (.macSetkey 7) ∧ WellFormed (.kdfDerive 7) := by decide

theorem witness_LegalWordsAreEncodings : decode 0x00000F71 = .ok (.cipherInit 7 3 .dec true) := rfl

theorem witness_StepRunsTheDecodedCommand :
    (work.eng.busy = true ∧ decode work.eng.cmd = .ok .cipherUpdate ∧ WellFormed .cipherUpdate ∧
      work.inbox = .engine :: [] ∧ ({ work with inbox := [] } : State).inbox = []) ∧
    (idle.eng.busy = false ∧ idle.inbox = .engine :: []) := ⟨⟨rfl, rfl, rfl, rfl, rfl⟩, rfl, rfl⟩

theorem witness_IllegalWordsChangeStatusOnly :
    ∃ (s : State) (e : DecodeError) (rest : _), s.eng.busy = true ∧ decode s.eng.cmd = .error e ∧
      s.inbox = .engine :: rest := ⟨{ accepted 0x2001 ops [] with inbox := [.engine] }, _, [], rfl, rfl, rfl⟩

theorem witness_ErrorsEraseTheirUnit :
    (∃ t, exec .cipherUpdate (accepted 2 ops []) = .next t ∧ t.eng.errcode ≠ .ok) ∧
    (∃ t, exec .bufZero (accepted 9 { ops with dstAddr := 0x40000 } []) = .next t ∧ t.eng.errcode ≠ .ok) :=
  ⟨⟨_, rfl, by decide +kernel⟩, ⟨_, rfl, by decide +kernel⟩⟩

theorem witness_CommandsReadTheLatchedOperands :
    ∃ (s : State) (w : Word) (rest : _), s.eng.busy = false ∧ s.inbox = .write 0x010 4 w :: rest :=
  ⟨{ idle with inbox := [.write 0x010 4 2] }, 2, [], rfl, rfl⟩

/-- The key area ends with the RAM. -/
theorem witness_MacSetkeyStoresKeyAndPads :
    let s := accepted 5 { ops with keyAddr := 0x3FFF0 } vecRam
    s.cfg.Legal ∧ (4, HashAlg.sha512) ∈ [(0, HashAlg.md5), (1, .sha1), (2, .sha256), (3, .sha384), (4, .sha512)] ∧
    s.cfg.halgPresent.getLsbD 4 = true ∧ s.eng.op.keyAddr.toNat + s.eng.op.keyLen.toNat ≤ s.cfg.bufSize :=
  ⟨reference_legal, by decide, by decide, by decide +kernel⟩

theorem witness_MacSetkeyErrorsInOrder :
    4 < 5 ∧ ({ Cfg.reference with halgPresent := 0b00100 } : Cfg).halgPresent.getLsbD 1 = false ∧
    (let s := accepted 5 { ops with keyAddr := 0x3FFF1 } vecRam
     s.cfg.halgPresent.getLsbD 0 = true ∧ s.cfg.bufSize < s.eng.op.keyAddr.toNat + s.eng.op.keyLen.toNat) := by
  decide +kernel

/-- The capacity is the digest's size. -/
theorem witness_MacComputeWritesTheDigest :
    let s := { accepted 6 { ops with dstCap := 32 } vecRam with mac := keyed }
    s.cfg.Legal ∧ s.mac.mstate = .keyed ∧ DataInRange s ∧
      (s.cfg.hashSize s.mac.halg).digest ≤ s.eng.op.dstCap.toNat :=
  ⟨reference_legal, rfl, ⟨by decide +kernel, by decide +kernel⟩, by decide +kernel⟩

theorem witness_MacComputeErrorsInOrder :
    (accepted 6 ops []).mac.mstate = .unkeyed ∧
    (let s := { accepted 6 { ops with dstAddr := 0x3FFC1 } [] with mac := keyed }
     s.mac.mstate = .keyed ∧ ¬DataInRange s) ∧
    (let s := { accepted 6 { ops with dstCap := 31 } [] with mac := keyed }
     s.mac.mstate = .keyed ∧ DataInRange s ∧ s.eng.op.dstCap.toNat < (s.cfg.hashSize s.mac.halg).digest) := by
  refine ⟨rfl, ⟨rfl, ?_⟩, rfl, ?_⟩ <;> unfold DataInRange <;> decide +kernel

theorem witness_KeyedDigestIsHmac : Cfg.reference.Legal := reference_legal

theorem witness_MacCleanZeroizes : (accepted 0 ops []).Inv ∧ (accepted 0 ops []).mac.mstate = .unkeyed :=
  ⟨empty_inv, rfl⟩

theorem witness_MacLifecycle :
    (∃ t, exec (.macSetkey 2) work = .next t ∧ t.eng.errcode = .ok) ∧
    (∃ t, exec .macCompute (accepted 6 ops []) = .next t ∧ t.eng.errcode ≠ .ok) ∧
    (∃ t, step { work with inbox := [.reset] } = .next t) ∧ (∃ t, step { work with inbox := [.read 8 4] } = .next t) ∧
    (∃ t, step { accepted 0x2001 ops [] with inbox := [.engine] } = .next t ∧
      decode 0x2001 = .error .unusedFieldNonzero) :=
  ⟨⟨_, rfl, by decide +kernel⟩, ⟨_, rfl, by decide +kernel⟩, ⟨_, rfl⟩, ⟨_, rfl⟩, ⟨_, rfl, rfl⟩⟩

/-- Every area ends with the RAM. -/
theorem witness_KdfDeriveWritesTheKey :
    let s := accepted 8 { ops with keyAddr := 0x3FFF0, auxAddr := 0x3FFFC, dstAddr := 0x3FFE0 } vecRam
    s.cfg.Legal ∧ (0, HashAlg.md5) ∈ [(0, HashAlg.md5), (1, .sha1), (2, .sha256), (3, .sha384), (4, .sha512)] ∧
    s.cfg.halgPresent.getLsbD 0 = true ∧ 0 < s.eng.op.iterCount.toNat ∧ 0 < s.eng.op.dkLen.toNat ∧
    s.eng.op.keyAddr.toNat + s.eng.op.keyLen.toNat ≤ s.cfg.bufSize ∧
    s.eng.op.auxAddr.toNat + s.eng.op.auxLen.toNat ≤ s.cfg.bufSize ∧
    s.eng.op.dstAddr.toNat + s.eng.op.dkLen.toNat ≤ s.cfg.bufSize :=
  ⟨reference_legal, by decide, by decide, by decide +kernel, by decide +kernel, by decide +kernel, by decide +kernel,
    by decide +kernel⟩

theorem witness_KdfDeriveErrorsInOrder :
    4 < 7 ∧ Cfg.reference.halgPresent.getLsbD 4 = true ∧
    (accepted 8 { ops with iterCount := 0 } []).eng.op.iterCount = 0 ∧
    (accepted 8 { ops with dkLen := 0 } []).eng.op.dkLen = 0 ∧
    (let s := accepted 8 { ops with auxAddr := 0x3FFFD } []
     s.cfg.bufSize < s.eng.op.auxAddr.toNat + s.eng.op.auxLen.toNat) := by decide +kernel

theorem witness_KdfBlockXorsEveryRound : 1 ≤ 1 ∧ 2 ^ 32 - 1 < 2 ^ 32 ∧ Cfg.reference.Legal :=
  ⟨by decide, by decide, reference_legal⟩

theorem witness_KdfJoinsItsBlocks : Cfg.reference.Legal ∧ 1 ≤ 1 ∧ 19 < 20 := ⟨reference_legal, by decide, by decide⟩

/-- Key and IV end with the RAM; ECB does not look at AUX_ADDR. -/
theorem witness_CipherInitStartsAContext :
    (4, Mode.ctr) ∈ [(0, Mode.ecb), (1, .cbc), (2, .cfb), (3, .ofb), (4, .ctr)] ∧
    (2, KeySize.k256, 32) ∈ [(0, KeySize.k128, 16), (1, .k192, 24), (2, .k256, 32)] ∧
    (let s := accepted 1 { ops with keyAddr := 0x3FFE0, keyLen := 32, auxAddr := 0x3FFF0 } []
     s.eng.op.keyLen.toNat = 32 ∧ s.eng.op.keyAddr.toNat + 32 ≤ s.cfg.bufSize ∧
       s.eng.op.auxAddr.toNat + 16 ≤ s.cfg.bufSize) := by decide +kernel

theorem witness_CipherInitErrorsZeroize :
    WellFormed (.cipherInit 5 0 .enc false) ∧ 4 < 5 ∧ WellFormed (.cipherInit 0 3 .enc false) ∧
    (let s := accepted 1 { ops with keyLen := 17, keyAddr := 0x3FFF1, auxAddr := 0x3FFF1 } []
     s.eng.op.keyLen.toNat ≠ 16 + 8 * 0 ∧ s.cfg.bufSize < s.eng.op.keyAddr.toNat + (16 + 8 * 0) ∧
       s.cfg.bufSize < s.eng.op.auxAddr.toNat + 16) := by decide +kernel

/-- The work state with another context, and room for `cap` bytes of output. -/
def workWith (c : CipherCtx) (cap : Word) : State :=
  { work with ctx := c, eng := { work.eng with op := { ops with dstCap := cap } } }

/-- The output fits exactly: of a block; of one that is held back; of 16 bytes, and of 20 of which 16 are held. -/
theorem witness_CipherUpdateCompletes :
    ∀ s ∈ [workWith (active .cbc .enc true) 16, workWith (active .cbc .dec true) 0, workWith (active .ctr .enc true) 16,
        workWith ((active .ofb .dec true).holding [1, 2, 3, 4]) 4],
      s.ctx.cstate = .active ∧ DataInRange s ∧
        updateLength s.ctx s.eng.op.srcLen.toNat = s.eng.op.dstCap.toNat := by
  unfold DataInRange; decide +kernel

theorem fresh_ctx_inv :
    ∀ c ∈ [active .cbc .enc true, active .cbc .dec false, active .ofb .enc true, active .cfb .dec false], c.Inv := by
  intro c hc
  fin_cases hc <;>
    exact ⟨by decide +kernel, by decide +kernel, by decide +kernel, by decide +kernel, by decide +kernel,
      by decide +kernel, by decide +kernel, by decide +kernel⟩

/-- With and without padding, of block and stream modes, each with room for exactly its output. -/
theorem witness_CipherFinalCompletesWithoutDepadding :
    (∀ c ∈ [active .cbc .enc true, active .cbc .dec false, active .ofb .enc true, active .cfb .dec false], c.Inv) ∧
    ∀ s ∈ [workWith (active .cbc .enc true) 32, workWith (active .cbc .dec false) 16, workWith (active .ofb .enc true) 32,
        workWith (active .cfb .dec false) 16],
      s.ctx.cstate = .active ∧ DataInRange s ∧ ¬(s.ctx.dir = .dec ∧ s.ctx.pad = true) ∧
        (s.ctx.res.length + s.eng.op.srcLen.toNat) % 16 = 0 ∧
        finalLength s.ctx s.eng.op.srcLen.toNat = s.eng.op.dstCap.toNat := by
  refine ⟨fresh_ctx_inv, ?_⟩
  unfold DataInRange; decide +kernel

/-- A decryption with padding whose one held byte, or two, is all that is left. -/
def heldBack (held : Bytes) : State :=
  { accepted 3 { ops with srcLen := 0, dstCap := 0 } vecRam with
    ctx := { active .ofb .dec true with res := held } }

/-- A valid pad that fits, a valid pad whose rest does not fit, and no valid pad. -/
theorem witness_CipherFinalDepadsDecryption :
    (∀ held, (heldBack held).ctx.cstate = .active ∧ DataInRange (heldBack held) ∧ (heldBack held).ctx.dir = .dec ∧
      (heldBack held).ctx.pad = true ∧ (heldBack held).ctx.mode.isBlock = false ∧
      held ++ [] = (heldBack held).ctx.res ++ (streamMap Config.prims (heldBack held).ctx
        (memRead (heldBack held).ram (heldBack held).eng.op.srcAddr.toNat (heldBack held).eng.op.srcLen.toNat)).1) ∧
    ([1] : Bytes) = [] ++ List.replicate 1 (BitVec.ofNat 8 1) ∧
    ([7, 1] : Bytes) = [7] ++ List.replicate 1 (BitVec.ofNat 8 1) ∧
    (∀ out n, 1 ≤ n → n ≤ 16 → ([0] : Bytes) ≠ out ++ List.replicate n (BitVec.ofNat 8 n)) := by
  refine ⟨fun held => ⟨rfl, ?_, rfl, rfl, rfl, rfl⟩, rfl, rfl, fun out n h1 h2 h => ?_⟩
  · have : DataInRange (heldBack []) := by unfold DataInRange; decide +kernel
    exact this
  · have h3 := depad_append (r := out) h1 h2
    rw [← h, show depad [0] = .error .invalidPadding from rfl] at h3
    cases h3

/-- The block modes' final data is whole blocks already when nothing comes. -/
theorem witness_CipherFinalDepadsDecryption_block :
    let s := { heldBack [] with ctx := active .cbc .dec true }
    s.ctx.mode.isBlock = true ∧ (s.ctx.res.length + s.eng.op.srcLen.toNat) % 16 = 0 := ⟨rfl, by decide +kernel⟩

theorem witness_CipherChunkErrorsInOrder :
    (accepted 3 ops []).ctx.cstate ≠ .active ∧
    (let s := { work with eng := { work.eng with op := { ops with srcAddr := 0x3FFF1 } } }
     s.ctx.cstate = .active ∧ ¬DataInRange s) ∧
    (let s := { work with ctx := active .cbc .dec true, eng := { work.eng with op := { ops with srcLen := 15 } } }
     s.ctx.cstate = .active ∧ DataInRange s ∧ s.ctx.mode.isBlock = true ∧ ¬(s.ctx.dir = .enc ∧ s.ctx.pad = true) ∧
       (s.ctx.res.length + s.eng.op.srcLen.toNat) % 16 ≠ 0) ∧
    (let s := { work with eng := { work.eng with op := { ops with dstCap := 15 } } }
     s.ctx.cstate = .active ∧ DataInRange s ∧ s.eng.op.dstCap.toNat < updateLength s.ctx s.eng.op.srcLen.toNat) ∧
    (let s := { work with eng := { work.eng with op := { ops with dstCap := 31 } } }
     s.ctx.cstate = .active ∧ DataInRange s ∧ s.ctx.Inv ∧ ¬(s.ctx.dir = .dec ∧ s.ctx.pad = true) ∧
       ¬(s.ctx.pad = false) ∧ s.eng.op.dstCap.toNat < finalLength s.ctx s.eng.op.srcLen.toNat) := by
  refine ⟨by decide, ⟨rfl, ?_⟩, ⟨rfl, ?_, rfl, ?_, ?_⟩, ⟨rfl, ?_, ?_⟩, rfl, ?_, work_ctx_inv, ?_, ?_, ?_⟩ <;>
    (try unfold DataInRange) <;> decide +kernel

theorem witness_BlockModesChain :
    vecPlain.length = 16 * 1 ∧ (active .ecb .enc false).mode = .ecb ∧ (active .ecb .dec false).dir = .dec ∧
    (active .cbc .enc false).mode = .cbc ∧ (active .cbc .dec false).dir = .dec := by decide +kernel

/-- The first byte and the last, of whole blocks. -/
theorem witness_OfbReencryptsTheKeystream :
    (active .ofb .enc false).mode = .ofb ∧ (active .ofb .enc false).off = 0 ∧ 0 < vecPlain.length ∧
    15 < vecPlain.length := by decide +kernel

theorem witness_CtrEncryptsTheCounter :
    (active .ctr .enc false).mode = .ctr ∧ (active .ctr .enc false).off = 0 ∧ 0 < vecPlain.length ∧
    15 < vecPlain.length := by decide +kernel

theorem witness_CfbFeedsBackTheCiphertext :
    (active .cfb .dec false).mode = .cfb ∧ (active .cfb .dec false).off = 0 ∧ 0 < vecPlain.length ∧
    15 < vecPlain.length ∧ vecPlain.length % 16 = 0 := by decide +kernel

theorem witness_CounterCountsModulo : 2 ^ 128 - 1 < 2 ^ 128 := by decide

theorem witness_OfbAndCtrIgnoreTheDirection :
    (active .ofb .enc true).mode = .ofb ∧ (active .ctr .dec true).mode = .ctr := ⟨rfl, rfl⟩

theorem witness_ChunkOutputLengths :
    work.ctx.Inv ∧ ∃ p out c, chunk p true work.ctx [] = .ok (out, c) :=
  ⟨work_ctx_inv, { aesEnc := fun _ _ b => b, aesDec := fun _ _ b => b, hash := refPrims.hash }, _, _, rfl⟩

/-- The laws of the primitives hold of the machine's own; a message of no byte without padding is whole blocks. -/
theorem witness_DecryptionUndoesEncryption :
    Config.prims.Legal ∧ Mode.isBlock .ctr = false ∧ ([] : Bytes).length % 16 = 0 :=
  ⟨machine_prims_legal, rfl, rfl⟩

theorem witness_CipherCleanZeroizes : (accepted 0 ops []).Inv ∧ (accepted 0 ops []).ctx.cstate = .uninit :=
  ⟨empty_inv, rfl⟩

theorem witness_CipherLifecycle :
    (∃ t, exec (.cipherInit 1 0 .enc true) work = .next t ∧ t.eng.errcode = .ok) ∧
    (∃ t, exec .cipherFinal (accepted 3 ops []) = .next t ∧ t.eng.errcode ≠ .ok) ∧
    (∃ t, step { work with inbox := [.reset] } = .next t) ∧
    (∃ t, step { work with inbox := [.write 0x008 4 2] } = .next t) ∧
    (∃ t, step { idle with inbox := [] } = .next t) :=
  ⟨⟨_, rfl, by decide +kernel⟩, ⟨_, rfl, by decide +kernel⟩, ⟨_, rfl⟩, ⟨_, rfl⟩, ⟨_, rfl⟩⟩

/-- The area that ends with the RAM, and the one a byte longer. -/
theorem witness_BufZeroErasesItsArea :
    (let s := accepted 9 { ops with dstAddr := 0x3FFC0 } []
     s.eng.op.dstAddr.toNat + s.eng.op.dstCap.toNat = s.cfg.bufSize) ∧
    (let s := accepted 9 { ops with dstAddr := 0x3FFC1 } []
     s.cfg.bufSize < s.eng.op.dstAddr.toNat + s.eng.op.dstCap.toNat) := by decide +kernel

theorem witness_OnlyTheHostWritesOperandRegisters :
    ∃ s t, step s = .next t ∧ t.regs ≠ s.regs :=
  ⟨{ work with inbox := [.write 0x044 4 7] }, _, rfl, by decide +kernel⟩

theorem witness_OnlyTheseEventsChangeRam :
    (∃ s t, step s = .next t ∧ t.ram ≠ s.ram ∧ s.eng.busy = false) ∧
    (∃ s t, step s = .next t ∧ t.ram ≠ s.ram ∧ s.eng.busy = true ∧ s.inbox = []) :=
  ⟨⟨{ idle with inbox := [.write 0x100000 1 1] }, _, rfl, by decide +kernel, rfl⟩,
   ⟨accepted 10 ops vecRam, _, rfl, by decide +kernel, rfl, rfl⟩⟩

/-- A command accepted with DONE set, a command completed, and the sticky bits set and cleared. -/
theorem witness_FlagsChangeOnlyAsSaid :
    (∃ s t, step s = .next t ∧ s.inbox = [.write 0x010 4 0] ∧ s.eng.busy = false ∧ t.eng.busy = true ∧
      s.eng.done = true ∧ t.eng.done = false) ∧
    (∃ s t, step s = .next t ∧ s.inbox = [] ∧ s.eng.busy = true ∧ t.eng.busy = false ∧ s.eng.done = false ∧
      t.eng.done = true ∧ t.eng.errcode ≠ s.eng.errcode) ∧
    (∃ s t, step s = .next t ∧ s.inbox = [.engine] ∧ s.eng.busy = true ∧ t.eng.busy = false) ∧
    (∃ s t, step s = .next t ∧ s.inbox = [.write 0x010 4 0] ∧ s.eng.overrun = false ∧ t.eng.overrun = true) ∧
    (∃ s t, step s = .next t ∧ s.inbox = [.read 0x100000 1] ∧ s.eng.accessErr = false ∧ t.eng.accessErr = true) ∧
    (∃ s t, step s = .next t ∧ s.inbox = [.write 0x008 4 0xE] ∧ s.eng.done = true ∧ t.eng.done = false ∧
      s.eng.overrun = true ∧ t.eng.overrun = false ∧ s.eng.accessErr = true ∧ t.eng.accessErr = false) := by
  refine ⟨⟨{ idle with inbox := [.write 0x010 4 0], eng := { Eng.reset with done := true } }, _, rfl, rfl, rfl, rfl,
      rfl, rfl⟩,
    ⟨accepted 0x2001 ops [], _, rfl, rfl, rfl, rfl, rfl, rfl, by decide +kernel⟩,
    ⟨{ accepted 0x2001 ops [] with inbox := [.engine] }, _, rfl, rfl, rfl, rfl⟩,
    ⟨{ work with inbox := [.write 0x010 4 0] }, _, rfl, rfl, rfl, rfl⟩,
    ⟨{ work with inbox := [.read 0x100000 1] }, _, rfl, rfl, rfl, rfl⟩,
    ⟨{ idle with
        inbox := [.write 0x008 4 0xE]
        eng := { Eng.reset with done := true, overrun := true, accessErr := true } }, _, rfl, rfl, rfl, rfl, rfl, rfl,
      rfl, rfl⟩⟩

/-- The reference configuration, and the smallest and the largest RAM. -/
theorem witness_ResetMeetsTheInvariant :
    Cfg.reference.Legal ∧ ({ Cfg.reference with bufLog := 12 } : Cfg).Legal ∧
    ({ Cfg.reference with bufLog := 20, halgPresent := 0 } : Cfg).Legal :=
  ⟨reference_legal, ⟨by decide, by decide, reference_legal.hash_sizes⟩,
    ⟨by decide, by decide, reference_legal.hash_sizes⟩⟩

theorem witness_EveryStepKeepsTheInvariant : ∃ t, work.Inv ∧ step work = .next t := ⟨_, work_inv, rfl⟩

end Sys2Proof.Tests
end

section
/-! The cipher in both directions (spec/42_cipher.md R191, from spec/00_scope.md R7): the transform of one context,
run towards decryption over what it gave towards encryption, gives the input back and moves on as the encryption did. -/

namespace Sys2Proof.Machine

/-! ### Contexts with the direction replaced -/

/-- R30: the context with another direction. -/
def CipherCtx.facing (c : CipherCtx) (d : Dir) : CipherCtx := { c with dir := d }

section Facing
variable (c : CipherCtx) (d : Dir)

@[simp] theorem facing_mode : (c.facing d).mode = c.mode := rfl
@[simp] theorem facing_dir : (c.facing d).dir = d := rfl
@[simp] theorem facing_pad : (c.facing d).pad = c.pad := rfl
@[simp] theorem facing_civ : (c.facing d).civ = c.civ := rfl
@[simp] theorem facing_off : (c.facing d).off = c.off := rfl
@[simp] theorem facing_res : (c.facing d).res = c.res := rfl
@[simp] theorem encBlock_facing (p : Prims) (b : Block) : encBlock p (c.facing d) b = encBlock p c b := rfl
@[simp] theorem decBlock_facing (p : Prims) (b : Block) : decBlock p (c.facing d) b = decBlock p c b := rfl
@[simp] theorem keystreamByte_facing : keystreamByte (c.facing d) = keystreamByte c := rfl

/-- R171 to R173: the next keystream block does not depend on the direction. -/
@[simp] theorem refill_facing (p : Prims) : refill p (c.facing d) = (refill p c).facing d := by
  unfold refill
  by_cases h0 : c.off = 0
  · rw [if_pos h0, if_pos (show (c.facing d).off = 0 from h0), facing_mode]
    cases c.mode <;> rfl
  · rw [if_neg h0, if_neg (show ¬(c.facing d).off = 0 from h0)]

end Facing

theorem facing_of_dir {c : CipherCtx} {d : Dir} (h : c.dir = d) : c.facing d = c := by
  subst h; rfl

/-! ### Block modes -/

/-- R7, R14: `D` undoes `E` under the same key. -/
theorem decBlock_encBlock {p : Prims} (hp : p.Legal) (c : CipherCtx) (b : Block) :
    decBlock p c (encBlock p c b) = b := hp _ _ _

/-- R163, R164: one block; both directions chain the ciphertext block. -/
theorem blockStep_dec_enc {p : Prims} (hp : p.Legal) (c : CipherCtx) (civ b : Block) :
    blockStep p (c.facing .dec) civ (blockStep p (c.facing .enc) civ b).1 =
      (b, (blockStep p (c.facing .enc) civ b).2) := by
  cases hm : c.mode with
  | ecb => simp [blockStep, hm, decBlock_encBlock hp]
  | cbc => simp [blockStep, hm, decBlock_encBlock hp]
  | _ => simp [blockStep, hm]

theorem blockMapFrom_dec_enc {p : Prims} (hp : p.Legal) (c : CipherCtx) (m : Nat) (civ : Block) (s : Bytes)
    (h : s.length = 16 * m) :
    blockMapFrom p (c.facing .dec) m civ (blockMapFrom p (c.facing .enc) m civ s).1 =
      (s, (blockMapFrom p (c.facing .enc) m civ s).2) := by
  induction m generalizing civ s with
  | zero =>
    obtain rfl : s = [] := List.length_eq_zero_iff.mp (by simpa using h)
    rfl
  | succ m ih =>
    have hfirst : (toBlock (s.take 16)).toList = s.take 16 := toList_toBlock _ (by simp; omega)
    have hrest := fun v => ih v (s.drop 16) (by simp; omega)
    simp [blockMapFrom, blockStep_dec_enc hp, hrest, hfirst]

/-- R162: decrypting whole encrypted blocks gives them back. -/
theorem blockMap_dec_enc {p : Prims} (hp : p.Legal) (c : CipherCtx) {s : Bytes} (h : s.length % 16 = 0) :
    (blockMap p (c.facing .dec) (blockMap p (c.facing .enc) s).1).1 = s := by
  have hm : (blockMap p (c.facing .enc) s).1.length / 16 = s.length / 16 := by rw [blockMap_length h]
  rw [blockMap, hm]
  exact congrArg Prod.fst (blockMapFrom_dec_enc hp c _ c.civ s (by omega))

/-! ### Stream modes -/

/-- R172: both directions feed the ciphertext byte back. -/
theorem feedback_dec_enc (c : CipherCtx) (x y : Byte) :
    feedback (c.facing .dec) y x = (feedback (c.facing .enc) x y).facing .dec := by
  unfold feedback
  simp only [facing_mode, facing_dir]
  cases c.mode <;> rfl

/-- R171 to R173: one byte; both directions mask with the same keystream byte. -/
theorem streamByte_dec_enc (p : Prims) (c : CipherCtx) (x : Byte) :
    streamByte p (c.facing .dec) (streamByte p (c.facing .enc) x).1 =
      (x, (streamByte p (c.facing .enc) x).2.facing .dec) := by
  simp only [streamByte, refill_facing, keystreamByte_facing, BitVec.xor_assoc, BitVec.xor_self, BitVec.xor_zero,
    feedback_dec_enc]
  rfl

/-- A byte keeps the direction. -/
theorem streamByte_facing_self (p : Prims) (c : CipherCtx) (d : Dir) (x : Byte) :
    (streamByte p (c.facing d) x).2.facing d = (streamByte p (c.facing d) x).2 := by
  obtain ⟨-, -, -, hdir, -⟩ := streamByte_frame p (c.facing d) x
  exact facing_of_dir hdir

/-- R170: decrypting an encrypted string gives it back. -/
theorem streamMap_dec_enc (p : Prims) (c : CipherCtx) (s : Bytes) :
    (streamMap p (c.facing .dec) (streamMap p (c.facing .enc) s).1).1 = s := by
  induction s generalizing c with
  | nil => rfl
  | cons x s ih =>
    have hrest := ih (streamByte p (c.facing .enc) x).2
    rw [streamByte_facing_self] at hrest
    simp [streamMap, streamByte_dec_enc, hrest]

/-! ### Chunks -/

/-- R183: the final chunk of a block mode, from the data it transforms and what is left of the output. -/
theorem blockFinal_ok {p : Prims} {c : CipherCtx} {x data out : Bytes} (hd : blockFinalData c (c.res ++ x) = .ok data)
    (ho : finalOut c (blockMap p c data).1 = .ok out) :
    blockFinal p c x = .ok (out, (c.chained (blockMap p c data).2).holding []) := by
  simp [blockFinal, hd, ho]

/-- R183: a message in one chunk, in a block mode. -/
theorem blockFinal_dec_enc {p : Prims} (hp : p.Legal) (c : CipherCtx) (msg : Bytes) (hres : c.res = [])
    (hlen : c.pad = true ∨ msg.length % 16 = 0) :
    ∃ cipher c1 c2, blockFinal p (c.facing .enc) msg = .ok (cipher, c1) ∧
      blockFinal p (c.facing .dec) cipher = .ok (msg, c2) := by
  obtain ⟨data, hdata, hunpad⟩ : ∃ data, blockFinalData (c.facing .enc) msg = .ok data ∧
      finalOut (c.facing .dec) data = .ok msg := by
    cases hpad : c.pad with
    | true => exact ⟨msg ++ padBytes msg.length, by simp [blockFinalData, hpad],
        by simp [finalOut, hpad, depad_padBytes]⟩
    | false =>
      have hm : msg.length % 16 = 0 := by simpa [hpad] using hlen
      exact ⟨msg, by simp [blockFinalData, hpad, hm], by simp [finalOut, hpad]⟩
  have hwhole : data.length % 16 = 0 := blockFinalData_length hdata
  have hcipher : blockFinalData (c.facing .dec) (blockMap p (c.facing .enc) data).1 =
      .ok (blockMap p (c.facing .enc) data).1 := by
    simp [blockFinalData, blockMap_length hwhole, hwhole]
  rw [← blockMap_dec_enc hp c hwhole] at hunpad
  exact ⟨_, _, _, blockFinal_ok (by simpa [hres] using hdata) rfl,
    blockFinal_ok (by simpa [hres] using hcipher) hunpad⟩

/-- R184: a message in one chunk, in a stream mode, which takes every length. -/
theorem streamFinal_dec_enc (p : Prims) (c : CipherCtx) (msg : Bytes) (hres : c.res = []) :
    ∃ cipher c1 c2, streamFinal p (c.facing .enc) msg = .ok (cipher, c1) ∧
      streamFinal p (c.facing .dec) cipher = .ok (msg, c2) := by
  cases hpad : c.pad with
  | true =>
    have hdec := streamFinal_depads (c := c.facing .dec) p
      (streamMap p (c.facing .enc) (msg ++ padBytes (c.off.val + msg.length))).1 rfl hpad
    rw [facing_res, hres, List.nil_append, streamMap_dec_enc, depad_padBytes] at hdec
    exact ⟨_, _, _, streamFinal_pads p msg rfl hpad, hdec⟩
  | false =>
    have hdec := streamFinal_plain (c := c.facing .dec) p (streamMap p (c.facing .enc) msg).1 hpad
    rw [streamMap_dec_enc] at hdec
    exact ⟨_, _, _, streamFinal_plain p msg hpad, hdec⟩

/-- Settles O50: the two fresh contexts differ in the direction only, and each class of modes has its round trip. -/
theorem decryptionUndoesEncryption : Obligations.DecryptionUndoesEncryption := by
  intro p mode k pad key iv msg hp hlen
  have hfresh : ∀ d, freshCtx mode k d pad key iv = (freshCtx mode k .enc pad key iv).facing d := fun _ => rfl
  rw [hfresh .enc, hfresh .dec]
  cases hb : mode.isBlock with
  | true =>
    obtain ⟨cipher, c1, c2, henc, hdec⟩ := blockFinal_dec_enc hp (freshCtx mode k .enc pad key iv) msg rfl
      (by simpa [freshCtx, hb] using hlen)
    exact ⟨cipher, c1, c2, by simpa [chunk, freshCtx, hb] using henc, by simpa [chunk, freshCtx, hb] using hdec⟩
  | false =>
    obtain ⟨cipher, c1, c2, henc, hdec⟩ := streamFinal_dec_enc p (freshCtx mode k .enc pad key iv) msg rfl
    exact ⟨cipher, c1, c2, by simpa [chunk, freshCtx, hb] using henc, by simpa [chunk, freshCtx, hb] using hdec⟩

end Sys2Proof.Machine
end

section
/-! How a command ends (spec/60_exceptions.md R243 to R248, spec/20_memory.md R67): every command completes or raises an
error that is not OK, and only a command with output, BUF_ZERO or ZEROIZE_ALL that ends OK changes RAM. -/

namespace Sys2Proof.Machine

/-! ### The errors of the results -/

theorem depad_ne_ok (s : Bytes) : depad s ≠ .error .ok := fun h => by cases depad_error_inv h

theorem finalOut_ne_ok (c : CipherCtx) (out : Bytes) : finalOut c out ≠ .error .ok := by
  unfold finalOut
  split
  · exact depad_ne_ok out
  · simp

theorem blockFinalData_ne_ok (c : CipherCtx) (data : Bytes) : blockFinalData c data ≠ .error .ok := by
  rcases blockFinalData_cases c data with ⟨-, -, h⟩ | ⟨-, -, h⟩ | ⟨-, -, h⟩ <;> simp [h]

theorem blockFinal_ne_ok (p : Prims) (c : CipherCtx) (x : Bytes) : blockFinal p c x ≠ .error .ok := by
  intro h
  rcases hd : blockFinalData c (c.res ++ x) with e | data
  · simp only [blockFinal, hd] at h
    exact blockFinalData_ne_ok c (c.res ++ x) (by rw [hd, Except.error.inj h])
  · rcases ho : finalOut c (blockMap p c data).1 with e | out
    · simp only [blockFinal, hd, ho] at h
      exact finalOut_ne_ok c _ (by rw [ho, Except.error.inj h])
    · simp [blockFinal, hd, ho] at h

theorem streamFinal_ne_ok (p : Prims) (c : CipherCtx) (x : Bytes) : streamFinal p c x ≠ .error .ok := by
  intro h
  cases hp : c.pad with
  | false => simp [streamFinal_plain p x hp] at h
  | true =>
    cases hd : c.dir with
    | enc => simp [streamFinal_pads p x hd hp] at h
    | dec =>
      rw [streamFinal_depads p x hd hp] at h
      rcases hr : depad (c.res ++ (streamMap p c x).1) with e | out <;> simp [hr, Except.map] at h
      exact depad_ne_ok _ (by rw [hr, h])

theorem chunk_ne_ok (p : Prims) (final : Bool) (c : CipherCtx) (x : Bytes) : chunk p final c x ≠ .error .ok := by
  unfold chunk
  split
  · simp
  · simp
  · exact blockFinal_ne_ok p c x
  · exact streamFinal_ne_ok p c x

theorem chunkResult_ne_ok (p : Prims) (final : Bool) (s : State) : chunkResult p final s ≠ .error .ok := by
  rcases chunkResult_cases p final s with
    ⟨-, h⟩ | ⟨-, -, h⟩ | ⟨-, -, ⟨e, hc, h⟩ | ⟨_, _, -, -, h⟩ | ⟨_, _, -, -, h⟩⟩
  · simp [h]
  · simp [h]
  · intro he
    cases h.symm.trans he
    exact chunk_ne_ok p final s.ctx (srcBytes s) hc
  · simp [h]
  · simp [h]

theorem cipherInitResult_ne_ok (mode ksz : Nat) (dir : Dir) (pad : Bool) (s : State) :
    cipherInitResult mode ksz dir pad s ≠ .error .ok := by
  rcases cipherInitResult_cases mode ksz dir pad s with h | ⟨_, _, -, -, -, -, -, h⟩ <;> simp [h]

theorem macSetkeyResult_ne_ok (p : Prims) (halg : Nat) (s : State) : macSetkeyResult p halg s ≠ .error .ok := by
  rcases macSetkeyResult_cases p halg s with ⟨-, h⟩ | ⟨_, -, ⟨-, h⟩ | ⟨-, h⟩⟩ <;> simp [h]

theorem macComputeResult_ne_ok (p : Prims) (s : State) : macComputeResult p s ≠ .error .ok := by
  rcases macComputeResult_cases p s with ⟨-, h⟩ | ⟨-, ⟨-, h⟩ | ⟨-, -, h⟩ | ⟨-, -, h⟩⟩ <;> simp [h]

theorem kdfResult_ne_ok (p : Prims) (halg : Nat) (s : State) : kdfResult p halg s ≠ .error .ok := by
  rcases kdfResult_cases p halg s with ⟨-, h⟩ | ⟨_, -, ⟨-, h⟩ | ⟨-, -, -, h⟩⟩ <;> simp [h]

theorem bufZeroResult_ne_ok (s : State) : bufZeroResult s ≠ .error .ok := by
  rcases bufZeroResult_cases s with ⟨-, h⟩ | ⟨-, h⟩ <;> simp [h]

/-! ### What every command leaves -/

/-- R245, R246: the engine state after completion, or after an error. -/
def Eng.Ended (e f : Eng) : Prop := (∃ n, f = e.completed n) ∨ ∃ c, c ≠ .ok ∧ f = e.failed c

/-- R243: what every command leaves, whatever its outcome. -/
structure Ended (s t : State) : Prop where
  eng : s.eng.Ended t.eng
  rest : SameRest s t

theorem EndsOk.ended {s t : State} {out : Bytes} (h : EndsOk s t out) : Ended s t := ⟨.inl ⟨_, h.eng⟩, h.rest⟩

theorem EndsIn.ended {s t : State} {e : ErrCode} (h : EndsIn s t e) (he : e ≠ .ok) : Ended s t :=
  ⟨.inr ⟨e, he, h.eng⟩, h.rest⟩

theorem complete_zero_ended {s t : State} (heng : t.eng = s.eng) (hrest : SameRest s t) : Ended s (complete 0 t) :=
  ⟨.inl ⟨0, by simp [Eng.completed, heng]⟩, ⟨hrest.regs, hrest.cfg, hrest.inbox, hrest.rdata⟩⟩

theorem finishCipher_ended (s : State) {r : Except ErrCode (CipherCtx × Bytes)} (hr : r ≠ .error .ok) :
    Ended s (finishCipher s r) := by
  rcases r with e | ⟨c, out⟩
  · exact (finishCipher_error s e).1.ended fun he => hr (he ▸ rfl)
  · exact (finishCipher_ok s c out).1.ended

theorem finishMac_ended (s : State) {r : Except ErrCode (MacCtx × Bytes)} (hr : r ≠ .error .ok) :
    Ended s (finishMac s r) := by
  rcases r with e | ⟨m, out⟩
  · exact (finishMac_error s e).1.ended fun he => hr (he ▸ rfl)
  · exact (finishMac_ok s m out).1.ended

theorem finishSystem_ended (s : State) {r : Except ErrCode Bytes} (hr : r ≠ .error .ok) :
    Ended s (finishSystem s r) := by
  rcases r with e | out
  · exact (finishSystem_error s e).1.ended fun he => hr (he ▸ rfl)
  · exact (finishSystem_ok s out).1.ended

theorem illegalCommand_ended (s : State) : Ended s (illegalCommand s) :=
  ⟨.inr ⟨.illegalCommand, by decide, rfl⟩, ⟨rfl, rfl, rfl, rfl⟩⟩

/-- R243: every command ends, and leaves what no command changes. -/
theorem exec_ended {i : Instr} {s t : State} (h : exec i s = .next t) : Ended s t := by
  cases i <;> cases h
  case nop | cipherClean | macClean | zeroizeAll => exact complete_zero_ended rfl ⟨rfl, rfl, rfl, rfl⟩
  case cipherInit => exact finishCipher_ended s (cipherInitResult_ne_ok _ _ _ _ _)
  case cipherUpdate | cipherFinal => exact finishCipher_ended s (chunkResult_ne_ok _ _ _)
  case macSetkey => exact finishMac_ended s (macSetkeyResult_ne_ok _ _ _)
  case macCompute => exact finishMac_ended s (macComputeResult_ne_ok _ _)
  case kdfDerive => exact finishMac_ended s (kdfResult_ne_ok _ _ _)
  case bufZero => exact finishSystem_ended s (bufZeroResult_ne_ok s)

/-! ### Which commands change RAM -/

/-- R40: the commands with output, BUF_ZERO and ZEROIZE_ALL. -/
def WritesRam (i : Instr) : Prop :=
  i = .cipherUpdate ∨ i = .cipherFinal ∨ i = .macCompute ∨ (∃ h, i = .kdfDerive h) ∨ i = .bufZero ∨ i = .zeroizeAll

/-- R246: a cipher command that changes RAM ended OK, with output. -/
theorem finishCipher_ram_ne {s : State} {r : Except ErrCode (CipherCtx × Bytes)}
    (h : (finishCipher s r).ram ≠ s.ram) : ∃ c out, r = .ok (c, out) ∧ out ≠ [] := by
  rcases r with e | ⟨c, out⟩
  · exact absurd (finishCipher_error s e).1.ram h
  · exact ⟨c, out, rfl, by rintro rfl; exact h rfl⟩

theorem finishMac_ram_ne {s : State} {r : Except ErrCode (MacCtx × Bytes)}
    (h : (finishMac s r).ram ≠ s.ram) : ∃ m out, r = .ok (m, out) ∧ out ≠ [] := by
  rcases r with e | ⟨m, out⟩
  · exact absurd (finishMac_error s e).1.ram h
  · exact ⟨m, out, rfl, by rintro rfl; exact h rfl⟩

theorem finishSystem_ram_ne {s : State} {r : Except ErrCode Bytes}
    (h : (finishSystem s r).ram ≠ s.ram) : ∃ out, r = .ok out := by
  rcases r with e | out
  · exact absurd (finishSystem_error s e).1.ram h
  · exact ⟨out, rfl⟩

/-- R165: CIPHER_INIT has no output. -/
theorem cipherInitResult_no_output {mode ksz : Nat} {dir : Dir} {pad : Bool} {s : State} {c : CipherCtx} {out : Bytes}
    (h : cipherInitResult mode ksz dir pad s = .ok (c, out)) : out = [] := by
  rcases cipherInitResult_cases mode ksz dir pad s with e | ⟨_, _, -, -, -, -, -, e⟩ <;> rw [e] at h <;> cases h
  rfl

/-- R125: MAC_SETKEY has no output. -/
theorem macSetkeyResult_no_output {p : Prims} {halg : Nat} {s : State} {m : MacCtx} {out : Bytes}
    (h : macSetkeyResult p halg s = .ok (m, out)) : out = [] := by
  rcases macSetkeyResult_cases p halg s with ⟨-, e⟩ | ⟨_, -, ⟨-, e⟩ | ⟨-, e⟩⟩ <;> rw [e] at h <;> cases h
  rfl

/-- R40, R67: a command that changes RAM is one of these and ended OK. -/
theorem exec_ram_ne {i : Instr} {s t : State} (h : exec i s = .next t) (hram : t.ram ≠ s.ram) :
    t.eng.errcode = .ok ∧ t.eng.done = true ∧ WritesRam i := by
  cases i <;> cases h
  case nop | cipherClean | macClean => exact absurd rfl hram
  case cipherInit =>
    obtain ⟨c, out, hr, hout⟩ := finishCipher_ram_ne hram
    exact absurd (cipherInitResult_no_output hr) hout
  case macSetkey =>
    obtain ⟨m, out, hr, hout⟩ := finishMac_ram_ne hram
    exact absurd (macSetkeyResult_no_output hr) hout
  case cipherUpdate | cipherFinal =>
    obtain ⟨c, out, hr, -⟩ := finishCipher_ram_ne hram
    rw [hr]; exact ⟨rfl, rfl, by simp [WritesRam]⟩
  case macCompute | kdfDerive =>
    obtain ⟨m, out, hr, -⟩ := finishMac_ram_ne hram
    rw [hr]; exact ⟨rfl, rfl, by simp [WritesRam]⟩
  case bufZero =>
    obtain ⟨out, hr⟩ := finishSystem_ram_ne hram
    rw [hr]; exact ⟨rfl, rfl, by simp [WritesRam]⟩
  case zeroizeAll => exact ⟨rfl, rfl, by simp [WritesRam]⟩

end Sys2Proof.Machine
end

section
/-! The invariant of the machine (spec/10_state.md R31, R34, R37, spec/20_memory.md R60): it holds after reset, and
each operation of a step keeps it. -/

namespace Sys2Proof.Machine

/-! ### The cipher context -/

theorem uninit_inv : CipherCtx.uninit.Inv where
  res_le := Nat.zero_le _
  block_off _ := rfl
  block_ks _ := rfl
  ecb_oiv _ := rfl
  ecb_civ _ := rfl
  stream_res _ _ := rfl
  uninit_zero _ := rfl
  key_tail i _ := by simp [CipherCtx.uninit]

/-- R165: the context of CIPHER_INIT, whose IV is zero in ECB. -/
theorem freshCtx_inv {mode : Mode} {ksz : KeySize} {key : Bytes} {iv : Block} (dir : Dir) (pad : Bool)
    (hkey : key.length = ksz.bytes) (hiv : mode = .ecb → iv = Vector.replicate 16 0) :
    (freshCtx mode ksz dir pad key iv).Inv where
  res_le := Nat.zero_le _
  block_off _ := rfl
  block_ks _ := rfl
  ecb_oiv := hiv
  ecb_civ := hiv
  stream_res _ _ := rfl
  uninit_zero h := by cases h
  key_tail i hi := by
    have hlen : key.length ≤ i.val := hkey ▸ hi
    simp [freshCtx, hlen]

/-- R31: a block mode may leave any chaining value, but in ECB, and at most 16 bytes of residue. -/
theorem CipherCtx.Inv.blockEnd {c : CipherCtx} (hc : c.Inv) (hactive : c.cstate = .active)
    (hblock : c.mode.isBlock = true) {civ : Block} {r : Bytes} (hciv : c.mode = .ecb → civ = c.civ)
    (hr : r.length ≤ 16) : ((c.chained civ).holding r).Inv where
  res_le := hr
  block_off := hc.block_off
  block_ks := hc.block_ks
  ecb_oiv := hc.ecb_oiv
  ecb_civ h := (hciv h).trans (hc.ecb_civ h)
  stream_res h := by simp [hblock] at h
  uninit_zero h := by simp [hactive] at h
  key_tail := hc.key_tail

/-- R31: a stream mode moves only what the invariant leaves free. -/
theorem CipherCtx.Inv.streamEnd {p : Prims} {c : CipherCtx} {s r : Bytes} (hc : c.Inv) (hactive : c.cstate = .active)
    (hstream : c.mode.isBlock = false) (hr : r.length ≤ 16) (hnil : c.dir = .enc ∨ c.pad = false → r = []) :
    ((streamMap p c s).2.holding r).Inv := by
  have hecb : c.mode ≠ .ecb := by intro h; simp [h, Mode.isBlock] at hstream
  rw [streamMap_ctx]
  exact {
    res_le := hr
    block_off := fun h => by simp [hstream] at h
    block_ks := fun h => by simp [hstream] at h
    ecb_oiv := fun h => absurd h hecb
    ecb_civ := fun h => absurd h hecb
    stream_res := fun _ => hnil
    uninit_zero := fun h => by simp [hactive] at h
    key_tail := hc.key_tail }

/-- R181: a non-final chunk holds back less than a block, or the last one. -/
theorem blockUpdate_residue_le (c : CipherCtx) (n : Nat) : n - 16 * blocksNow c n ≤ 16 := by
  unfold blocksNow; split <;> omega

theorem blockUpdate_inv {p : Prims} {c : CipherCtx} (x : Bytes) (hc : c.Inv) (hactive : c.cstate = .active)
    (hblock : c.mode.isBlock = true) : (blockUpdate p c x).2.Inv :=
  hc.blockEnd hactive hblock (blockMap_ecb_civ _)
    (by rw [List.length_drop]; exact blockUpdate_residue_le c (c.res ++ x).length)

theorem streamUpdate_inv {p : Prims} {c : CipherCtx} (x : Bytes) (hc : c.Inv) (hactive : c.cstate = .active)
    (hstream : c.mode.isBlock = false) : (streamUpdate p c x).2.Inv := by
  by_cases hd : c.dir = .dec ∧ c.pad = true
  · rw [streamUpdate_holds p x hd.1 hd.2]
    refine hc.streamEnd hactive hstream ?_ ?_
    · simp only [List.length_drop, List.length_append, streamMap_length, releaseNow]; omega
    · simp [hd.1, hd.2]
  · rw [streamUpdate_all p x hd]
    exact hc.streamEnd hactive hstream (Nat.zero_le _) fun _ => rfl

theorem blockFinal_inv {p : Prims} {c c' : CipherCtx} {x out : Bytes} (hc : c.Inv) (hactive : c.cstate = .active)
    (hblock : c.mode.isBlock = true) (h : blockFinal p c x = .ok (out, c')) : c'.Inv := by
  obtain ⟨data, -, -, rfl⟩ := blockFinal_ok_inv h
  exact hc.blockEnd hactive hblock (blockMap_ecb_civ _) (Nat.zero_le _)

/-- R184: a final chunk of a stream mode leaves nothing held back. -/
theorem streamFinal_ok_inv {p : Prims} {c c' : CipherCtx} {x out : Bytes} (h : streamFinal p c x = .ok (out, c')) :
    ∃ y, c' = (streamMap p c y).2.holding [] := by
  cases hp : c.pad with
  | false =>
    rw [streamFinal_plain p x hp] at h
    cases h; exact ⟨_, rfl⟩
  | true =>
    cases hd : c.dir with
    | enc =>
      rw [streamFinal_pads p x hd hp] at h
      cases h; exact ⟨_, rfl⟩
    | dec =>
      rw [streamFinal_depads p x hd hp] at h
      rcases hr : depad (c.res ++ (streamMap p c x).1) with e | r <;> rw [hr] at h <;> cases h
      exact ⟨_, rfl⟩

theorem streamFinal_inv {p : Prims} {c c' : CipherCtx} {x out : Bytes} (hc : c.Inv) (hactive : c.cstate = .active)
    (hstream : c.mode.isBlock = false) (h : streamFinal p c x = .ok (out, c')) : c'.Inv := by
  obtain ⟨y, rfl⟩ := streamFinal_ok_inv h
  exact hc.streamEnd hactive hstream (Nat.zero_le _) fun _ => rfl

/-- R31: a chunk of an active message keeps the context's invariant. -/
theorem chunk_inv {p : Prims} {final : Bool} {c c' : CipherCtx} {x out : Bytes} (hc : c.Inv)
    (hactive : c.cstate = .active) (h : chunk p final c x = .ok (out, c')) : c'.Inv := by
  cases hb : c.mode.isBlock <;> cases final <;> simp only [chunk, hb] at h
  · obtain ⟨-, rfl⟩ := Prod.mk.inj (Except.ok.inj h)
    exact streamUpdate_inv x hc hactive hb
  · exact streamFinal_inv hc hactive hb h
  · obtain ⟨-, rfl⟩ := Prod.mk.inj (Except.ok.inj h)
    exact blockUpdate_inv x hc hactive hb
  · exact blockFinal_inv hc hactive hb h

theorem settleCtx_inv {c : CipherCtx} (final : Bool) (hc : c.Inv) : (settleCtx final c).Inv := by
  cases final with
  | false => exact hc
  | true => exact { hc with uninit_zero := fun h => by cases h }

/-! ### The MAC context -/

theorem unkeyed_inv (g : Cfg) : MacCtx.unkeyed.Inv g where
  unkeyed_zero _ := rfl
  keyed_present h := by cases h
  ipad_eq h := by cases h
  opad_eq h := by cases h
  tail_zero i _ := by simp [MacCtx.unkeyed]

/-- R121: `K0` is one block long. -/
theorem hmacKey_length {p : Prims} {g : Cfg} {h : HashAlg} (hg : (g.hashSize h).Legal) (key : Bytes) :
    (hmacKey p g h key).length = g.blockSize h := by
  have hle : g.digestSize h ≤ g.blockSize h := hg.digest_le
  unfold hmacKey
  split
  · rw [List.length_append, zeros_length, hashBytes_length hg]
    exact Nat.add_sub_cancel' hle
  · rw [List.length_append, zeros_length]; omega

/-- R10: a string masked with one byte, at each index. -/
theorem xorBytes_replicate_getD (k : Bytes) (b : Byte) {i : Nat} (h : i < k.length) :
    (xorBytes k (List.replicate k.length b)).getD i 0 = k.getD i 0 ^^^ b := by
  simp [xorBytes, List.getD_eq_getElem?_getD, h]

theorem innerPad_getD (k : Bytes) {i : Nat} (h : i < k.length) : (innerPad k).getD i 0 = k.getD i 0 ^^^ 0x36 :=
  xorBytes_replicate_getD k 0x36 h

theorem outerPad_getD (k : Bytes) {i : Nat} (h : i < k.length) : (outerPad k).getD i 0 = k.getD i 0 ^^^ 0x5c :=
  xorBytes_replicate_getD k 0x5c h

/-- R125: the context that MAC_SETKEY stores. -/
theorem keyedMac_inv {p : Prims} {g : Cfg} {h : HashAlg} (hg : (g.hashSize h).Legal) (hpresent : g.present h = true)
    (key : Bytes) : (keyedMac p g h key).Inv g where
  unkeyed_zero h := by cases h
  keyed_present _ := hpresent
  ipad_eq _ i hi := by
    have hlt : i.val < (hmacKey p g h key).length := (hmacKey_length hg key).symm ▸ hi
    simpa [keyedMac] using innerPad_getD _ hlt
  opad_eq _ i hi := by
    have hlt : i.val < (hmacKey p g h key).length := (hmacKey_length hg key).symm ▸ hi
    simpa [keyedMac] using outerPad_getD _ hlt
  tail_zero i hi := by
    have hle : (hmacKey p g h key).length ≤ i.val := (hmacKey_length hg key).symm ▸ hi
    simp [keyedMac, hle]

theorem selectHash_present {g : Cfg} {halg : Nat} {h : HashAlg} (hs : g.selectHash halg = some h) :
    g.present h = true := by
  obtain ⟨rfl, hbit⟩ := selectHash_eq_some.mp hs
  exact hbit

/-! ### RAM and its size -/

/-- R6: BUF_SIZE is a multiple of a word. -/
theorem four_dvd_bufSize {g : Cfg} (hg : g.Legal) : 4 ∣ g.bufSize := by
  have hge := hg.bufLog_ge
  exact pow_dvd_pow 2 (show 2 ≤ g.bufLog by omega)

/-- R62, R68: an aligned access that begins in the window ends in it. -/
theorem aligned_access_in_range {g : Cfg} (hg : g.Legal) {off a w : Nat} (hoff : off = ramBase + a)
    (ha : a < g.bufSize) (hw : w = 1 ∨ w = 2 ∨ w = 4) (halign : off % w = 0) : a + w ≤ g.bufSize := by
  have hsize := four_dvd_bufSize hg
  have hbase : ramBase = 0x100000 := rfl
  rcases hw with rfl | rfl | rfl <;> omega

/-! ### The engine -/

theorem Eng.Inv.failed {g : Cfg} {e : Eng} (c : ErrCode) : (e.failed c).Inv g where
  busy_done h := by cases h.1
  error_len _ := rfl
  len_le := Nat.zero_le _

theorem Eng.Inv.completed {g : Cfg} {e : Eng} {n : Nat} (hn : n ≤ g.bufSize) : (e.completed n).Inv g where
  busy_done h := by cases h.1
  error_len h := absurd rfl h
  len_le := (Nat.mod_le n _).trans hn

/-! ### States with a part replaced -/

section Replaced
variable {s : State} (h : s.Inv)
include h

/-- What the invariant does not speak of: the operand registers and the model's own fields. -/
theorem State.Inv.ofRest (regs : OpRegs) (inbox : List Action) (rdata : Word) :
    State.Inv { s with regs := regs, inbox := inbox, rdata := rdata } := ⟨h.cfg, h.ctx, h.mac, h.ram, h.eng⟩

theorem State.Inv.ofCtx {c : CipherCtx} (hc : c.Inv) : State.Inv { s with ctx := c } :=
  ⟨h.cfg, hc, h.mac, h.ram, h.eng⟩

theorem State.Inv.ofMac {m : MacCtx} (hm : m.Inv s.cfg) : State.Inv { s with mac := m } :=
  ⟨h.cfg, h.ctx, hm, h.ram, h.eng⟩

theorem State.Inv.ofRam {m : Memory} (hm : Memory.Inv s.cfg m) : State.Inv { s with ram := m } :=
  ⟨h.cfg, h.ctx, h.mac, hm, h.eng⟩

theorem State.Inv.ofEng {e : Eng} (he : e.Inv s.cfg) : State.Inv { s with eng := e } :=
  ⟨h.cfg, h.ctx, h.mac, h.ram, he⟩

end Replaced

/-! ### The outputs of the commands -/

/-- R66, R67: an output is empty or lies in RAM at DST_ADDR. -/
def OutFits (s : State) (out : Bytes) : Prop :=
  out = [] ∨ s.eng.op.dstAddr.toNat + out.length ≤ s.cfg.bufSize

theorem OutFits.length_le {s : State} {out : Bytes} (h : OutFits s out) : out.length ≤ s.cfg.bufSize := by
  rcases h with rfl | h
  · exact Nat.zero_le _
  · omega

/-- R66, R67: an output within the capacity of a destination area that lies in RAM. -/
theorem DataInRange.outFits {s : State} (h : DataInRange s) {out : Bytes}
    (hout : out.length ≤ s.eng.op.dstCap.toNat) : OutFits s out := .inr (by have := h.2; omega)

theorem chunkResult_ok_inv {p : Prims} {final : Bool} {s : State} {c : CipherCtx} {out : Bytes} (hs : s.Inv)
    (h : chunkResult p final s = .ok (c, out)) : c.Inv ∧ OutFits s out := by
  rcases chunkResult_cases p final s with
    ⟨-, e⟩ | ⟨-, -, e⟩ | ⟨hactive, hr, ⟨_, -, e⟩ | ⟨_, _, -, -, e⟩ | ⟨_, _, hchunk, hlen, e⟩⟩ <;>
    rw [e] at h <;> cases h
  exact ⟨settleCtx_inv final (chunk_inv hs.ctx hactive hchunk), hr.outFits hlen⟩

theorem cipherInitResult_ok_inv {mode ksz : Nat} {dir : Dir} {pad : Bool} {s : State} {c : CipherCtx} {out : Bytes}
    (h : cipherInitResult mode ksz dir pad s = .ok (c, out)) : c.Inv ∧ OutFits s out := by
  rcases cipherInitResult_cases mode ksz dir pad s with e | ⟨m, k, -, -, -, -, -, e⟩ <;> rw [e] at h <;> cases h
  exact ⟨freshCtx_inv dir pad (memRead_length _ _ _) (by rintro rfl; rfl), .inl rfl⟩

theorem macSetkeyResult_ok_inv {p : Prims} {halg : Nat} {s : State} {m : MacCtx} {out : Bytes} (hg : s.cfg.Legal)
    (h : macSetkeyResult p halg s = .ok (m, out)) : m.Inv s.cfg ∧ OutFits s out := by
  rcases macSetkeyResult_cases p halg s with ⟨-, e⟩ | ⟨a, ha, ⟨-, e⟩ | ⟨-, e⟩⟩ <;> rw [e] at h <;> cases h
  exact ⟨keyedMac_inv (hg.hash_sizes a) (selectHash_present ha) _, .inl rfl⟩

theorem macComputeResult_ok_inv {p : Prims} {s : State} {m : MacCtx} {out : Bytes} (hs : s.Inv)
    (h : macComputeResult p s = .ok (m, out)) : m.Inv s.cfg ∧ OutFits s out := by
  rcases macComputeResult_cases p s with ⟨-, e⟩ | ⟨-, ⟨-, e⟩ | ⟨-, -, e⟩ | ⟨hr, hcap, e⟩⟩ <;> rw [e] at h <;> cases h
  have hlen := hmacPads_length (p := p) (hs.cfg.hash_sizes s.mac.halg)
  exact ⟨hs.mac, hr.outFits (by rw [macDigest, hlen]; exact hcap)⟩

theorem kdfResult_ok_inv {p : Prims} {halg : Nat} {s : State} {m : MacCtx} {out : Bytes}
    (h : kdfResult p halg s = .ok (m, out)) : m.Inv s.cfg ∧ OutFits s out := by
  rcases kdfResult_cases p halg s with ⟨-, e⟩ | ⟨a, -, ⟨-, e⟩ | ⟨-, hr, -, e⟩⟩ <;> rw [e] at h <;> cases h
  obtain ⟨-, -, hdst⟩ := (kdfInRange_iff s).mp hr
  have hlen := pbkdf2_length_le p s.cfg a (keyBytes s) (auxBytes s) s.eng.op.iterCount.toNat s.eng.op.dkLen.toNat
  exact ⟨unkeyed_inv s.cfg, .inr (by omega)⟩

theorem bufZeroResult_ok_inv {s : State} {out : Bytes} (h : bufZeroResult s = .ok out) : OutFits s out := by
  rcases bufZeroResult_cases s with ⟨hr, e⟩ | ⟨-, e⟩ <;> rw [e] at h <;> cases h
  exact .inr (by rwa [zeros_length])

/-! ### Commands -/

theorem raiseErr_inv {s : State} (e : ErrCode) (h : s.Inv) : (raiseErr e s).Inv := h.ofEng (.failed e)

/-- R245, R67: completion with an output that fits. -/
theorem complete_storeOut_inv {s : State} {out : Bytes} (h : s.Inv) (hout : OutFits s out) :
    (complete out.length (storeOut out s)).Inv := by
  have hram : Memory.Inv s.cfg (memWrite s.ram s.eng.op.dstAddr.toNat out) := by
    rcases hout with rfl | hr
    · exact h.ram
    · exact memWrite_inv h.ram hr
  exact (h.ofRam hram).ofEng (.completed hout.length_le)

theorem complete_zero_inv {s : State} (h : s.Inv) : (complete 0 s).Inv := h.ofEng (.completed (Nat.zero_le _))

theorem finishCipher_inv {s : State} {r : Except ErrCode (CipherCtx × Bytes)} (h : s.Inv)
    (hr : ∀ c out, r = .ok (c, out) → c.Inv ∧ OutFits s out) : (finishCipher s r).Inv := by
  rcases r with e | ⟨c, out⟩
  · exact raiseErr_inv e (h.ofCtx uninit_inv)
  · obtain ⟨hc, hout⟩ := hr c out rfl
    exact complete_storeOut_inv (h.ofCtx hc) hout

theorem finishMac_inv {s : State} {r : Except ErrCode (MacCtx × Bytes)} (h : s.Inv)
    (hr : ∀ m out, r = .ok (m, out) → m.Inv s.cfg ∧ OutFits s out) : (finishMac s r).Inv := by
  rcases r with e | ⟨m, out⟩
  · exact raiseErr_inv e (h.ofMac (unkeyed_inv s.cfg))
  · obtain ⟨hm, hout⟩ := hr m out rfl
    exact complete_storeOut_inv (h.ofMac hm) hout

theorem finishSystem_inv {s : State} {r : Except ErrCode Bytes} (h : s.Inv)
    (hr : ∀ out, r = .ok out → OutFits s out) : (finishSystem s r).Inv := by
  rcases r with e | out
  · exact raiseErr_inv e h
  · exact complete_storeOut_inv h (hr out rfl)

/-- Every command keeps the invariant. -/
theorem exec_inv {i : Instr} {s t : State} (hs : s.Inv) (h : exec i s = .next t) : t.Inv := by
  cases i <;> cases h
  case nop => exact complete_zero_inv hs
  case cipherClean => exact complete_zero_inv (hs.ofCtx uninit_inv)
  case macClean => exact complete_zero_inv (hs.ofMac (unkeyed_inv s.cfg))
  case zeroizeAll =>
    exact complete_zero_inv (((hs.ofCtx uninit_inv).ofMac (unkeyed_inv s.cfg)).ofRam (memory_inv_nil s.cfg))
  case cipherInit => exact finishCipher_inv hs fun _ _ => cipherInitResult_ok_inv
  case cipherUpdate | cipherFinal => exact finishCipher_inv hs fun _ _ => chunkResult_ok_inv hs
  case macSetkey => exact finishMac_inv hs fun _ _ => macSetkeyResult_ok_inv hs.cfg
  case macCompute => exact finishMac_inv hs fun _ _ => macComputeResult_ok_inv hs
  case kdfDerive => exact finishMac_inv hs fun _ _ => kdfResult_ok_inv
  case bufZero => exact finishSystem_inv hs fun _ => bufZeroResult_ok_inv

/-! ### The host and reset -/

theorem resetOf_inv {g : Cfg} (hg : g.Legal) : (State.resetOf g).Inv where
  cfg := hg
  ctx := uninit_inv
  mac := unkeyed_inv g
  ram := memory_inv_nil g
  eng := ⟨fun hb => absurd hb.1 Bool.false_ne_true, fun _ => rfl, Nat.zero_le _⟩

theorem noteRefusal_inv {s : State} (h : s.Inv) : (noteRefusal s).Inv :=
  h.ofEng ⟨h.eng.busy_done, h.eng.error_len, h.eng.len_le⟩

theorem hostRead_inv {s : State} (off : HostOffset) (w : Nat) (h : s.Inv) : (hostRead off w s).Inv := by
  unfold hostRead
  split
  · exact (noteRefusal_inv h).ofRest _ _ _
  · exact h.ofRest _ _ _

theorem accept_inv {s : State} (w : Word) (h : s.Inv) : (accept w s).Inv :=
  h.ofEng ⟨fun hb => absurd hb.2 Bool.false_ne_true, h.eng.error_len, h.eng.len_le⟩

theorem clearStatus_inv {s : State} (v : Word) (h : s.Inv) : (clearStatus v s).Inv :=
  h.ofEng ⟨fun ⟨hbusy, hdone⟩ => h.eng.busy_done ⟨hbusy, (Bool.and_eq_true_iff.mp hdone).1⟩,
    h.eng.error_len, h.eng.len_le⟩

theorem writeCmd_inv {s : State} (w : Word) (h : s.Inv) : (writeCmd w s).Inv := by
  unfold writeCmd
  split
  · exact h.ofEng ⟨h.eng.busy_done, h.eng.error_len, h.eng.len_le⟩
  · exact accept_inv w h

theorem writeReg_inv {s : State} (v : Word) (r : Reg) (h : s.Inv) : (writeReg v s r).Inv := by
  cases r
  case id | caps | resultLen | reserved => exact h
  case status => exact clearStatus_inv v h
  case ctrl => exact h.ofEng ⟨h.eng.busy_done, h.eng.error_len, h.eng.len_le⟩
  case cmd => exact writeCmd_inv v h
  case operand => exact h.ofRest _ _ _

theorem hostWrite_inv {s : State} (off : HostOffset) (w : Nat) (v : Word) (h : s.Inv) : (hostWrite off w v s).Inv := by
  rcases hostWrite_cases off w v s with
    ⟨-, e⟩ | ⟨a, hoff, ha, -, hw, halign, e⟩ | ⟨-, -, -, e⟩ | e <;> rw [e]
  · exact noteRefusal_inv h
  · refine h.ofRam (memWrite_inv h.ram ?_)
    rw [leBytes_length]
    exact aligned_access_in_range h.cfg hoff ha hw halign
  · exact writeReg_inv v _ h
  · exact h

/-! ### The step -/

theorem EngineTurn.eng {s s0 : State} (h : EngineTurn s s0) : s0.eng = s.eng := by
  rcases h with ⟨-, rfl⟩ | ⟨_, -, rfl⟩ <;> rfl

theorem EngineTurn.inv {s s0 : State} (h : EngineTurn s s0) (hs : s.Inv) : s0.Inv := by
  rcases h with ⟨-, rfl⟩ | ⟨rest, -, rfl⟩
  · exact hs
  · exact hs.ofRest _ _ _

/-- Settles O60: by what the step is, a host access, a reset, or the engine's turn. -/
theorem everyStepKeepsTheInvariant : Obligations.EveryStepKeepsTheInvariant := by
  intro s t hs h
  rcases step_cases h with ⟨off, w, rest, -, rfl⟩ | ⟨off, w, v, rest, -, rfl⟩ | ⟨rest, -, rfl⟩ | ⟨s0, hturn, hengine⟩
  · exact hostRead_inv off w (hs.ofRest _ _ _)
  · exact hostWrite_inv off w v (hs.ofRest _ _ _)
  · exact (resetOf_inv hs.cfg).ofRest _ _ _
  · have hs0 := hturn.inv hs
    rcases hengine with ⟨-, rfl⟩ | ⟨-, i, -, hexec⟩ | ⟨-, _, -, rfl⟩
    · exact hs0
    · exact exec_inv hs0 hexec
    · exact raiseErr_inv _ hs0

/-- Settles O59. -/
theorem resetMeetsTheInvariant : Obligations.ResetMeetsTheInvariant :=
  ⟨fun _ => resetOf_inv, resetOf_inv Tests.reference_legal⟩

end Sys2Proof.Machine
end

section
/-! The register file (spec/10_state.md R21 to R29, R42): what an aligned 32-bit access to each of its offsets reads and
changes, and what the words that it reads show of the state (R22, R23, R38). -/

namespace Sys2Proof.Machine

/-! ### The fields of a register word -/

theorem regField_getElem (lo len v i : Nat) (h : i < 32) :
    (regField lo len v)[i] = (decide (lo ≤ i ∧ i < lo + len) && v.testBit (i - lo)) := by
  by_cases hlo : lo ≤ i
  · have hfield : i < lo + len ↔ i - lo < len := by omega
    simp [regField, hlo, Nat.not_lt.mpr hlo, hfield, BitVec.getLsbD_ofNat]
  · simp [regField, hlo]

/-- R23: a flag is at its own bit. -/
@[simp] theorem regField_bool (lo : Nat) (b : Bool) (h : lo < 32) : (regField lo 1 b.toNat)[lo] = b := by
  cases b <;> simp [regField_getElem]

/-- A field shows nothing at another bit. -/
@[simp] theorem regField_getElem_outside {lo len v i : Nat} (h : i < 32) (hout : i < lo ∨ lo + len ≤ i) :
    (regField lo len v)[i] = false := by
  have : ¬(lo ≤ i ∧ i < lo + len) := by omega
  simp [regField_getElem, this]

/-- A field is at its own bits. -/
@[simp] theorem regField_extract_same {lo len : Nat} (v : Nat) (h : lo + len ≤ 32) :
    (regField lo len v).extractLsb' lo len = BitVec.ofNat len v := by
  ext i hi
  have hlt : lo + i < 32 := by omega
  rw [BitVec.getElem_extractLsb', BitVec.getLsbD_eq_getElem hlt, regField_getElem, ← BitVec.getLsbD_eq_getElem hi,
    BitVec.getLsbD_ofNat]
  simp

/-- A field shows nothing at other bits. -/
@[simp] theorem regField_extract_outside {lo len v lo' len' : Nat} (h : lo' + len' ≤ lo ∨ lo + len ≤ lo') :
    (regField lo len v).extractLsb' lo' len' = 0 := by
  ext i hi
  by_cases hlt : lo' + i < 32
  · have hout : lo' + i < lo ∨ lo + len ≤ lo' + i := by omega
    simp [BitVec.getLsbD_eq_getElem hlt, hout]
  · simp [BitVec.getLsbD_of_ge _ _ (Nat.not_lt.mp hlt)]

@[simp] theorem regField_zero (lo len : Nat) : regField lo len 0 = 0 := by simp [regField]

theorem extract_or (lo len : Nat) (a b : Word) :
    (a ||| b).extractLsb' lo len = a.extractLsb' lo len ||| b.extractLsb' lo len := by
  ext i hi; simp

/-! ### Accesses to the register file -/

theorem register_not_refused {s : State} {off : HostOffset} (hlt : off.toNat < 0x1000) (halign : off.toNat % 4 = 0) :
    refused s off 4 = false := by
  simp [refused, regionOf_registers hlt, halign]

/-- R29: an aligned 32-bit read of the register file. -/
theorem hostReadValue_register {s : State} {off : HostOffset} (hlt : off.toNat < 0x1000)
    (halign : off.toNat % 4 = 0) : hostReadValue s off 4 = readReg s (regAt off.toNat) := by
  simp [hostReadValue, register_not_refused hlt halign, regionOf_registers hlt]

/-- R71: an aligned 32-bit write to the register file. -/
theorem hostWrite_register {s : State} {off : HostOffset} (v : Word) (hlt : off.toNat < 0x1000)
    (halign : off.toNat % 4 = 0) : hostWrite off 4 v s = writeReg v s (regAt off.toNat) := by
  simp [hostWrite, register_not_refused hlt halign, regionOf_registers hlt]

/-- R72: the step of a host write. -/
theorem step_write {s : State} {off : HostOffset} {w : Nat} {v : Word} {rest : List Action}
    (h : s.inbox = .write off w v :: rest) : step s = .next (hostWrite off w v { s with inbox := rest }) := by
  simp [step, nextTurn, h, act]

/-- R71, R72: the step of an aligned 32-bit write to the register file. -/
theorem step_write_register {s : State} {off : HostOffset} {v : Word} {rest : List Action}
    (h : s.inbox = .write off 4 v :: rest) (hlt : off.toNat < 0x1000) (halign : off.toNat % 4 = 0) :
    step s = .next (writeReg v { s with inbox := rest } (regAt off.toNat)) := by
  rw [step_write h, hostWrite_register v hlt halign]

/-! ### CAPS and STATUS -/

theorem MState.bit_eq (m : MState) : m.bit = decide (m = .keyed) := by cases m <;> rfl

theorem Dir.bit_eq (d : Dir) : d.bit = decide (d = .dec) := by cases d <;> rfl

/-- Settles O3: the two fields of CAPS are apart, and log2(BUF_SIZE) fits its five bits. -/
theorem capsShowsTheConfiguration : Obligations.CapsShowsTheConfiguration := by
  intro s v rest hg
  have hlog : s.cfg.bufLog < 32 := by have := hg.bufLog_le; omega
  have hread : hostReadValue s 0x004 4 = capsWord s.cfg := hostReadValue_register (by decide) (by decide)
  rw [hread]
  refine ⟨?_, ?_, ?_, ?_, fun h => step_write_register h (by decide) (by decide), rfl⟩
  · simp [capsWord, extract_or]
  · simp [capsWord, extract_or]
  · simp [capsWord, extract_or, hlog]
  · simp [capsWord, extract_or]

/-- Settles O4: every field of STATUS is at its own bits, and RESLEN fits by the invariant. -/
theorem statusShowsEveryField : Obligations.StatusShowsEveryField := by
  intro s hs
  have hread : hostReadValue s 0x008 4 = statusWord s := hostReadValue_register (by decide) (by decide)
  have hres : s.ctx.res.length < 32 := by have := hs.ctx.res_le; omega
  simp only [hread]
  refine ⟨?_, ?_, ?_, ?_, ?_, ?_, ?_, ?_, ?_, ?_, ?_, ?_, ?_, ?_, ?_⟩ <;>
    simp only [statusWord, extract_or, BitVec.getLsbD_or]
  · simp
  · simp
  · simp
  · simp
  · cases s.eng.errcode <;> simp [ErrCode.code]
  · cases s.ctx.cstate <;> simp [CState.code]
  · simpa using MState.bit_eq s.mac.mstate
  · simp
  · simp
  · simp [hres]
  · cases s.ctx.mode <;> simp [Mode.code]
  · simpa using Dir.bit_eq s.ctx.dir
  · simp
  · cases s.mac.halg <;> simp [HashAlg.code]
  · simp

/-! ### The map -/

/-- R29: the offsets from 0x048 on are reserved, and a misaligned access to them is refused, so both read 0. -/
theorem reserved_register_reads_zero {s : State} {off : HostOffset} (hge : 0x048 ≤ off.toNat)
    (hlt : off.toNat < 0x1000) : hostReadValue s off 4 = 0 := by
  by_cases halign : off.toNat % 4 = 0
  · rw [hostReadValue_register hlt halign, regAt_reserved hge]; rfl
  · have hr : refused s off 4 = true := (refused_iff s off 4).mpr (.inr ⟨hlt, .inr halign⟩)
    simp [hostReadValue, hr]

theorem ctrlWord_eq (s : State) : ctrlWord s = if s.eng.ie then 1 else 0 := by
  unfold ctrlWord
  cases s.eng.ie <;> rfl

/-- Settles O5: each offset names its register. -/
theorem registerFileReadsItsMap : Obligations.RegisterFileReadsItsMap := by
  intro s
  have read := fun (off : HostOffset) => hostReadValue_register (s := s) (off := off)
  refine ⟨read _ (by decide) (by decide), (read _ (by decide) (by decide)).trans (ctrlWord_eq s), ?_⟩
  refine ⟨?_, ?_, ?_, ?_, ?_, ?_, ?_, ?_, ?_, ?_, ?_, ?_, ?_, ?_, fun _ => reserved_register_reads_zero⟩
  all_goals exact read _ (by decide) (by decide)

/-- Settles O6: each offset names its register, and a write to it is that register's. -/
theorem registerFileWritesItsMap : Obligations.RegisterFileWritesItsMap := by
  intro s off v rest h
  refine ⟨?_, ?_, ?_, ?_, ?_, ?_, ?_, ?_, ?_, ?_, ?_, ?_, ?_⟩
  · rintro (rfl | rfl | rfl | rfl | rfl | ⟨hge, hlt, halign⟩)
    case inr.inr.inr.inr.inr => rw [step_write_register h hlt halign, regAt_reserved hge]; rfl
    all_goals exact step_write_register h (by decide) (by decide)
  all_goals
    rintro rfl
    exact step_write_register h (by decide) (by decide)

/-! ### What the host may not see -/

/-- R38: no register shows a secret; of `res`, STATUS shows the length. -/
theorem readReg_withSecrets (s : State) (x : Secrets) (hres : x.res.length = s.ctx.res.length) (r : Reg) :
    readReg (s.withSecrets x) r = readReg s r := by
  cases r
  case status => simp [readReg, statusWord, State.withSecrets, hres]
  all_goals rfl

/-- Settles O13: the refusal and the window do not depend on a secret, and no register shows one. -/
theorem hostReadsShowNoSecret : Obligations.HostReadsShowNoSecret := by
  intro s x off w hres
  have hrefused : refused (s.withSecrets x) off w = refused s off w := rfl
  have hcfg : (s.withSecrets x).cfg = s.cfg := rfl
  have hram : (s.withSecrets x).ram = s.ram := rfl
  refine ⟨?_, rfl⟩
  unfold hostReadValue
  rw [hrefused, hcfg, hram]
  cases regionOf s.cfg off
  case registers => simp only [readReg_withSecrets s x hres]
  case ram | reserved => rfl

/-! ### The values after reset -/

/-- Settles O1. -/
theorem resetGivesTheTableOfValues : Obligations.ResetGivesTheTableOfValues := by
  intro g
  have read := fun (off : HostOffset) => hostReadValue_register (s := State.resetOf g) (off := off)
  refine ⟨?_, rfl, rfl, rfl, rfl, rfl, rfl, rfl, rfl, rfl, rfl, rfl, rfl, rfl, rfl, rfl, rfl, rfl, rfl, ?_,
    rfl, rfl, rfl, rfl, rfl, ?_, ?_, rfl, rfl, rfl, rfl, ?_, fun _ => rfl, rfl,
    read _ (by decide) (by decide), read _ (by decide) (by decide)⟩
  · simp [statusWord, State.resetOf, Eng.reset, CipherCtx.uninit, MacCtx.unkeyed, ErrCode.code, CState.code, MState.bit,
      Mode.code, Dir.bit, HashAlg.code]
  · intro r; cases r <;> rfl
  · intro i; simp [State.resetOf, CipherCtx.uninit]
  · intro i; simp [State.resetOf, CipherCtx.uninit]
  · intro i; simp [State.resetOf, MacCtx.unkeyed]

end Sys2Proof.Machine
end

section
/-! Whole-machine rules (spec/10_state.md R28, R37, R40, R41): which step changes the operand registers, RAM, and each
flag of the engine. -/

namespace Sys2Proof.Machine

/-! ### The operand registers and RAM -/

theorem hostRead_regs (off : HostOffset) (w : Nat) (s : State) : (hostRead off w s).regs = s.regs := by
  unfold hostRead; split <;> rfl

theorem hostRead_ram (off : HostOffset) (w : Nat) (s : State) : (hostRead off w s).ram = s.ram := by
  unfold hostRead; split <;> rfl

/-- R27: of the register writes, only those to operand registers change one. -/
theorem writeReg_regs_ne {v : Word} {s : State} {r : Reg} (h : (writeReg v s r).regs ≠ s.regs) :
    ∃ o, r = .operand o := by
  cases r
  case operand o => exact ⟨o, rfl⟩
  case cmd => exact absurd (by simp only [writeReg, writeCmd]; split <;> rfl) h
  all_goals exact absurd rfl h

theorem hostWrite_regs_ne {off : HostOffset} {w : Nat} {v : Word} {s : State}
    (h : (hostWrite off w v s).regs ≠ s.regs) : w = 4 ∧ 0x020 ≤ off.toNat ∧ off.toNat ≤ 0x044 := by
  rcases hostWrite_cases off w v s with ⟨-, e⟩ | ⟨_, -, -, -, -, -, e⟩ | ⟨-, hw, -, e⟩ | e <;> rw [e] at h
  · exact absurd rfl h
  · exact absurd rfl h
  · obtain ⟨o, ho⟩ := writeReg_regs_ne h
    exact ⟨hw, regAt_eq_operand ho⟩
  · exact absurd rfl h

theorem hostWrite_ram_ne {off : HostOffset} {w : Nat} {v : Word} {s : State}
    (h : (hostWrite off w v s).ram ≠ s.ram) :
    s.eng.busy = false ∧ 0x100000 ≤ off.toNat ∧ off.toNat < 0x100000 + s.cfg.bufSize := by
  have hbase : ramBase = 0x100000 := rfl
  rcases hostWrite_cases off w v s with ⟨-, e⟩ | ⟨a, hoff, ha, hbusy, -, -, e⟩ | ⟨-, -, -, e⟩ | e <;> rw [e] at h
  · exact absurd rfl h
  · exact ⟨hbusy, by omega, by omega⟩
  · obtain ⟨-, -, hram, -⟩ := writeReg_frame v s (regAt off.toNat)
    exact absurd hram h
  · exact absurd rfl h

theorem EngineTurn.regs {s s0 : State} (h : EngineTurn s s0) : s0.regs = s.regs := by
  rcases h with ⟨-, rfl⟩ | ⟨_, -, rfl⟩ <;> rfl

theorem EngineTurn.ram {s s0 : State} (h : EngineTurn s s0) : s0.ram = s.ram := by
  rcases h with ⟨-, rfl⟩ | ⟨_, -, rfl⟩ <;> rfl

/-- Settles O56: no read and no engine's turn changes the operand registers. -/
theorem onlyTheHostWritesOperandRegisters : Obligations.OnlyTheHostWritesOperandRegisters := by
  intro s t h hregs
  rcases step_cases h with ⟨off, w, rest, -, rfl⟩ | ⟨off, w, v, rest, hi, rfl⟩ | ⟨rest, hi, -⟩ | ⟨s0, hturn, hengine⟩
  · exact absurd (hostRead_regs off w _) hregs
  · obtain ⟨rfl, hoff⟩ := hostWrite_regs_ne hregs
    exact ⟨rest, .inr ⟨off, v, hoff.1, hoff.2, hi⟩⟩
  · exact ⟨rest, .inl hi⟩
  · refine absurd (Eq.trans ?_ hturn.regs) hregs
    rcases hengine with ⟨-, rfl⟩ | ⟨-, i, -, hexec⟩ | ⟨-, _, -, rfl⟩
    · rfl
    · exact (exec_ended hexec).rest.regs
    · rfl

/-- The engine's turn comes next: it is marked, or nothing else is to come (log 1). -/
def State.TurnNext (s : State) : Prop := s.inbox = [] ∨ ∃ rest, s.inbox = .engine :: rest

theorem EngineTurn.turnNext {s s0 : State} (h : EngineTurn s s0) : s.TurnNext :=
  h.imp And.left fun ⟨rest, hi, _⟩ => ⟨rest, hi⟩

/-- Settles O57: of the host's accesses a write in the window, of the engine's turns a command that writes. -/
theorem onlyTheseEventsChangeRam : Obligations.OnlyTheseEventsChangeRam := by
  intro s t h hram
  rcases step_cases h with ⟨off, w, rest, -, rfl⟩ | ⟨off, w, v, rest, hi, rfl⟩ | ⟨rest, hi, -⟩ | ⟨s0, hturn, hengine⟩
  · exact absurd (hostRead_ram off w _) hram
  · obtain ⟨hbusy, hoff⟩ := hostWrite_ram_ne hram
    exact .inr (.inl ⟨hbusy, off, w, v, rest, hi, hoff⟩)
  · exact .inl ⟨rest, hi⟩
  · rw [← hturn.ram] at hram
    rcases hengine with ⟨-, rfl⟩ | ⟨hbusy, i, hdecode, hexec⟩ | ⟨-, _, -, rfl⟩
    · exact absurd rfl hram
    · obtain ⟨hok, hdone, hwrites⟩ := exec_ram_ne hexec hram
      exact .inr (.inr ⟨hbusy, hturn.turnNext, hok, hdone, i, hdecode, hwrites⟩)
    · exact absurd rfl hram

/-! ### The engine -/

/-- R37: what a step other than a reset makes of the engine state, one constructor for each kind of step. -/
inductive EngStep (s : State) : Eng → Prop
  | idleTurn (hturn : s.TurnNext) (hbusy : s.eng.busy = false) : EngStep s s.eng
  | ended {e : Eng} (hturn : s.TurnNext) (hbusy : s.eng.busy = true) (hend : s.eng.Ended e) : EngStep s e
  | refusedRead {off : HostOffset} {w : Nat} {rest : List Action} (hi : s.inbox = .read off w :: rest)
      (hrefused : RefusedAccess s off w) : EngStep s { s.eng with accessErr := true }
  | refusedWrite {off : HostOffset} {w : Nat} {v : Word} {rest : List Action} (hi : s.inbox = .write off w v :: rest)
      (hrefused : RefusedAccess s off w) : EngStep s { s.eng with accessErr := true }
  | read {off : HostOffset} {w : Nat} {rest : List Action} (hi : s.inbox = .read off w :: rest)
      (hrefused : ¬RefusedAccess s off w) : EngStep s s.eng
  | writeStatus {v : Word} {rest : List Action} (hi : s.inbox = .write 0x008 4 v :: rest) :
      EngStep s (clearStatus v s).eng
  | writeCtrl {v : Word} {rest : List Action} (hi : s.inbox = .write 0x00C 4 v :: rest) :
      EngStep s (writeCtrl v s).eng
  | acceptCmd {w : Word} {rest : List Action} (hi : s.inbox = .write 0x010 4 w :: rest) (hbusy : s.eng.busy = false) :
      EngStep s (accept w s).eng
  | dropCmd {w : Word} {rest : List Action} (hi : s.inbox = .write 0x010 4 w :: rest) (hbusy : s.eng.busy = true) :
      EngStep s { s.eng with overrun := true }
  | otherWrite {off : HostOffset} {w : Nat} {v : Word} {rest : List Action} (hi : s.inbox = .write off w v :: rest)
      (hrefused : ¬RefusedAccess s off w) (hstatus : off ≠ 8#21) (hcmd : off ≠ 16#21) : EngStep s s.eng

theorem writeReg_eng_of_ne {v : Word} {s : State} {r : Reg} (hstatus : r ≠ .status) (hctrl : r ≠ .ctrl)
    (hcmd : r ≠ .cmd) : (writeReg v s r).eng = s.eng := by
  cases r
  case status => exact absurd rfl hstatus
  case ctrl => exact absurd rfl hctrl
  case cmd => exact absurd rfl hcmd
  all_goals rfl

theorem hostRead_eng {off : HostOffset} {w : Nat} {s : State} :
    (hostRead off w s).eng = if refused s off w then { s.eng with accessErr := true } else s.eng := by
  unfold hostRead; split <;> rfl

theorem hostWrite_refused {off : HostOffset} {w : Nat} {v : Word} {s : State} (h : RefusedAccess s off w) :
    hostWrite off w v s = noteRefusal s := by
  simp [hostWrite, (refused_iff s off w).mpr h]

/-- R68: an access to the register file that is not refused is an aligned one of 32 bits. -/
theorem register_access_aligned {s : State} {off : HostOffset} {w : Nat} (hlt : off.toNat < 0x1000)
    (h : ¬RefusedAccess s off w) : w = 4 ∧ off.toNat % 4 = 0 := by
  have hpair : ¬(w ≠ 4 ∨ off.toNat % 4 ≠ 0) := fun hn => h (.inr ⟨hlt, hn⟩)
  omega

/-- R61, R62: a write beyond the register file that is not refused leaves the engine state. -/
theorem hostWrite_eng_beyond {off : HostOffset} {w : Nat} {v : Word} {s : State} (hge : 0x1000 ≤ off.toNat)
    (h : ¬RefusedAccess s off w) : (hostWrite off w v s).eng = s.eng := by
  rcases hostWrite_cases off w v s with ⟨hr, -⟩ | ⟨_, -, -, -, -, -, e⟩ | ⟨hlt, -⟩ | e
  · exact absurd ((refused_iff s off w).mp hr) h
  · rw [e]
  · omega
  · rw [e]

theorem hostWrite_engStep {s : State} {off : HostOffset} {w : Nat} {v : Word} {rest : List Action}
    (hi : s.inbox = .write off w v :: rest) : EngStep s (hostWrite off w v { s with inbox := rest }).eng := by
  by_cases hr : RefusedAccess s off w
  · rw [hostWrite_refused (s := { s with inbox := rest }) hr]
    exact .refusedWrite hi hr
  by_cases hlt : off.toNat < 0x1000
  · obtain ⟨rfl, halign⟩ := register_access_aligned hlt hr
    rw [hostWrite_register v hlt halign]
    by_cases hstatus : off = 0x008
    · subst hstatus; exact .writeStatus hi
    by_cases hctrl : off = 0x00C
    · subst hctrl; exact .writeCtrl hi
    by_cases hcmd : off = 0x010
    · subst hcmd
      cases hbusy : s.eng.busy with
      | false => simpa [writeReg, writeCmd, regAt, hbusy] using EngStep.acceptCmd hi hbusy
      | true => simpa [writeReg, writeCmd, regAt, hbusy] using EngStep.dropCmd hi hbusy
    · rw [writeReg_eng_of_ne (fun h => hstatus (BitVec.eq_of_toNat_eq (regAt_eq_status h)))
        (fun h => hctrl (BitVec.eq_of_toNat_eq (regAt_eq_ctrl h)))
        (fun h => hcmd (BitVec.eq_of_toNat_eq (regAt_eq_cmd h)))]
      exact .otherWrite hi hr hstatus hcmd
  · rw [hostWrite_eng_beyond (s := { s with inbox := rest }) (Nat.not_lt.mp hlt) hr]
    exact .otherWrite hi hr (by rintro rfl; exact hlt (by decide)) (by rintro rfl; exact hlt (by decide))

/-- Every step other than a reset is of one of these kinds. -/
theorem step_engStep {s t : State} (h : step s = .next t) (hreset : ∀ rest, s.inbox ≠ .reset :: rest) :
    EngStep s t.eng := by
  rcases step_cases h with ⟨off, w, rest, hi, rfl⟩ | ⟨off, w, v, rest, hi, rfl⟩ | ⟨rest, hi, -⟩ | ⟨s0, hturn, hengine⟩
  · rw [hostRead_eng]
    split
    next hr => exact .refusedRead hi ((refused_iff _ off w).mp hr)
    next hr => exact .read hi fun hr' => hr ((refused_iff _ off w).mpr hr')
  · exact hostWrite_engStep hi
  · exact absurd hi (hreset rest)
  · have heng := hturn.eng
    rcases hengine with ⟨hbusy, rfl⟩ | ⟨hbusy, i, -, hexec⟩ | ⟨hbusy, _, -, rfl⟩
    · rw [heng]; exact .idleTurn hturn.turnNext hbusy
    · exact .ended hturn.turnNext hbusy (heng ▸ (exec_ended hexec).eng)
    · exact .ended hturn.turnNext hbusy (heng ▸ (illegalCommand_ended s0).eng)

/-! ### The flags -/

/-- R68: an aligned 32-bit access to the register file is not refused. -/
theorem register_access_not_refused (s : State) {off : HostOffset} (hlt : off.toNat < 0x1000)
    (halign : off.toNat % 4 = 0) : ¬RefusedAccess s off 4 := by
  rw [← refused_iff, register_not_refused hlt halign]; decide

theorem status_access_not_refused (s : State) : ¬RefusedAccess s 8#21 4 :=
  register_access_not_refused s (by decide) (by decide)

theorem ctrl_access_not_refused (s : State) : ¬RefusedAccess s 12#21 4 :=
  register_access_not_refused s (by decide) (by decide)

theorem cmd_access_not_refused (s : State) : ¬RefusedAccess s 16#21 4 :=
  register_access_not_refused s (by decide) (by decide)

/-- R245, R246: what the end of a command makes of the flags. -/
theorem Eng.Ended.flags {e f : Eng} (h : e.Ended f) :
    f.busy = false ∧ f.done = true ∧ f.overrun = e.overrun ∧ f.accessErr = e.accessErr ∧ f.ie = e.ie := by
  rcases h with ⟨_, rfl⟩ | ⟨_, -, rfl⟩ <;> exact ⟨rfl, rfl, rfl, rfl, rfl⟩

/-- Settles O58: each kind of step, with what it leaves of the engine state. -/
theorem flagsChangeOnlyAsSaid : Obligations.FlagsChangeOnlyAsSaid := by
  intro s t h hreset
  have hstep := step_engStep h hreset
  generalize t.eng = e at hstep ⊢
  dsimp only
  cases hstep with
  | idleTurn hturn hbusy => rcases hturn with hi | ⟨_, hi⟩ <;> simp [hi, hbusy]
  | ended hturn hbusy hend =>
    obtain ⟨hidle, hdone, hoverrun, haccess, -⟩ := hend.flags
    have hend' : (∃ n, e = s.eng.completed n) ∨ ∃ c, c ≠ .ok ∧ e = s.eng.failed c := hend
    rcases hturn with hi | ⟨_, hi⟩ <;> simp [hi, hbusy, hidle, hdone, hoverrun, haccess, hend']
  | refusedRead hi hrefused => simp [hi, hrefused]
  | @refusedWrite off w _ _ hi hrefused =>
    have hstatus : off = 8#21 → w ≠ 4 := by
      rintro rfl rfl; exact status_access_not_refused s hrefused
    have hcmd : off = 16#21 → w ≠ 4 := by
      rintro rfl rfl; exact cmd_access_not_refused s hrefused
    simp +contextual [hi, hrefused, hstatus, hcmd]
  | read hi hrefused => simp [hi, hrefused]
  | writeStatus hi => simp +contextual [hi, status_access_not_refused]
  | writeCtrl hi => simp +contextual [hi, ctrl_access_not_refused]
  | acceptCmd hi hbusy => simp +contextual [hi, hbusy, cmd_access_not_refused]
  | dropCmd hi hbusy => simp +contextual [hi, hbusy, cmd_access_not_refused]
  | otherWrite hi hrefused hstatus hcmd => simp +contextual [hi, hrefused, hstatus, hcmd]

/-! ### The interrupt -/

/-- R285: the engine's turn on an accepted word. -/
theorem completionStep_ended {s t : State} (hbusy : s.eng.busy = true) (h : completionStep s = .next t) :
    Ended s t := by
  simp only [completionStep, hbusy] at h
  cases hdecode : decode s.eng.cmd with
  | ok i => exact exec_ended (by simpa only [hdecode] using h)
  | error e =>
    obtain rfl : illegalCommand s = t := by simpa only [hdecode, Host.Outcome.next.injEq] using h
    exact illegalCommand_ended s

theorem step_engine {s : State} {rest : List Action} (hi : s.inbox = .engine :: rest) :
    step s = completionStep { s with inbox := rest } := by
  simp [step, nextTurn, hi, act]

/-- Settles O14: DONE after a write of STATUS, after acceptance, and after the engine's turn. -/
theorem interruptFollowsDone : Obligations.InterruptFollowsDone := by
  intro s t rest h
  refine ⟨rfl, ?_, ?_, ?_⟩
  · intro v hi hbit
    cases h.symm.trans (step_write_register hi (by decide) (by decide))
    simpa [State.irq, regAt, writeReg] using fun _ _ => hbit
  · intro w hi hbusy
    cases h.symm.trans (step_write_register hi (by decide) (by decide))
    simp [State.irq, regAt, writeReg, writeCmd, hbusy]
  · intro hi hbusy
    rw [step_engine hi] at h
    have hend := completionStep_ended (s := { s with inbox := rest }) hbusy h
    obtain ⟨-, hdone, -, -, hie⟩ := hend.eng.flags
    simp [State.irq, hie, hdone]

end Sys2Proof.Machine
end

section
/-! The host port's address space (spec/20_memory.md R61, R62, R68, R71): the little-endian view of the RAM window, the
reserved regions, and what a refused access and a read change. -/

namespace Sys2Proof.Machine

/-! ### The step of a host read -/

/-- R72: the step of a host read. -/
theorem step_read {s : State} {off : HostOffset} {w : Nat} {rest : List Action}
    (h : s.inbox = .read off w :: rest) : step s = .next (hostRead off w { s with inbox := rest }) := by
  simp [step, nextTurn, h, act]

/-- R68: a refused read. -/
theorem hostRead_refused {s : State} {off : HostOffset} {w : Nat} (h : RefusedAccess s off w) :
    hostRead off w s = { noteRefusal s with rdata := 0 } := by
  simp [hostRead, (refused_iff s off w).mpr h]

/-- R71: a read that is not refused. -/
theorem hostRead_not_refused {s : State} {off : HostOffset} {w : Nat} (h : ¬RefusedAccess s off w) :
    hostRead off w s = { s with rdata := hostReadValue s off w } := by
  simp [hostRead, mt (refused_iff s off w).mp h]

theorem hostReadValue_refused {s : State} {off : HostOffset} {w : Nat} (h : RefusedAccess s off w) :
    hostReadValue s off w = 0 := by
  simp [hostReadValue, (refused_iff s off w).mpr h]

/-! ### The reserved regions -/

/-- R61: an access to a reserved region is not refused, whatever its width. -/
theorem reserved_not_refused {s : State} {off : HostOffset} (w : Nat) (h : regionOf s.cfg off = .reserved) :
    refused s off w = false := by
  simp [refused, h]

theorem hostRead_reserved {s : State} {off : HostOffset} (w : Nat) (h : regionOf s.cfg off = .reserved) :
    hostRead off w s = { s with rdata := 0 } := by
  simp [hostRead, hostReadValue, reserved_not_refused w h, h]

theorem hostWrite_reserved {s : State} {off : HostOffset} (w : Nat) (v : Word)
    (h : regionOf s.cfg off = .reserved) : hostWrite off w v s = s := by
  simp [hostWrite, reserved_not_refused w h, h]

/-! ### The little-endian view -/

/-- Bits of a word, cut out of a number that it holds. -/
theorem extractLsb'_ofNat {n lo len : Nat} (hn : n < 2 ^ 32) :
    (BitVec.ofNat 32 n).extractLsb' lo len = BitVec.ofNat len (n >>> lo) := by
  rw [BitVec.extractLsb', BitVec.toNat_ofNat, Nat.mod_eq_of_lt hn]

section Window

variable {s : State} {off : HostOffset} {a w : Nat} (hbusy : s.eng.busy = false) (hw : w = 1 ∨ w = 2 ∨ w = 4)
  (hoff : off.toNat = ramBase + a) (halign : off.toNat % w = 0)
include hbusy hw hoff halign

/-- R68: an aligned access of 1, 2 or 4 bytes to the window of an idle engine is not refused. -/
theorem window_not_refused : refused s off w = false := by
  rw [Bool.eq_false_iff, Ne, refused_iff]
  rintro (⟨-, -, hb | hn | hn⟩ | ⟨hlt, -⟩)
  · simp [hbusy] at hb
  · exact hn hw
  · exact hn halign
  · simp only [ramBase] at hoff; omega

variable (ha : a < s.cfg.bufSize)
include ha

theorem hostReadValue_window : hostReadValue s off w = BitVec.ofNat 32 (leValue (memRead s.ram a w)) := by
  simp [hostReadValue, window_not_refused hbusy hw hoff halign, regionOf_ram hoff ha]

theorem hostWrite_window (v : Word) :
    hostWrite off w v s = { s with ram := memWrite s.ram a (leBytes w v.toNat) } := by
  simp [hostWrite, window_not_refused hbusy hw hoff halign, regionOf_ram hoff ha]

end Window

/-- R62: the bytes of an access make a number below 2^(8w). -/
theorem leValue_memRead_lt (m : Memory) (a w : Nat) : leValue (memRead m a w) < 2 ^ (8 * w) := by
  simpa using leValue_lt (memRead m a w)

/-- R62: byte a + i is bits [8i+7:8i] of the word read at a. -/
theorem leValue_memRead_byte {m : Memory} {a w i : Nat} (hw : w ≤ 4) (hi : i < w) :
    (BitVec.ofNat 32 (leValue (memRead m a w))).extractLsb' (8 * i) 8 = readByte m (a + i) := by
  have hlt : leValue (memRead m a w) < 2 ^ 32 :=
    (leValue_memRead_lt m a w).trans_le (Nat.pow_le_pow_right (by decide) (by omega))
  rw [extractLsb'_ofNat hlt, leValue_byte, memRead_getD m a w i hi]

/-- R62: bits [8i+7:8i] of the value written at a are byte a + i afterwards. -/
theorem readByte_memWrite_leBytes (m : Memory) (a : Nat) {w i : Nat} (v : Word) (hi : i < w) :
    readByte (memWrite m a (leBytes w v.toNat)) (a + i) = v.extractLsb' (8 * i) 8 := by
  rw [readByte_memWrite, leBytes_length, if_pos (by omega), Nat.add_sub_cancel_left, leBytes_getD w _ i hi]
  rfl

/-- Settles O7: the value read is the bytes' little-endian value, and the bytes written are the value's. -/
theorem windowIsLittleEndian : Obligations.WindowIsLittleEndian := by
  intro s off a w v rest hbusy hw hoff halign ha
  have hle : w ≤ 4 := by omega
  have hpow : 2 ^ (8 * w) ≤ 2 ^ 32 := Nat.pow_le_pow_right (by decide) (by omega)
  have hlt := leValue_memRead_lt s.ram a w
  rw [hostReadValue_window hbusy hw hoff halign ha]
  refine ⟨fun i hi => leValue_memRead_byte hle hi, ?_, fun hinbox => ?_⟩
  · rwa [BitVec.toNat_ofNat, Nat.mod_eq_of_lt (hlt.trans_le hpow)]
  · have hwrite := hostWrite_window (s := { s with inbox := rest }) hbusy hw hoff halign ha v
    refine ⟨_, (step_write hinbox).trans (congrArg _ hwrite), fun i hi => ?_, fun x hx => ?_, rfl⟩
    · exact readByte_memWrite_leBytes s.ram a v hi
    · exact readByte_memWrite_outside (by simpa using hx)

/-! ### What an access changes besides -/

/-- Settles O8: each access takes its refused branch, whose whole next state is the one claimed. -/
theorem refusedAccessesSetAccessErrOnly : Obligations.RefusedAccessesSetAccessErrOnly := by
  intro s off w v rest hrefused
  refine ⟨fun h => ?_, fun h => ?_⟩
  · rw [step_read h, hostRead_refused (s := { s with inbox := rest }) hrefused]; rfl
  · rw [step_write h, hostWrite_refused (s := { s with inbox := rest }) hrefused]; rfl

/-- Settles O9: the offset's region is reserved, whatever the width. -/
theorem reservedOffsetsReadZeroAndIgnoreWrites : Obligations.ReservedOffsetsReadZeroAndIgnoreWrites := by
  intro s off w v rest hoff
  have hregion : regionOf s.cfg off = .reserved := regionOf_reserved hoff
  refine ⟨fun h => ?_, fun h => ?_⟩
  · rw [step_read h, hostRead_reserved (s := { s with inbox := rest }) w hregion]
  · rw [step_write h, hostWrite_reserved (s := { s with inbox := rest }) w v hregion]

/-- Settles O10: by whether the read is refused; the value it returns does not depend on what is still to come. -/
theorem readsHaveNoSideEffect : Obligations.ReadsHaveNoSideEffect := by
  intro s off w rest h
  refine ⟨_, step_read h, ?_⟩
  by_cases hr : RefusedAccess s off w
  · rw [hostRead_refused (s := { s with inbox := rest }) hr]
    exact ⟨(hostReadValue_refused hr).symm, rfl, rfl, rfl, rfl, rfl, rfl, fun _ => ⟨rfl, rfl⟩,
      fun hn => absurd hr hn⟩
  · rw [hostRead_not_refused (s := { s with inbox := rest }) hr]
    exact ⟨rfl, rfl, rfl, rfl, rfl, rfl, rfl, fun hr' => absurd hr' hr, fun _ => rfl⟩

end Sys2Proof.Machine
end

section
/-! Command words (spec/30_encoding.md R90, R97, R99). A word is the values of its eight fields, and a command is the
values it puts there: decoding finds the one command whose values are the word's, and encoding is its inverse. -/

namespace Sys2Proof

/-! ### The fields of a word -/

theorem bitField_lt (lo len : Nat) (w : Word) : bitField lo len w < 2 ^ len := BitVec.isLt _

theorem bitField_and (lo len : Nat) (a b : Word) :
    bitField lo len (a &&& b) = bitField lo len a &&& bitField lo len b := by
  simp [bitField, BitVec.extractLsb'_and]

/-- R99: a field that the mask keeps whole is the field of the masked word. -/
theorem bitField_of_and_eq {w mask masked : Word} (h : w &&& mask = masked) {lo len : Nat}
    (hmask : bitField lo len mask = 2 ^ len - 1) : bitField lo len w = bitField lo len masked := by
  rw [← h, bitField_and, hmask, Nat.and_two_pow_sub_one_of_lt_two_pow (bitField_lt lo len w)]

/-- R11: a field is made of the field of its low bits and the field of the bits above them. -/
theorem bitField_add (lo m n : Nat) (w : Word) :
    bitField lo (m + n) w = bitField lo m w + 2 ^ m * bitField (lo + m) n w := by
  simp only [bitField, BitVec.extractLsb'_toNat, Nat.shiftRight_add, Nat.shiftRight_eq_div_pow _ m, Nat.pow_add]
  exact Nat.mod_mul

theorem bitField_all (w : Word) : bitField 0 32 w = w.toNat := by simp [bitField, BitVec.extractLsb'_eq_self]

/-- R94: a field of one bit is the bit. -/
theorem bitField_one (n : Nat) (w : Word) : bitField n 1 w = (w.getLsbD n).toNat := by
  rw [bitField, BitVec.extractLsb'_toNat, BitVec.getLsbD, Nat.toNat_testBit, Nat.shiftRight_eq_div_pow, pow_one]

theorem bitField_one_eq_iff {n : Nat} {w : Word} {b : Bool} : bitField n 1 w = b.toNat ↔ w.getLsbD n = b := by
  rw [bitField_one]
  cases w.getLsbD n <;> cases b <;> decide

/-- R90: the value of each field of a word, the reserved ones included. -/
structure WordFields where
  op : Nat
  mode : Nat := 0
  reserved7 : Nat := 0
  ksz : Nat := 0
  dir : Nat := 0
  pad : Nat := 0
  halg : Nat := 0
  reservedHigh : Nat := 0

/-- R90: the field values of a word. -/
def fieldsOf (w : Word) : WordFields where
  op := bitField 0 4 w
  mode := bitField 4 3 w
  reserved7 := bitField 7 1 w
  ksz := bitField 8 2 w
  dir := bitField 10 1 w
  pad := bitField 11 1 w
  halg := bitField 12 3 w
  reservedHigh := bitField 15 17 w

/-- R90: the fields are every bit of the word. -/
theorem toNat_eq_fieldsOf (w : Word) : w.toNat = (fieldsOf w).op + 2 ^ 4 * ((fieldsOf w).mode +
    2 ^ 3 * ((fieldsOf w).reserved7 + 2 ^ 1 * ((fieldsOf w).ksz + 2 ^ 2 * ((fieldsOf w).dir +
    2 ^ 1 * ((fieldsOf w).pad + 2 ^ 1 * ((fieldsOf w).halg + 2 ^ 3 * (fieldsOf w).reservedHigh)))))) := by
  rw [← bitField_all, bitField_add 0 4 28, bitField_add 4 3 25, bitField_add 7 1 24, bitField_add 8 2 22,
    bitField_add 10 1 21, bitField_add 11 1 20, bitField_add 12 3 17]
  rfl

theorem fieldsOf_injective : Function.Injective fieldsOf := fun a b h =>
  BitVec.eq_of_toNat_eq (by rw [toNat_eq_fieldsOf a, toNat_eq_fieldsOf b, h])

/-- R97: bits [11:4] are the fields of CIPHER_INIT and bit 7. -/
theorem cipherInit_bits_zero (w : Word) : bitField 4 8 w = 0 ↔ bitField 4 3 w = 0 ∧ bitField 7 1 w = 0 ∧
    bitField 8 2 w = 0 ∧ bitField 10 1 w = 0 ∧ bitField 11 1 w = 0 := by
  have hsplit : bitField 4 8 w = bitField 4 3 w + 2 ^ 3 * (bitField 7 1 w + 2 ^ 1 * (bitField 8 2 w +
      2 ^ 2 * (bitField 10 1 w + 2 ^ 1 * bitField 11 1 w))) := by
    rw [bitField_add 4 3 5, bitField_add 7 1 4, bitField_add 8 2 2, bitField_add 10 1 1]
  omega

/-- R97: bits [14:4] are the fields of CIPHER_INIT, bit 7, and HALG. -/
theorem operand_bits_zero (w : Word) : bitField 4 11 w = 0 ↔ bitField 4 8 w = 0 ∧ bitField 12 3 w = 0 := by
  have hsplit : bitField 4 11 w = bitField 4 8 w + 2 ^ 8 * bitField 12 3 w := bitField_add 4 8 3 w
  omega

/-! ### The fields of a command -/

/-- R90, R91: the field values of a command; a field that it does not use is 0. -/
def commandFields (i : Instr) : WordFields :=
  match i with
  | .cipherInit mode ksz dir pad =>
    { op := opcodeOf i, mode := mode, ksz := ksz, dir := dir.bit.toNat, pad := pad.toNat }
  | .macSetkey halg | .kdfDerive halg => { op := opcodeOf i, halg := halg }
  | _ => { op := opcodeOf i }

/-- R90: OP fits its field. -/
theorem opcodeOf_lt (i : Instr) : opcodeOf i < 2 ^ 4 := by cases i <;> simp [opcodeOf]

/-- R91: OP is the command's. -/
theorem commandFields_op (i : Instr) : (commandFields i).op = opcodeOf i := by cases i <;> rfl

/-- R90: the reserved bits of a command are 0. -/
theorem commandFields_reserved (i : Instr) :
    (commandFields i).reserved7 = 0 ∧ (commandFields i).reservedHigh = 0 := by
  cases i <;> exact ⟨rfl, rfl⟩

theorem wellFormed_cipherInit {mode ksz : Nat} {dir : Dir} {pad : Bool} :
    WellFormed (.cipherInit mode ksz dir pad) ↔ mode < 2 ^ 3 ∧ ksz < 2 ^ 2 := by
  simp [WellFormed, wellFormed, modeFits, kszFits]

theorem wellFormed_macSetkey {halg : Nat} : WellFormed (.macSetkey halg) ↔ halg < 2 ^ 3 := by
  simp [WellFormed, wellFormed, halgFits]

theorem wellFormed_kdfDerive {halg : Nat} : WellFormed (.kdfDerive halg) ↔ halg < 2 ^ 3 := by
  simp [WellFormed, wellFormed, halgFits]

/-- R90: the values in a word fit their fields. -/
theorem wellFormed_of_fieldsOf {w : Word} {i : Instr} (h : fieldsOf w = commandFields i) : WellFormed i := by
  cases i with
  | cipherInit mode ksz dir pad =>
    obtain rfl : bitField 4 3 w = mode := congrArg WordFields.mode h
    obtain rfl : bitField 8 2 w = ksz := congrArg WordFields.ksz h
    exact wellFormed_cipherInit.mpr ⟨bitField_lt 4 3 w, bitField_lt 8 2 w⟩
  | macSetkey halg =>
    obtain rfl : bitField 12 3 w = halg := congrArg WordFields.halg h
    exact wellFormed_macSetkey.mpr (bitField_lt 12 3 w)
  | kdfDerive halg =>
    obtain rfl : bitField 12 3 w = halg := congrArg WordFields.halg h
    exact wellFormed_kdfDerive.mpr (bitField_lt 12 3 w)
  | _ => rfl

/-! ### Encoding -/

/-- R90: a value that fits its field stands as the field of a register word does. -/
theorem atBit_eq_regField {lo v : Nat} (len : Nat) (hv : v < 2 ^ len) :
    atBit lo v = Machine.regField lo len v := by
  have hsame : BitVec.ofNat 32 v = (BitVec.ofNat len v).setWidth 32 :=
    BitVec.eq_of_toNat_eq (by simp [Nat.mod_eq_of_lt hv])
  rw [atBit, hsame, Machine.regField]

/-- R93: OP and HALG are all that the word of a HALG command holds. -/
theorem fieldsOf_op_or_halg {op halg : Nat} (hop : op < 2 ^ 4) (hhalg : halg < 2 ^ 3) :
    fieldsOf (atBit 0 op ||| atBit 12 halg) = { op := op, halg := halg } := by
  rw [atBit_eq_regField 4 hop, atBit_eq_regField 3 hhalg]
  simpa [fieldsOf, bitField, Machine.extract_or, Nat.mod_eq_of_lt] using And.intro hop hhalg

/-- R90: the word of a well-formed command holds the command's field values and nothing else. -/
theorem fieldsOf_encode {i : Instr} (h : WellFormed i) : fieldsOf (encode i) = commandFields i := by
  cases i with
  | cipherInit mode ksz dir pad =>
    obtain ⟨hmode, hksz⟩ := wellFormed_cipherInit.mp h
    rw [encode, operandBits, atBit_eq_regField 4 (opcodeOf_lt _), atBit_eq_regField 3 hmode,
      atBit_eq_regField 2 hksz, atBit_eq_regField 1 dir.bit.toNat_lt, atBit_eq_regField 1 pad.toNat_lt]
    simpa [fieldsOf, commandFields, opcodeOf, bitField, Machine.extract_or, Nat.mod_eq_of_lt, Bool.toNat_le]
      using And.intro hmode hksz
  | macSetkey halg => exact fieldsOf_op_or_halg (opcodeOf_lt _) (wellFormed_macSetkey.mp h)
  | kdfDerive halg => exact fieldsOf_op_or_halg (opcodeOf_lt _) (wellFormed_kdfDerive.mp h)
  | _ => rfl

/-! ### Decoding -/

/-- R97: a decoder that checks the unused fields answers its command exactly when the check passes. -/
theorem checked_ok {p : Prop} [Decidable p] {i j : Instr} {e : DecodeError} :
    (if p then .ok i else .error e : Except DecodeError Instr) = .ok j ↔ p ∧ i = j := by
  split <;> simp [*]

/-- R97: a legal word has its reserved bits 0. -/
theorem decode_ok_reserved {w : Word} {i : Instr} (h : decode w = .ok i) :
    bitField 15 17 w = 0 ∧ bitField 7 1 w = 0 := by
  unfold decode at h
  split at h
  next => cases h
  next hclear =>
    obtain ⟨hhigh, hbit7⟩ := not_or.mp hclear
    exact ⟨not_not.mp hhigh, by rw [bitField_one, Bool.eq_false_of_not_eq_true hbit7]; rfl⟩

/-- R94: DIR is read as the direction that it is written for. -/
theorem Dir.ofBit_eq_iff (b : Bool) (d : Dir) : Dir.ofBit b = d ↔ b = d.bit := by
  cases b <;> cases d <;> decide

section ReservedClear
variable {w : Word} (hhigh : bitField 15 17 w = 0) (hbit7 : bitField 7 1 w = 0)
include hhigh hbit7

theorem decodePlain_ok {i j : Instr} :
    decodePlain w i = .ok j ↔ fieldsOf w = { op := bitField 0 4 w } ∧ i = j := by
  simp [decodePlain, checked_ok, fieldsOf, operand_bits_zero, cipherInit_bits_zero, hhigh, hbit7, and_assoc]

theorem decodeHalg_ok {f : Nat → Instr} {j : Instr} :
    decodeHalg w f = .ok j ↔
      fieldsOf w = { op := bitField 0 4 w, halg := bitField 12 3 w } ∧ f (bitField 12 3 w) = j := by
  simp [decodeHalg, checked_ok, fieldsOf, cipherInit_bits_zero, hhigh, hbit7, and_assoc]

theorem decodeCipherInit_ok {mode ksz : Nat} {dir : Dir} {pad : Bool} :
    decodeCipherInit w = .ok (.cipherInit mode ksz dir pad) ↔ fieldsOf w =
      { op := bitField 0 4 w, mode := mode, ksz := ksz, dir := dir.bit.toNat, pad := pad.toNat } := by
  rw [decodeCipherInit, checked_ok, Instr.cipherInit.injEq, Dir.ofBit_eq_iff, ← bitField_one_eq_iff,
    ← bitField_one_eq_iff]
  simp only [fieldsOf, WordFields.mk.injEq, hhigh, hbit7]
  tauto

end ReservedClear

/-- R97: what a word decodes to has the word's field values. -/
theorem fieldsOf_of_decode {w : Word} {i : Instr} (h : decode w = .ok i) : fieldsOf w = commandFields i := by
  obtain ⟨hhigh, hbit7⟩ := decode_ok_reserved h
  unfold decode at h
  split at h
  next => cases h
  split at h
  case h_2 hop =>
    obtain ⟨-, rfl⟩ := checked_ok.mp h
    rw [(decodeCipherInit_ok hhigh hbit7).mp h, hop]; rfl
  case h_6 hop | h_9 hop =>
    obtain ⟨hfields, rfl⟩ := (decodeHalg_ok hhigh hbit7).mp h
    rw [hfields, hop]; rfl
  case h_12 => cases h
  all_goals
    next hop =>
    obtain ⟨hfields, rfl⟩ := (decodePlain_ok hhigh hbit7).mp h
    rw [hfields, hop]; rfl

/-- R97: a word with a command's field values decodes to it. -/
theorem decode_of_fieldsOf {w : Word} {i : Instr} (h : fieldsOf w = commandFields i) : decode w = .ok i := by
  have hop : bitField 0 4 w = opcodeOf i := (congrArg WordFields.op h).trans (commandFields_op i)
  obtain ⟨hreserved7, hreservedHigh⟩ := commandFields_reserved i
  have hbit7 : bitField 7 1 w = 0 := (congrArg WordFields.reserved7 h).trans hreserved7
  have hhigh : bitField 15 17 w = 0 := (congrArg WordFields.reservedHigh h).trans hreservedHigh
  have hclear : ¬(bitField 15 17 w ≠ 0 ∨ w.getLsbD 7 = true) := by
    simpa [hhigh, bitField_one] using hbit7
  rw [decode, if_neg hclear, hop]
  cases i with
  | cipherInit mode ksz dir pad => exact (decodeCipherInit_ok hhigh hbit7).mpr (by rw [hop]; exact h)
  | macSetkey halg | kdfDerive halg =>
    have hhalg : bitField 12 3 w = halg := congrArg WordFields.halg h
    exact (decodeHalg_ok hhigh hbit7).mpr ⟨by rw [hop, hhalg]; exact h, by rw [hhalg]⟩
  | _ => exact (decodePlain_ok hhigh hbit7).mpr ⟨by rw [hop]; exact h, rfl⟩

/-- Settles O16: the word holds the command's field values. -/
theorem decodeReadsBackEncode : Obligations.DecodeReadsBackEncode :=
  fun _ hi => decode_of_fieldsOf (fieldsOf_encode hi)

/-- Settles O17: the word and the encoding hold the same field values. -/
theorem legalWordsAreEncodings : Obligations.LegalWordsAreEncodings := by
  intro w i h
  have hfields := fieldsOf_of_decode h
  have hi : WellFormed i := wellFormed_of_fieldsOf hfields
  exact ⟨hi, fieldsOf_injective ((fieldsOf_encode hi).trans hfields.symm)⟩

/-! ### The opcode map -/

/-- R99: a word that decodes to a command selects the command's row. -/
theorem selects_of_decode {w : Word} {i : Instr} (hrow : Laws.RowMatch.Statement i) (h : decode w = .ok i) :
    w &&& rowMask i = rowMatch i := by
  obtain ⟨hi, rfl⟩ := legalWordsAreEncodings w i h
  exact (hrow hi).1

/-- R99: a row whose mask keeps every bit selects the command's word alone. -/
theorem wholeRow_iff {w : Word} {i : Instr} (hi : WellFormed i) (hword : encode i = rowMatch i) :
    w &&& 0xFFFFFFFF = rowMatch i ↔ decode w = .ok i := by
  have hw : w &&& 0xFFFFFFFF = w := BitVec.and_allOnes
  rw [hw, ← hword]
  constructor
  · rintro rfl; exact decodeReadsBackEncode i hi
  · intro h; exact (legalWordsAreEncodings w i h).2.symm

/-- R99: the mask of CIPHER_INIT keeps every field but its four. -/
theorem fieldsOf_cipherInitRow {w masked : Word} (h : w &&& 0xFFFFF08F = masked) :
    fieldsOf w = { fieldsOf masked with
      mode := bitField 4 3 w, ksz := bitField 8 2 w, dir := bitField 10 1 w, pad := bitField 11 1 w } := by
  have kept {lo len : Nat} := bitField_of_and_eq h (lo := lo) (len := len)
  simp only [fieldsOf, kept (lo := 0) (len := 4) rfl, kept (lo := 7) (len := 1) rfl, kept (lo := 12) (len := 3) rfl,
    kept (lo := 15) (len := 17) rfl]

/-- R99: the mask of MAC_SETKEY and KDF_DERIVE keeps every field but HALG. -/
theorem fieldsOf_halgRow {w masked : Word} (h : w &&& 0xFFFF8FFF = masked) :
    fieldsOf w = { fieldsOf masked with halg := bitField 12 3 w } := by
  have kept {lo len : Nat} := bitField_of_and_eq h (lo := lo) (len := len)
  simp only [fieldsOf, kept (lo := 0) (len := 4) rfl, kept (lo := 4) (len := 3) rfl, kept (lo := 7) (len := 1) rfl,
    kept (lo := 8) (len := 2) rfl, kept (lo := 10) (len := 1) rfl, kept (lo := 11) (len := 1) rfl,
    kept (lo := 15) (len := 17) rfl]

theorem cipherInitRow_iff (w : Word) :
    w &&& 0xFFFFF08F = 0x00000001 ↔ ∃ mode ksz dir pad, decode w = .ok (.cipherInit mode ksz dir pad) := by
  constructor
  · intro h
    have hdir : bitField 10 1 w = (Dir.ofBit (w.getLsbD 10)).bit.toNat :=
      bitField_one_eq_iff.mpr ((Dir.ofBit_eq_iff _ _).mp rfl)
    refine ⟨bitField 4 3 w, bitField 8 2 w, .ofBit (w.getLsbD 10), w.getLsbD 11, decode_of_fieldsOf ?_⟩
    rw [fieldsOf_cipherInitRow h, hdir, bitField_one 11]
    rfl
  · rintro ⟨mode, ksz, dir, pad, h⟩
    exact selects_of_decode (Laws.RowMatch.cipherInit mode ksz dir pad) h

theorem macSetkeyRow_iff (w : Word) : w &&& 0xFFFF8FFF = 0x00000005 ↔ ∃ halg, decode w = .ok (.macSetkey halg) :=
  ⟨fun h => ⟨_, decode_of_fieldsOf (fieldsOf_halgRow h)⟩,
    fun ⟨halg, h⟩ => selects_of_decode (Laws.RowMatch.macSetkey halg) h⟩

theorem kdfDeriveRow_iff (w : Word) : w &&& 0xFFFF8FFF = 0x00000008 ↔ ∃ halg, decode w = .ok (.kdfDerive halg) :=
  ⟨fun h => ⟨_, decode_of_fieldsOf (fieldsOf_halgRow h)⟩,
    fun ⟨halg, h⟩ => selects_of_decode (Laws.RowMatch.kdfDerive halg) h⟩

/-- R99: the OP values of the rows, in order. -/
theorem opcodeMap_ops : (opcodeMap.map fun row => bitField 0 4 row.1) = List.range 11 := rfl

/-- R99: a selected row has the word's OP, and no two rows have the same. -/
theorem selectsRow_at_most_one (w : Word) : (opcodeMap.filter (selectsRow w)).length ≤ 1 := by
  have hmasks : ∀ row ∈ opcodeMap, bitField 0 4 row.2 = 2 ^ 4 - 1 := by simp [opcodeMap, bitField]
  calc (opcodeMap.filter (selectsRow w)).length
      = opcodeMap.countP (selectsRow w) := List.countP_eq_length_filter.symm
    _ ≤ opcodeMap.countP ((· == bitField 0 4 w) ∘ fun row => bitField 0 4 row.1) := by
      refine List.countP_mono_left fun row hrow hselects => ?_
      exact beq_iff_eq.mpr (bitField_of_and_eq (beq_iff_eq.mp hselects) (hmasks row hrow)).symm
    _ = (List.range 11).count (bitField 0 4 w) := by rw [← opcodeMap_ops, List.count_eq_countP, List.countP_map]
    _ ≤ 1 := List.nodup_iff_count_le_one.mp List.nodup_range _

/-- Settles O18: each row by its own lemma, and the rows' OP values keep them apart. -/
theorem opcodeMapRowsSelectTheirCommands : Obligations.OpcodeMapRowsSelectTheirCommands := fun w =>
  ⟨wholeRow_iff (i := .nop) rfl rfl, cipherInitRow_iff w, wholeRow_iff (i := .cipherUpdate) rfl rfl,
    wholeRow_iff (i := .cipherFinal) rfl rfl, wholeRow_iff (i := .cipherClean) rfl rfl, macSetkeyRow_iff w,
    wholeRow_iff (i := .macCompute) rfl rfl, wholeRow_iff (i := .macClean) rfl rfl, kdfDeriveRow_iff w,
    wholeRow_iff (i := .bufZero) rfl rfl, wholeRow_iff (i := .zeroizeAll) rfl rfl, selectsRow_at_most_one w⟩

/-! ### Words written out -/

/-- Settles O15: the decoder computes on each word. -/
theorem sampleWordsDecode : Obligations.SampleWordsDecode :=
  ⟨rfl, rfl, rfl, rfl, rfl, rfl, rfl, rfl, rfl, rfl, rfl⟩

end Sys2Proof
end

section
/-! The MAC unit (spec/40_mac.md): the strings it computes with (R121, R122, R124), how MAC_SETKEY, MAC_COMPUTE and
MAC_CLEAN end (R125, R127, R129), and the lifecycle of its context (R123). -/

namespace Sys2Proof

/-! ### Byte strings -/

/-- R10: the zeros after a string read as what lies beyond it. -/
theorem append_zeros_getD (s : Bytes) (n i : Nat) : (s ++ zeros n).getD i 0 = s.getD i 0 := by
  by_cases hi : i < s.length
  · exact List.getD_append _ _ _ _ hi
  · rw [List.getD_append_right _ _ _ _ (Nat.not_lt.mp hi), zeros_getD, List.getD_eq_default _ _ (Nat.not_lt.mp hi)]

/-- A string that fits a vector is the vector's first bytes. -/
theorem toVec_toList_take {n : Nat} {s : Bytes} (h : s.length ≤ n) : (toVec n s).toList.take s.length = s := by
  apply List.ext_getElem
  · simpa using h
  · intro i _ hi
    simp [List.getD_eq_getElem?_getD, hi]

/-- R10: a string masked with one byte. -/
theorem xorBytes_replicate (k : Bytes) (b : Byte) :
    xorBytes k (List.replicate k.length b) = k.map (· ^^^ b) := by
  induction k with
  | nil => rfl
  | cons x k ih => exact congrArg (List.cons (x ^^^ b)) ih

/-! ### Keys, pads and HMAC -/

/-- R121: byte i of `K0`, of the key itself or, when it is longer than a block, of its hash. -/
theorem hmacKey_getD (p : Prims) (g : Cfg) (h : HashAlg) (key : Bytes) (i : Nat) :
    (hmacKey p g h key).getD i 0 =
      (if g.blockSize h < key.length then hashBytes p g h key else key).getD i 0 := by
  unfold hmacKey
  split <;> exact append_zeros_getD _ _ i

theorem innerPad_eq_map (k : Bytes) : innerPad k = k.map (· ^^^ 0x36) := xorBytes_replicate k 0x36

theorem outerPad_eq_map (k : Bytes) : outerPad k = k.map (· ^^^ 0x5c) := xorBytes_replicate k 0x5c

theorem hmac_eq (p : Prims) (g : Cfg) (h : HashAlg) (key msg : Bytes) :
    hmac p g h key msg = hashBytes p g h
      ((hmacKey p g h key).map (· ^^^ 0x5c) ++ hashBytes p g h ((hmacKey p g h key).map (· ^^^ 0x36) ++ msg)) := by
  rw [hmac, hmacPads, innerPad_eq_map, outerPad_eq_map]

namespace Machine

/-- R33, R125: the stored pads, cut to the block size, are the pads of the key. -/
theorem macDigest_keyedMac {p : Prims} {g : Cfg} {h : HashAlg} (hg : (g.hashSize h).Legal) (key msg : Bytes) :
    macDigest p g (keyedMac p g h key) msg = hmac p g h key msg := by
  have cut {pad : Bytes} (hpad : pad.length = (hmacKey p g h key).length) :
      (toVec 128 pad).toList.take (g.blockSize h) = pad := by
    rw [hmacKey_length hg] at hpad
    rw [← hpad]
    exact toVec_toList_take (hpad.trans_le hg.block_le)
  simp only [macDigest, keyedMac, hmac, cut (innerPad_length _), cut (outerPad_length _)]

/-- Settles O28. -/
theorem keyedDigestIsHmac : Obligations.KeyedDigestIsHmac := fun p g h key msg hg =>
  have hsize := hg.hash_sizes h
  ⟨hmacKey_length hsize key, hmac_eq p g h key msg, hmacPads_length hsize _ _ _, macDigest_keyedMac hsize key msg⟩

/-! ### MAC_SETKEY -/

theorem exec_macSetkey (halg : Nat) (s : State) :
    exec (.macSetkey halg) s = .next (finishMac s (macSetkeyResult Config.prims halg s)) := rfl

/-- R121, R122: the strings of a keyed context, byte by byte. -/
theorem keyedMac_bytes {p : Prims} {g : Cfg} {h : HashAlg} (hg : (g.hashSize h).Legal) (hpresent : g.present h = true)
    (key : Bytes) (i : Fin 128) :
    let k0 := if g.blockSize h < key.length then hashBytes p g h key else key
    (keyedMac p g h key).k0[i] = k0.getD i.val 0 ∧
    (keyedMac p g h key).ipad[i] = (if i.val < g.blockSize h then k0.getD i.val 0 ^^^ 0x36 else 0) ∧
    (keyedMac p g h key).opad[i] = (if i.val < g.blockSize h then k0.getD i.val 0 ^^^ 0x5c else 0) := by
  intro k0
  have hinv := keyedMac_inv (p := p) hg hpresent key
  have hk0 : (keyedMac p g h key).k0[i] = k0.getD i.val 0 :=
    (toVec_getElem 128 _ i.val i.isLt).trans (hmacKey_getD p g h key i.val)
  refine ⟨hk0, ?_⟩
  split
  next hi => rw [← hk0]; exact ⟨hinv.ipad_eq rfl i hi, hinv.opad_eq rfl i hi⟩
  next hi => exact (hinv.tail_zero i (Nat.not_lt.mp hi)).2

/-- R93: the rows of the HALG table. -/
theorem code_of_mem_halgTable {halg : Nat} {h : HashAlg}
    (hmem : (halg, h) ∈ [(0, HashAlg.md5), (1, .sha1), (2, .sha256), (3, .sha384), (4, .sha512)]) : halg = h.code := by
  simp only [List.mem_cons, List.not_mem_nil, Prod.mk.injEq, or_false] at hmem
  rcases hmem with ⟨rfl, rfl⟩ | ⟨rfl, rfl⟩ | ⟨rfl, rfl⟩ | ⟨rfl, rfl⟩ | ⟨rfl, rfl⟩ <;> rfl

/-- R125: MAC_SETKEY with a hash that is present and a key in RAM. -/
theorem macSetkeyResult_ok {p : Prims} {halg : Nat} {s : State} {h : HashAlg} (hs : s.cfg.selectHash halg = some h)
    (hr : s.eng.op.keyAddr.toNat + s.eng.op.keyLen.toNat ≤ s.cfg.bufSize) :
    macSetkeyResult p halg s = .ok (keyedMac p s.cfg h (keyBytes s), []) := by
  rcases macSetkeyResult_cases p halg s with ⟨hnone, -⟩ | ⟨h', hs', ⟨hout, -⟩ | ⟨-, e⟩⟩
  · exact absurd (hnone.symm.trans hs) nofun
  · omega
  · cases hs'.symm.trans hs
    exact e

/-- Settles O24: the stored context is `keyedMac` of the key, with no output. -/
theorem macSetkeyStoresKeyAndPads : Obligations.MacSetkeyStoresKeyAndPads := by
  intro s halg h hg hmem hbit hr b key k0
  have hs : s.cfg.selectHash halg = some h := selectHash_eq_some.mpr ⟨code_of_mem_halgTable hmem, hbit⟩
  obtain ⟨hend, hmac, hctx⟩ := finishMac_ok s (keyedMac Config.prims s.cfg h (keyBytes s)) []
  refine ⟨_, (exec_macSetkey halg s).trans (by rw [macSetkeyResult_ok hs hr]), congrArg MacCtx.mstate hmac,
    congrArg MacCtx.halg hmac, ?_, hend.eng, hctx, hend.ramSame, hend.rest⟩
  rw [hmac]
  exact keyedMac_bytes (hg.hash_sizes h) (selectHash_present hs) key

/-- Settles O25: by the check that fails first. -/
theorem macSetkeyErrorsInOrder : Obligations.MacSetkeyErrorsInOrder := by
  intro s halg
  refine ⟨_, exec_macSetkey halg s, ?_⟩
  rcases macSetkeyResult_cases Config.prims halg s with ⟨hnone, e⟩ | ⟨h, hs, hrange⟩
  · rw [e]
    refine ⟨fun _ => (finishMac_error s _).1.eng, fun hle hbit => ?_⟩
    rcases selectHash_eq_none.mp hnone with hgt | hclear
    · omega
    · exact absurd (hclear.symm.trans hbit) nofun
  · refine ⟨fun hn => absurd ((selectHash_eq_none.mpr hn).symm.trans hs) nofun, fun _ _ hout => ?_⟩
    rcases hrange with ⟨-, e⟩ | ⟨hin, -⟩
    · rw [e]; exact (finishMac_error s _).1.eng
    · omega

/-! ### MAC_COMPUTE -/

theorem exec_macCompute (s : State) :
    exec .macCompute s = .next (finishMac s (macComputeResult Config.prims s)) := rfl

theorem unkeyed_ne_keyed {m : MacCtx} (hu : m.mstate = .unkeyed) (hk : m.mstate = .keyed) : False :=
  nomatch hu.symm.trans hk

/-- R127: MAC_COMPUTE on operands that meet its checks. -/
theorem macComputeResult_ok {p : Prims} {s : State} (hk : s.mac.mstate = .keyed) (hr : DataInRange s)
    (hcap : s.cfg.digestSize s.mac.halg ≤ s.eng.op.dstCap.toNat) :
    macComputeResult p s = .ok (s.mac, macDigest p s.cfg s.mac (srcBytes s)) := by
  rcases macComputeResult_cases p s with ⟨hu, -⟩ | ⟨-, ⟨hn, -⟩ | ⟨-, hlt, -⟩ | ⟨-, -, e⟩⟩
  · exact (unkeyed_ne_keyed hu hk).elim
  · exact absurd hr hn
  · omega
  · exact e

/-- Settles O26: the output is `macDigest` of the message, one digest long. -/
theorem macComputeWritesTheDigest : Obligations.MacComputeWritesTheDigest := by
  intro s hg hk hr hcap h b m inner d
  have hlen : d.length = (s.cfg.hashSize s.mac.halg).digest := hashBytes_length (hg.hash_sizes _) _
  obtain ⟨hend, hmac, hctx⟩ := finishMac_ok s s.mac d
  have hexec : exec .macCompute s = .next (finishMac s (.ok (s.mac, d))) :=
    (exec_macCompute s).trans (by rw [macComputeResult_ok hk hr hcap]; rfl)
  exact ⟨hlen, _, hexec, hend.holds, hlen ▸ hend.outside, hlen ▸ hend.eng, hmac, hctx, hend.rest⟩

/-- R127: MAC_COMPUTE on an UNKEYED context. -/
theorem macComputeResult_unkeyed {p : Prims} {s : State} (hu : s.mac.mstate = .unkeyed) :
    macComputeResult p s = .error .invalidState := by
  rcases macComputeResult_cases p s with ⟨-, e⟩ | ⟨hk, -⟩
  · exact e
  · exact (unkeyed_ne_keyed hu hk).elim

/-- Settles O27: by the check that fails first. -/
theorem macComputeErrorsInOrder : Obligations.MacComputeErrorsInOrder := by
  intro s
  refine ⟨_, exec_macCompute s, ?_⟩
  rcases macComputeResult_cases Config.prims s with ⟨hu, e⟩ | ⟨hk, hrest⟩
  · rw [e]
    exact ⟨fun _ => (finishMac_error s _).1.eng, fun hk => (unkeyed_ne_keyed hu hk).elim,
      fun hk => (unkeyed_ne_keyed hu hk).elim⟩
  · refine ⟨fun hu => (unkeyed_ne_keyed hu hk).elim, fun _ hn => ?_, fun _ hr hlt => ?_⟩
    · rcases hrest with ⟨-, e⟩ | ⟨hr, -⟩ | ⟨hr, -⟩
      · rw [e]; exact (finishMac_error s _).1.eng
      · exact absurd hr hn
      · exact absurd hr hn
    · rcases hrest with ⟨hn, -⟩ | ⟨-, -, e⟩ | ⟨-, hcap, -⟩
      · exact absurd hr hn
      · rw [e]; exact (finishMac_error s _).1.eng
      · exact absurd hlt (Nat.not_lt.mpr hcap)

/-! ### MAC_CLEAN -/

theorem exec_macClean (s : State) :
    exec .macClean s = .next { s with mac := MacCtx.unkeyed, eng := s.eng.completed 0 } := rfl

/-- R34, R129: on an UNKEYED context MAC_CLEAN changes no context. -/
theorem exec_macClean_unkeyed {s : State} (hs : s.Inv) (hu : s.mac.mstate = .unkeyed) :
    exec .macClean s = .next { s with eng := s.eng.completed 0 } := by
  rw [exec_macClean, ← hs.mac.unkeyed_zero hu]

/-- Settles O29. -/
theorem macCleanZeroizes : Obligations.MacCleanZeroizes := by
  refine ⟨rfl, fun s => ⟨exec_macClean_unkeyed, fun e => ⟨_, exec_macCompute _, ?_⟩, exec_macClean s, rfl, rfl, ?_⟩⟩
  · rw [macComputeResult_unkeyed rfl]
    exact congrArg Eng.errcode (finishMac_error _ _).1.eng
  · intro i
    simp [MacCtx.unkeyed]

/-! ### What the commands make of the MAC context -/

/-- R245, R246, R248: a MAC or KDF command that ends OK leaves the context it computed, and one that does not leaves the
zeroized one. -/
theorem finishMac_mac {s : State} {r : Except ErrCode (MacCtx × Bytes)} {P : MacCtx → Prop} (hr : r ≠ .error .ok)
    (hP : ∀ m out, r = .ok (m, out) → P m) :
    if (finishMac s r).eng.errcode = .ok then P (finishMac s r).mac else (finishMac s r).mac = MacCtx.unkeyed := by
  rcases r with e | ⟨m, out⟩
  · have he : (finishMac s (.error e)).eng.errcode ≠ .ok := fun he => hr (congrArg Except.error he)
    rw [if_neg he]; rfl
  · exact hP m out rfl

theorem finishCipher_mac (s : State) (r : Except ErrCode (CipherCtx × Bytes)) : (finishCipher s r).mac = s.mac := by
  rcases r with e | ⟨c, out⟩ <;> rfl

theorem finishSystem_mac (s : State) (r : Except ErrCode Bytes) : (finishSystem s r).mac = s.mac := by
  rcases r with e | out <;> rfl

/-- R125: the context that MAC_SETKEY computes. -/
theorem macSetkeyResult_eq_ok {p : Prims} {halg : Nat} {s : State} {m : MacCtx} {out : Bytes}
    (h : macSetkeyResult p halg s = .ok (m, out)) :
    m.mstate = .keyed ∧ ∃ a, s.cfg.selectHash halg = some a ∧ m = keyedMac p s.cfg a (keyBytes s) := by
  rcases macSetkeyResult_cases p halg s with ⟨-, e⟩ | ⟨a, ha, ⟨-, e⟩ | ⟨-, e⟩⟩ <;> cases e.symm.trans h
  exact ⟨rfl, a, ha, rfl⟩

/-- R128: MAC_COMPUTE computes no new context. -/
theorem macComputeResult_eq_ok {p : Prims} {s : State} {m : MacCtx} {out : Bytes}
    (h : macComputeResult p s = .ok (m, out)) : m = s.mac := by
  rcases macComputeResult_cases p s with ⟨-, e⟩ | ⟨-, ⟨-, e⟩ | ⟨-, -, e⟩ | ⟨-, -, e⟩⟩ <;> cases e.symm.trans h
  rfl

/-- R146: the context that KDF_DERIVE computes is the zeroized one. -/
theorem kdfResult_eq_ok {p : Prims} {halg : Nat} {s : State} {m : MacCtx} {out : Bytes}
    (h : kdfResult p halg s = .ok (m, out)) : m = MacCtx.unkeyed := by
  rcases kdfResult_cases p halg s with ⟨-, e⟩ | ⟨a, -, ⟨-, e⟩ | ⟨-, -, -, e⟩⟩ <;> cases e.symm.trans h
  rfl

/-- R146: KDF_DERIVE zeroizes the MAC context on every outcome. -/
theorem finishMac_kdfResult_mac (p : Prims) (halg : Nat) (s : State) :
    (finishMac s (kdfResult p halg s)).mac = MacCtx.unkeyed := by
  have h := finishMac_mac (s := s) (kdfResult_ne_ok p halg s) fun _ _ => kdfResult_eq_ok
  rwa [ite_self] at h

/-! ### What the other actions make of the MAC context -/

theorem hostRead_mac (off : HostOffset) (w : Nat) (s : State) : (hostRead off w s).mac = s.mac := by
  unfold hostRead; split <;> rfl

theorem hostWrite_mac (off : HostOffset) (w : Nat) (v : Word) (s : State) : (hostWrite off w v s).mac = s.mac := by
  rcases hostWrite_cases off w v s with ⟨-, e⟩ | ⟨_, -, -, -, -, -, e⟩ | ⟨-, -, -, e⟩ | e <;> rw [e]
  · rfl
  · exact (writeReg_frame v s _).2.1

theorem EngineTurn.mac {s s0 : State} (h : EngineTurn s s0) : s0.mac = s.mac := by
  rcases h with ⟨-, rfl⟩ | ⟨_, -, rfl⟩ <;> rfl

/-- Log 1: with the engine's turn next, a step is none of the host's accesses and no reset. -/
theorem step_cases_of_turnNext {s t : State} (hturn : s.TurnNext) (h : step s = .next t) :
    ∃ s0, EngineTurn s s0 ∧
      ((s.eng.busy = false ∧ t = s0) ∨
       (s.eng.busy = true ∧ ∃ i, decode s.eng.cmd = .ok i ∧ exec i s0 = .next t) ∨
       (s.eng.busy = true ∧ ∃ e, decode s.eng.cmd = .error e ∧ t = illegalCommand s0)) := by
  have other {a : Action} {rest : List Action} (hi : s.inbox = a :: rest) (ha : a ≠ .engine) : False := by
    rcases hturn with h0 | ⟨_, h0⟩
    · exact nomatch h0.symm.trans hi
    · exact ha (List.cons.inj (hi.symm.trans h0)).1
  rcases step_cases h with ⟨off, w, rest, hi, -⟩ | ⟨off, w, v, rest, hi, -⟩ | ⟨rest, hi, -⟩ | hengine
  · exact (other hi nofun).elim
  · exact (other hi nofun).elim
  · exact (other hi nofun).elim
  · exact hengine

/-- R257, R247: an engine's turn that performs no command leaves the MAC context. -/
theorem step_mac_of_no_command {s t : State} (hturn : s.TurnNext) (h : step s = .next t)
    (hnone : s.eng.busy = false ∨ ∃ e, decode s.eng.cmd = .error e) : t.mac = s.mac := by
  obtain ⟨s0, hs0, ⟨-, rfl⟩ | ⟨hbusy, i, hi, -⟩ | ⟨-, _, -, rfl⟩⟩ := step_cases_of_turnNext hturn h
  · exact hs0.mac
  · rcases hnone with hidle | ⟨e, he⟩
    · exact absurd (hidle.symm.trans hbusy) nofun
    · exact absurd (he.symm.trans hi) nofun
  · exact hs0.mac

/-- R72: the step of a reset. -/
theorem step_reset {s : State} {rest : List Action} (h : s.inbox = .reset :: rest) :
    step s = .next (resetAll { s with inbox := rest }) := by
  simp [step, nextTurn, h, act]

/-- Settles O30: by the command, and by the action of the step. -/
theorem macLifecycle : Obligations.MacLifecycle := by
  refine ⟨fun i s t h => ?_, fun s t rest h => ⟨fun hi => ?_, fun off w hi => ?_, fun off w v hi => ?_, fun hi => ?_⟩⟩
  · cases i with
    | nop | cipherClean | macClean | zeroizeAll => cases h; rfl
    | cipherInit | cipherUpdate | cipherFinal => cases h; exact finishCipher_mac s _
    | bufZero => cases h; exact finishSystem_mac s _
    | kdfDerive halg => cases h; exact finishMac_kdfResult_mac _ halg s
    | macSetkey halg => cases h; exact finishMac_mac (macSetkeyResult_ne_ok _ halg s) fun _ _ => macSetkeyResult_eq_ok
    | macCompute => cases h; exact finishMac_mac (macComputeResult_ne_ok _ s) fun _ _ => macComputeResult_eq_ok
  · cases h.symm.trans (step_reset hi); rfl
  · cases h.symm.trans (step_read hi); exact hostRead_mac off w _
  · cases h.symm.trans (step_write hi); exact hostWrite_mac off w v _
  · exact step_mac_of_no_command (hi.imp_right fun hi => ⟨rest, hi⟩) h

end Machine
end Sys2Proof
end

section
/-! Key derivation (spec/41_kdf.md): the block function of PBKDF2 (R141), the derived key as its blocks joined and cut
(R142), and how KDF_DERIVE ends (R145, R146). -/

namespace Sys2Proof

/-! ### The block function -/

/-- R12, R141: the block index as four bytes, most significant first. -/
theorem be32_eq_div (i : Nat) : be32 i =
    [BitVec.ofNat 8 (i / 2 ^ 24), BitVec.ofNat 8 (i / 2 ^ 16), BitVec.ofNat 8 (i / 2 ^ 8), BitVec.ofNat 8 i] := by
  simp only [be32, Nat.shiftRight_eq_div_pow]

theorem prf_length {p : Prims} {g : Cfg} {h : HashAlg} (hg : (g.hashSize h).Legal) (password x : Bytes) :
    (prf p g h password x).length = (g.hashSize h).digest := hmacPads_length hg _ _ _

/-- R141: the model adds the rounds from U1 up to the right; a further round may as well be put in last. -/
theorem xorOfUs_succ (p : Prims) (g : Cfg) (h : HashAlg) (password : Bytes) (n : Nat) (u : Bytes) :
    xorOfUs p g h password (n + 1) u =
      xorBytes (xorOfUs p g h password n u) ((hmac p g h password)^[n + 1] u) := by
  induction n generalizing u with
  | zero => rfl
  | succ n ih =>
    calc xorOfUs p g h password (n + 2) u
        = xorBytes u (xorOfUs p g h password (n + 1) (prf p g h password u)) := rfl
      _ = xorBytes u (xorBytes (xorOfUs p g h password n (prf p g h password u))
            ((hmac p g h password)^[n + 1] (prf p g h password u))) := by rw [ih]
      _ = xorBytes (xorOfUs p g h password (n + 1) u) ((hmac p g h password)^[n + 2] u) :=
          (xorBytes_assoc _ _ _).symm

theorem xorOfUs_length {p : Prims} {g : Cfg} {h : HashAlg} (hg : (g.hashSize h).Legal) (password : Bytes) (n : Nat)
    {u : Bytes} (hu : u.length = (g.hashSize h).digest) :
    (xorOfUs p g h password n u).length = (g.hashSize h).digest := by
  induction n generalizing u with
  | zero => exact hu
  | succ n ih => rw [xorOfUs, xorBytes_length, hu, ih (prf_length hg password u), Nat.min_self]

/-- R141: `F(P, S, c, i)` has hLen bytes. -/
theorem pbkdf2Block_length {p : Prims} {g : Cfg} {h : HashAlg} (hg : (g.hashSize h).Legal) (password salt : Bytes)
    (c i : Nat) : (pbkdf2Block p g h password salt c i).length = (g.hashSize h).digest :=
  xorOfUs_length hg password _ (prf_length hg password _)

/-- R141: `F(P, S, 1, i)` is U1. -/
theorem pbkdf2Block_one (p : Prims) (g : Cfg) (h : HashAlg) (password salt : Bytes) (i : Nat) :
    pbkdf2Block p g h password salt 1 i = hmac p g h password (salt ++ be32 i) := rfl

/-- R141: `F(P, S, c + 1, i)` puts the U of round c + 1 into `F(P, S, c, i)`. -/
theorem pbkdf2Block_succ (p : Prims) (g : Cfg) (h : HashAlg) (password salt : Bytes) {c : Nat} (hc : 1 ≤ c) (i : Nat) :
    pbkdf2Block p g h password salt (c + 1) i = xorBytes (pbkdf2Block p g h password salt c i)
      ((hmac p g h password)^[c] (hmac p g h password (salt ++ be32 i))) := by
  obtain ⟨n, rfl⟩ := Nat.exists_eq_add_of_le' hc
  exact xorOfUs_succ p g h password n _

/-- Settles O33. -/
theorem kdfBlockXorsEveryRound : Obligations.KdfBlockXorsEveryRound := by
  intro p g h password salt c i hc _ hg
  rw [← be32_eq_div]
  exact ⟨pbkdf2Block_one p g h password salt i, pbkdf2Block_succ p g h password salt hc i,
    pbkdf2Block_length (hg.hash_sizes h) password salt c i⟩

/-! ### The derived key -/

theorem pbkdf2Blocks_length {p : Prims} {g : Cfg} {h : HashAlg} (hg : (g.hashSize h).Legal) (password salt : Bytes)
    (c i m : Nat) : (pbkdf2Blocks p g h password salt c i m).length = m * (g.hashSize h).digest := by
  induction m generalizing i with
  | zero => exact (Nat.zero_mul _).symm
  | succ m ih => rw [pbkdf2Blocks, List.length_append, pbkdf2Block_length hg, ih, Nat.succ_mul, Nat.add_comm]

/-- R142: byte n of the joined blocks lies in the first block, or is byte n - hLen of the others joined. -/
theorem pbkdf2Blocks_getD {p : Prims} {g : Cfg} {h : HashAlg} (hg : (g.hashSize h).Legal) (password salt : Bytes)
    (c : Nat) {i m n : Nat} (hn : n < m * (g.hashSize h).digest) :
    (pbkdf2Blocks p g h password salt c i m).getD n 0 =
      (pbkdf2Block p g h password salt c (n / (g.hashSize h).digest + i)).getD (n % (g.hashSize h).digest) 0 := by
  induction m generalizing i n with
  | zero => omega
  | succ m ih =>
    have hlen := pbkdf2Block_length (p := p) hg password salt c i
    rcases Nat.lt_or_ge n (g.hashSize h).digest with hlt | hge
    · rw [pbkdf2Blocks, List.getD_append _ _ _ _ (hlen ▸ hlt), Nat.div_eq_of_lt hlt, Nat.mod_eq_of_lt hlt, Nat.zero_add]
    · have hrest : n - (g.hashSize h).digest < m * (g.hashSize h).digest := by rw [Nat.succ_mul] at hn; omega
      rw [pbkdf2Blocks, List.getD_append_right _ _ _ _ (hlen ▸ hge), hlen, ih hrest,
        Nat.div_eq_sub_div hg.digest_pos hge, Nat.mod_eq_sub_mod hge, Nat.add_right_comm, Nat.add_assoc]

/-- R11: `ceil(a/b)` parts of length b hold a bytes. -/
theorem le_ceilDiv_mul (a : Nat) {b : Nat} (hb : 0 < b) : a ≤ ceilDiv a b * b := by
  have hlt := Nat.lt_div_mul_add hb (a := a + b - 1)
  unfold ceilDiv
  omega

/-- R142: the derived key has the length asked for. -/
theorem pbkdf2_length {p : Prims} {g : Cfg} {h : HashAlg} (hg : (g.hashSize h).Legal) (password salt : Bytes)
    (c dkLen : Nat) : (pbkdf2 p g h password salt c dkLen).length = dkLen := by
  have hle : dkLen ≤ ceilDiv dkLen (g.digestSize h) * g.digestSize h := le_ceilDiv_mul dkLen hg.digest_pos
  exact List.length_take_of_le (hle.trans_eq (pbkdf2Blocks_length hg password salt c 1 _).symm)

/-- R142: below its length, the derived key is the blocks joined. -/
theorem pbkdf2_getD (p : Prims) (g : Cfg) (h : HashAlg) (password salt : Bytes) (c : Nat) {dkLen n : Nat}
    (hn : n < dkLen) : (pbkdf2 p g h password salt c dkLen).getD n 0 =
      (pbkdf2Blocks p g h password salt c 1 (ceilDiv dkLen (g.digestSize h))).getD n 0 := by
  rw [pbkdf2, List.getD_eq_getElem?_getD, List.getElem?_take_of_lt hn, ← List.getD_eq_getElem?_getD]

/-- Settles O34. -/
theorem kdfJoinsItsBlocks : Obligations.KdfJoinsItsBlocks := by
  intro p g h password salt c dkLen n hg _ hn
  have hsize := hg.hash_sizes h
  refine ⟨pbkdf2_length hsize password salt c dkLen, ?_⟩
  rw [pbkdf2_getD p g h password salt c hn]
  exact pbkdf2Blocks_getD hsize password salt c (hn.trans_le (le_ceilDiv_mul dkLen hsize.digest_pos))

namespace Machine

/-! ### KDF_DERIVE -/

theorem exec_kdfDerive (halg : Nat) (s : State) :
    exec (.kdfDerive halg) s = .next (finishMac s (kdfResult Config.prims halg s)) := rfl

/-- R145: what DK_LEN can hold is within the longest key that PBKDF2 can give. -/
theorem dkLen_le_longest {g : Cfg} {h : HashAlg} (hg : (g.hashSize h).Legal) (dkLen : Word) :
    dkLen.toNat ≤ g.digestSize h * (2 ^ 32 - 1) :=
  (Nat.le_pred_of_lt dkLen.isLt).trans (Nat.le_mul_of_pos_left _ hg.digest_pos)

/-- R145: KDF_DERIVE on operands that meet its checks. -/
theorem kdfResult_ok {p : Prims} {halg : Nat} {s : State} {h : HashAlg} (hg : (s.cfg.hashSize h).Legal)
    (hs : s.cfg.selectHash halg = some h) (hc : s.eng.op.iterCount ≠ 0) (hdk : s.eng.op.dkLen ≠ 0)
    (hr : kdfInRange s = true) : kdfResult p halg s = .ok (MacCtx.unkeyed,
      pbkdf2 p s.cfg h (keyBytes s) (auxBytes s) s.eng.op.iterCount.toNat s.eng.op.dkLen.toNat) := by
  rcases kdfResult_cases p halg s with ⟨hnone, -⟩ | ⟨h', hs', ⟨hbad, -⟩ | ⟨-, -, -, e⟩⟩
  · exact absurd (hnone.symm.trans hs) nofun
  · cases hs'.symm.trans hs
    rcases hbad with h0 | h0 | hout | hlong
    · exact absurd h0 hc
    · exact absurd h0 hdk
    · exact absurd (hout.symm.trans hr) nofun
    · exact absurd hlong (Nat.not_lt.mpr (dkLen_le_longest hg _))
  · cases hs'.symm.trans hs
    exact e

theorem word_ne_zero_of_pos {w : Word} (h : 0 < w.toNat) : w ≠ 0 := w.pos_iff_ne_zero.mp (w.toNat_pos.mp h)

/-- Settles O31: the output is PBKDF2 of the two areas, DK_LEN bytes long. -/
theorem kdfDeriveWritesTheKey : Obligations.KdfDeriveWritesTheKey := by
  intro s halg h hg hmem hbit hc hdk hkey haux hdst dk
  have hlen : dk.length = s.eng.op.dkLen.toNat := pbkdf2_length (hg.hash_sizes h) _ _ _ _
  have hs : s.cfg.selectHash halg = some h := selectHash_eq_some.mpr ⟨code_of_mem_halgTable hmem, hbit⟩
  have hresult : kdfResult Config.prims halg s = .ok (MacCtx.unkeyed, dk) :=
    kdfResult_ok (hg.hash_sizes h) hs (word_ne_zero_of_pos hc) (word_ne_zero_of_pos hdk)
      ((kdfInRange_iff s).mpr ⟨hkey, haux, hdst⟩)
  obtain ⟨hend, hmac, hctx⟩ := finishMac_ok s MacCtx.unkeyed dk
  exact ⟨hlen, _, (exec_kdfDerive halg s).trans (by rw [hresult]), hend.holds, hlen ▸ hend.outside, hlen ▸ hend.eng,
    hmac, hctx, hend.rest⟩

/-- Settles O32: by the check that fails first. -/
theorem kdfDeriveErrorsInOrder : Obligations.KdfDeriveErrorsInOrder := by
  intro s halg
  refine ⟨_, exec_kdfDerive halg s, ?_⟩
  rcases kdfResult_cases Config.prims halg s with ⟨hnone, e⟩ | ⟨h, hs, hrest⟩
  · rw [e]
    refine ⟨fun _ => (finishMac_error s _).1.eng, fun hle hbit => ?_⟩
    rcases selectHash_eq_none.mp hnone with hgt | hclear
    · omega
    · exact absurd (hclear.symm.trans hbit) nofun
  · refine ⟨fun hn => absurd ((selectHash_eq_none.mpr hn).symm.trans hs) nofun, fun _ _ hbad => ?_⟩
    rcases hrest with ⟨-, e⟩ | ⟨hnonzero, hr, -⟩
    · rw [e]; exact (finishMac_error s _).1.eng
    · obtain ⟨hkey, haux, hdst⟩ := (kdfInRange_iff s).mp hr
      rcases hbad with h0 | h0 | hout | hout | hout
      · exact absurd (.inl h0) hnonzero
      · exact absurd (.inr h0) hnonzero
      all_goals omega

end Machine
end Sys2Proof
end

section
/-! The counter (spec/00_scope.md R12, spec/42_cipher.md R176): a block as a big-endian integer is its reverse as a
little-endian one, so the conversions have the properties that the host port's have. -/

namespace Sys2Proof

open Machine

/-! ### Big-endian and little-endian -/

theorem leValue_append (s t : Bytes) : leValue (s ++ t) = leValue s + 2 ^ (8 * s.length) * leValue t := by
  induction s with
  | nil => simp [leValue]
  | cons b s ih =>
    rw [List.cons_append, leValue, ih, leValue, List.length_cons]
    ring

/-- R12: reading from the most significant byte is reading the reverse from the least significant one. -/
theorem beValue_eq_leValue (n : Nat) (s : Bytes) : beValue n s = leValue s.reverse + 2 ^ (8 * s.length) * n := by
  induction s generalizing n with
  | nil => simp [beValue, leValue]
  | cons b s ih =>
    rw [beValue, ih, List.reverse_cons, leValue_append, List.length_reverse, List.length_cons, leValue, leValue]
    ring

theorem be128_eq_leValue (b : Block) : be128 b = leValue b.toList.reverse := by simp [be128, beValue_eq_leValue]

/-- R62: the value of the low bytes of an integer. -/
theorem leValue_leBytes (w v : Nat) : leValue (leBytes w v) = v % 2 ^ (8 * w) := by
  induction w generalizing v with
  | zero => simp [leBytes, leValue, Nat.mod_one]
  | succ w ih =>
    rw [leBytes, leValue, ih, Nat.mul_succ, Nat.add_comm _ 8, Nat.pow_add, Nat.mod_mul, Nat.shiftRight_eq_div_pow,
      BitVec.toNat_ofNat]

/-! ### The conversions of R12 -/

theorem be128_lt (b : Block) : be128 b < 2 ^ 128 := by
  simpa [be128_eq_leValue] using leValue_lt b.toList.reverse

theorem reverse_toList_getD (b : Block) {i : Nat} (h : i < 16) : b.toList.reverse.getD (15 - i) 0 = b[i] := by
  have hlt : 15 - i < 16 := by omega
  have hback : 15 - (15 - i) = i := by omega
  simp [List.getD_eq_getElem?_getD, hlt, hback]

/-- R12: byte i of a block is digit 15 - i of its integer. -/
theorem ofNat_be128 (b : Block) {i : Nat} (h : i < 16) : BitVec.ofNat 8 (be128 b >>> (8 * (15 - i))) = b[i] := by
  rw [be128_eq_leValue, leValue_byte, reverse_toList_getD b h]

theorem getElem_eq_digit (b : Block) {i : Nat} (h : i < 16) : b[i].toNat = be128 b / 256 ^ (15 - i) % 256 := by
  rw [← ofNat_be128 b h, BitVec.toNat_ofNat, Nat.shiftRight_eq_div_pow, Nat.pow_mul]

theorem toBE128_getElem (n : Nat) {i : Nat} (h : i < 16) :
    (toBE128 n)[i] = BitVec.ofNat 8 (n >>> (8 * (15 - i))) := by simp [toBE128]

@[simp] theorem toBE128_be128 (b : Block) : toBE128 (be128 b) = b := by
  ext i h : 1
  rw [toBE128_getElem _ h, ofNat_be128 b h]

theorem toBE128_toList_reverse (n : Nat) : (toBE128 n).toList.reverse = leBytes 16 n := by
  refine List.ext_getElem (by simp) fun i _ hi => ?_
  have hlt : i < 16 := by simpa using hi
  have hback : 15 - (15 - i) = i := by omega
  have hbyte := leBytes_getD 16 n i hlt
  rw [List.getD_eq_getElem _ _ hi] at hbyte
  simp [hbyte, toBE128, hback]

theorem be128_toBE128 (n : Nat) : be128 (toBE128 n) = n % 2 ^ 128 := by
  rw [be128_eq_leValue, toBE128_toList_reverse, leValue_leBytes]

namespace Machine

theorem be128_nextCounter (b : Block) : be128 (nextCounter b) = (be128 b + 1) % 2 ^ 128 := by
  rw [nextCounter, be128_toBE128, Nat.mod_mod]

/-- R176: the increment of the counter that stands at `n` modulo 2^128. -/
theorem nextCounter_toBE128 (n : Nat) : nextCounter (toBE128 (n % 2 ^ 128)) = toBE128 ((n + 1) % 2 ^ 128) := by
  rw [nextCounter, be128_toBE128, Nat.mod_mod, Nat.mod_add_mod]

/-- Settles O45. -/
theorem counterCountsModulo : Obligations.CounterCountsModulo :=
  ⟨fun b => ⟨be128_nextCounter b, be128_lt b, fun i => getElem_eq_digit b i.isLt, toBE128_be128 b⟩,
    fun n hn => (be128_toBE128 n).trans (Nat.mod_eq_of_lt hn)⟩

end Machine
end Sys2Proof
end

section
/-! The block modes (spec/42_cipher.md R162 to R164): each output block and chaining value is one `blockStep` from the
chaining value before it. -/

namespace Sys2Proof.Machine

/-! ### Blocks of a string -/

theorem blockAt_append_zero (o : Block) (s : Bytes) : blockAt (o.toList ++ s) 0 = o := by
  have htake : (o.toList ++ s).take 16 = o.toList := by simp
  simp [blockAt, htake]

theorem blockAt_append_succ (o : Block) (s : Bytes) (j : Nat) : blockAt (o.toList ++ s) (j + 1) = blockAt s j := by
  have hdrop : (o.toList ++ s).drop (16 * (j + 1)) = s.drop (16 * j) := by
    have hlen : 16 * (j + 1) = o.toList.length + 16 * j := by simp; omega
    rw [hlen, List.drop_length_add_append]
  rw [blockAt, hdrop, blockAt]

theorem blockAt_drop (s : Bytes) (j : Nat) : blockAt (s.drop 16) j = blockAt s (j + 1) := by
  rw [blockAt, blockAt, List.drop_drop, Nat.mul_succ, Nat.add_comm]

/-! ### One block after another -/

/-- R162: the chaining value after one block more. -/
theorem blockMapFrom_chain_succ (p : Prims) (c : CipherCtx) (j : Nat) (civ : Block) (s : Bytes) :
    (blockMapFrom p c (j + 1) civ s).2 = (blockStep p c (blockMapFrom p c j civ s).2 (blockAt s j)).2 := by
  induction j generalizing civ s with
  | zero => rfl
  | succ j ih =>
    rw [blockMapFrom, ih, blockAt_drop]
    rfl

/-- R162: output block j comes from input block j and the chaining value after j blocks. -/
theorem blockAt_blockMapFrom (p : Prims) (c : CipherCtx) {m j : Nat} (hj : j < m) (civ : Block) (s : Bytes) :
    blockAt (blockMapFrom p c m civ s).1 j = (blockStep p c (blockMapFrom p c j civ s).2 (blockAt s j)).1 := by
  induction m generalizing civ s j with
  | zero => omega
  | succ m ih =>
    cases j with
    | zero => exact blockAt_append_zero _ _
    | succ j =>
      rw [blockMapFrom, blockAt_append_succ, ih (by omega), blockAt_drop]
      rfl

/-- R163, R164: when a step chains `prev`, the block before it, every chaining value is the last `prev`. -/
theorem blockMapFrom_chain_eq {p : Prims} {c : CipherCtx} {civ : Block} {s : Bytes} {prev : Nat → Block} {m : Nat}
    (h : ∀ j, j < m → (blockStep p c (blockMapFrom p c j civ s).2 (blockAt s j)).2 = prev j) :
    ∀ j, j ≤ m → (blockMapFrom p c j civ s).2 = if j = 0 then civ else prev (j - 1) := by
  intro j hj
  cases j with
  | zero => rfl
  | succ j => rw [blockMapFrom_chain_succ, h j hj]; rfl

/-- Settles O41: by the mode and the direction, from the step of one block. -/
theorem blockModesChain : Obligations.BlockModesChain := by
  intro p c s m hs out civ
  have hm : s.length / 16 = m := by omega
  have hout : out = (blockMapFrom p c m c.civ s).1 := by rw [← hm]; rfl
  have hciv : civ = (blockMapFrom p c m c.civ s).2 := by rw [← hm]; rfl
  have hblock : ∀ j, j < m → blockAt out j =
      (blockStep p c (blockMapFrom p c j c.civ s).2 (blockAt s j)).1 := fun j hj => by
    rw [hout, blockAt_blockMapFrom p c hj]
  refine ⟨by rw [hout, blockMapFrom_length], ?_, ?_, ?_, ?_⟩ <;> intro hmode hdir
  · exact ⟨blockMap_ecb_civ s hmode, fun j hj => by simp [hblock j hj, blockStep, hmode, hdir]⟩
  · exact ⟨blockMap_ecb_civ s hmode, fun j hj => by simp [hblock j hj, blockStep, hmode, hdir]⟩
  · have hchain := blockMapFrom_chain_eq (p := p) (c := c) (civ := c.civ) (s := s) (prev := blockAt out) (m := m)
      fun j hj => by rw [hblock j hj]; simp [blockStep, hmode, hdir]
    refine ⟨hciv.trans (hchain m le_rfl), fun j hj => ?_⟩
    rw [hblock j hj, hchain j hj.le]
    simp [blockStep, hmode, hdir]
  · have hchain := blockMapFrom_chain_eq (p := p) (c := c) (civ := c.civ) (s := s) (prev := blockAt s) (m := m)
      fun j hj => by simp [blockStep, hmode, hdir]
    refine ⟨hciv.trans (hchain m le_rfl), fun j hj => ?_⟩
    rw [hblock j hj, hchain j hj.le]
    simp [blockStep, hmode, hdir]

end Sys2Proof.Machine
end

section
/-! The stream modes (spec/42_cipher.md R170 to R175): each byte is masked with a byte of the keystream block in use,
which `refill` gives; what that block is after a string, mode by mode. -/

namespace Sys2Proof.Machine

/-! ### One byte more -/

theorem streamMap_snoc (p : Prims) (c : CipherCtx) (s : Bytes) (x : Byte) :
    streamMap p c (s ++ [x]) = ((streamMap p c s).1 ++ [(streamByte p (streamMap p c s).2 x).1],
      (streamByte p (streamMap p c s).2 x).2) := by
  rw [streamMap_append]
  rfl

/-- A string that is not empty is one that a byte follows. -/
theorem eq_snoc_of_pos {s : Bytes} (h : 0 < s.length) : ∃ t x, s = t ++ [x] :=
  ⟨_, _, (List.dropLast_append_getLast (List.ne_nil_of_length_pos h)).symm⟩

/-- R170: output byte i comes from input byte i and the context after the bytes before it. -/
theorem streamMap_getD (p : Prims) (c : CipherCtx) {s : Bytes} {i : Nat} (h : i < s.length) :
    (streamMap p c s).1.getD i 0 = (streamByte p (streamMap p c (s.take i)).2 (s.getD i 0)).1 := by
  have hlen : (streamMap p c (s.take i)).1.length = i := by simp; omega
  have hsplit : s = s.take i ++ s.getD i 0 :: s.drop (i + 1) := by
    rw [List.getD_eq_getElem _ _ h, ← List.drop_eq_getElem_cons h, List.take_append_drop]
  conv_lhs => rw [hsplit, streamMap_append, List.getD_append_right _ _ _ _ hlen.le, hlen, Nat.sub_self]
  rfl

/-! ### The keystream block in use -/

theorem refill_frame (p : Prims) (c : CipherCtx) :
    (refill p c).mode = c.mode ∧ (refill p c).dir = c.dir ∧ (refill p c).off = c.off := by
  unfold refill
  split
  · split <;> exact ⟨rfl, rfl, rfl⟩
  · exact ⟨rfl, rfl, rfl⟩

/-- R171 to R173: CTR keeps its keystream block apart from the chaining value. -/
theorem keystreamByte_eq (c : CipherCtx) :
    keystreamByte c = (if c.mode = .ctr then c.ks else c.civ)[c.off.val] := by
  unfold keystreamByte
  cases c.mode <;> rfl

theorem refill_of_off_ne {p : Prims} {c : CipherCtx} (h : c.off ≠ 0) : refill p c = c := if_neg h

/-- R171, R172: OFB and CFB encrypt the feedback value. -/
theorem refill_civ_of_off_zero {p : Prims} {c : CipherCtx} (hmode : c.mode = .ofb ∨ c.mode = .cfb) (h : c.off = 0) :
    (refill p c).civ = encBlock p c c.civ := by
  rcases hmode with hm | hm <;> simp [refill, h, hm]

/-- R173: CTR encrypts the counter and counts. -/
theorem refill_ctr_of_off_zero {p : Prims} {c : CipherCtx} (hmode : c.mode = .ctr) (h : c.off = 0) :
    (refill p c).ks = encBlock p c c.civ ∧ (refill p c).civ = nextCounter c.civ := by
  simp [refill, h, hmode]

/-- R175: only CFB feeds back. -/
theorem feedback_of_ne_cfb {c : CipherCtx} (hmode : c.mode ≠ .cfb) (x y : Byte) : feedback c x y = c := by
  unfold feedback
  split
  · exact absurd ‹_› hmode
  · exact absurd ‹_› hmode
  · rfl

/-- R171, R173: a byte leaves the keystream block in use, and what goes with it. -/
theorem streamByte_civ_ks_of_ne_cfb (p : Prims) {c : CipherCtx} (hmode : c.mode ≠ .cfb) (x : Byte) :
    (streamByte p c x).2.civ = (refill p c).civ ∧ (streamByte p c x).2.ks = (refill p c).ks := by
  have hrefill : (refill p c).mode ≠ .cfb := (refill_frame p c).1 ▸ hmode
  simp [streamByte, feedback_of_ne_cfb hrefill]

theorem streamMap_encBlock (p : Prims) (c : CipherCtx) (s : Bytes) : encBlock p (streamMap p c s).2 = encBlock p c := by
  obtain ⟨-, -, hksz, -, -, hkey, -⟩ := streamMap_frame p c s
  funext b
  simp only [encBlock, CipherCtx.keyString, hksz, hkey]

theorem streamMap_mode (p : Prims) (c : CipherCtx) (s : Bytes) : (streamMap p c s).2.mode = c.mode := by
  obtain ⟨-, hmode, -⟩ := streamMap_frame p c s
  exact hmode

theorem streamMap_dir (p : Prims) (c : CipherCtx) (s : Bytes) : (streamMap p c s).2.dir = c.dir := by
  obtain ⟨-, -, -, hdir, -⟩ := streamMap_frame p c s
  exact hdir

section FromBlockStart
variable {p : Prims} {c : CipherCtx}

/-- R174: from the start of a keystream block, the offset counts the bytes. -/
theorem streamMap_off_of_zero (hoff : c.off = 0) (s : Bytes) : (streamMap p c s).2.off.val = s.length % 16 := by
  simp [streamMap_off, hoff]

theorem streamMap_off_eq_zero_iff (hoff : c.off = 0) (s : Bytes) :
    (streamMap p c s).2.off = 0 ↔ s.length % 16 = 0 := by
  rw [← streamMap_off_of_zero (p := p) hoff, Fin.ext_iff]
  rfl

/-- R171, R172, R173: output byte i is the input byte, masked with byte i mod 16 of the keystream block in use. -/
theorem streamMap_getD_mask (hoff : c.off = 0) {s : Bytes} {i : Nat} (h : i < s.length) :
    let d := refill p (streamMap p c (s.take i)).2
    (streamMap p c s).1.getD i 0 =
      s.getD i 0 ^^^ (if c.mode = .ctr then d.ks else d.civ)[i % 16]'(Nat.mod_lt i (by decide)) := by
  intro d
  obtain ⟨hm, -, ho⟩ := refill_frame p (streamMap p c (s.take i)).2
  have hmode : d.mode = c.mode := hm.trans (streamMap_mode p c _)
  have hd : d.off.val = i % 16 := by
    rw [ho, streamMap_off_of_zero hoff, List.length_take_of_le h.le]
  rw [streamMap_getD p c h]
  show _ ^^^ keystreamByte d = _
  simp only [keystreamByte_eq, hmode, hd]

/-! ### OFB -/

/-- R171: the keystream block in use after a string. -/
theorem ofb_keystream (hmode : c.mode = .ofb) (hoff : c.off = 0) (s : Bytes) :
    (refill p (streamMap p c s).2).civ = (encBlock p c)^[s.length / 16 + 1] c.civ := by
  induction s using List.reverseRecOn with
  | nil => exact refill_civ_of_off_zero (.inl hmode) hoff
  | append_singleton s x ih =>
    have hm : (streamMap p c s).2.mode = .ofb := (streamMap_mode p c s).trans hmode
    have hciv : (streamMap p c (s ++ [x])).2.civ = (encBlock p c)^[s.length / 16 + 1] c.civ := by
      rw [streamMap_snoc, (streamByte_civ_ks_of_ne_cfb p (by simp [hm]) x).1, ih]
    by_cases h0 : (s.length + 1) % 16 = 0
    · have hblock : (s.length + 1) / 16 = s.length / 16 + 1 := by omega
      rw [refill_civ_of_off_zero (.inl ((streamMap_mode p c _).trans hmode))
        ((streamMap_off_eq_zero_iff hoff _).mpr (by simpa using h0)), hciv, streamMap_encBlock,
        List.length_append, List.length_singleton, hblock]
      exact (Function.iterate_succ_apply' _ _ _).symm
    · have hblock : (s.length + 1) / 16 = s.length / 16 := by omega
      rw [refill_of_off_ne (mt (streamMap_off_eq_zero_iff hoff _).mp (by simpa using h0)), hciv,
        List.length_append, List.length_singleton, hblock]

/-! ### CTR -/

/-- R173: the keystream block in use after a string, and the counter for the next one. -/
theorem ctr_keystream (hmode : c.mode = .ctr) (hoff : c.off = 0) (s : Bytes) :
    (refill p (streamMap p c s).2).ks = encBlock p c (toBE128 ((be128 c.civ + s.length / 16) % 2 ^ 128)) ∧
    (refill p (streamMap p c s).2).civ = toBE128 ((be128 c.civ + s.length / 16 + 1) % 2 ^ 128) := by
  induction s using List.reverseRecOn with
  | nil =>
    have hstart : c.civ = toBE128 (be128 c.civ % 2 ^ 128) := by rw [Nat.mod_eq_of_lt (be128_lt _), toBE128_be128]
    obtain ⟨hks, hciv⟩ := refill_ctr_of_off_zero (p := p) hmode hoff
    refine ⟨hks.trans (congrArg _ hstart), hciv.trans ?_⟩
    rw [hstart, nextCounter_toBE128, ← hstart]
    rfl
  | append_singleton s x ih =>
    obtain ⟨ihks, ihciv⟩ := ih
    have hm : (streamMap p c s).2.mode ≠ .cfb := by simp [streamMap_mode, hmode]
    obtain ⟨hciv, hks⟩ := streamByte_civ_ks_of_ne_cfb p hm x
    rw [List.length_append, List.length_singleton]
    by_cases h0 : (s.length + 1) % 16 = 0
    · have hblock : (s.length + 1) / 16 = s.length / 16 + 1 := by omega
      obtain ⟨hks', hciv'⟩ := refill_ctr_of_off_zero (p := p) ((streamMap_mode p c (s ++ [x])).trans hmode)
        ((streamMap_off_eq_zero_iff hoff _).mpr (by simpa using h0))
      rw [hks', hciv', streamMap_encBlock, streamMap_snoc, hciv, ihciv, nextCounter_toBE128, hblock]
      exact ⟨rfl, rfl⟩
    · have hblock : (s.length + 1) / 16 = s.length / 16 := by omega
      rw [refill_of_off_ne (mt (streamMap_off_eq_zero_iff hoff _).mp (by simpa using h0)), streamMap_snoc, hks, hciv,
        hblock]
      exact ⟨ihks, ihciv⟩

/-- R173: the counter after a string has counted every block begun. -/
theorem ctr_counter (hmode : c.mode = .ctr) (hoff : c.off = 0) {s : Bytes} (hs : 0 < s.length) :
    (streamMap p c s).2.civ = toBE128 ((be128 c.civ + (s.length + 15) / 16) % 2 ^ 128) := by
  obtain ⟨t, x, rfl⟩ := eq_snoc_of_pos hs
  have hm : (streamMap p c t).2.mode ≠ .cfb := by simp [streamMap_mode, hmode]
  have hbegun : ((t ++ [x]).length + 15) / 16 = t.length / 16 + 1 := by simp; omega
  rw [streamMap_snoc, (streamByte_civ_ks_of_ne_cfb p hm x).1, (ctr_keystream hmode hoff t).2, hbegun, Nat.add_assoc]

/-! ### CFB -/

/-- R172: the ciphertext of a string, which is its output in an encryption and itself in a decryption. -/
def cfbCipher (p : Prims) (c : CipherCtx) (s : Bytes) : Bytes := if c.dir = .enc then (streamMap p c s).1 else s

/-- R172: the block whose encryption masks block `k`. -/
def cfbPrev (c : CipherCtx) (cipher : Bytes) (k : Nat) : Block := if k = 0 then c.civ else blockAt cipher (k - 1)

/-- R172: `civ` holds `r` bytes of block `k` of the ciphertext, and then the keystream block. -/
def CfbBlock (p : Prims) (c : CipherCtx) (civ : Block) (cipher : Bytes) (k r : Nat) : Prop :=
  ∀ j (_ : j < 16), civ[j] = if j < r then cipher.getD (16 * k + j) 0 else (encBlock p c (cfbPrev c cipher k))[j]

theorem cfbCipher_length (s : Bytes) : (cfbCipher p c s).length = s.length := by unfold cfbCipher; split <;> simp

theorem cfbCipher_append (s t : Bytes) :
    cfbCipher p c (s ++ t) = cfbCipher p c s ++ cfbCipher p (streamMap p c s).2 t := by
  unfold cfbCipher
  rw [streamMap_append, streamMap_dir]
  split <;> rfl

/-- A block of a string does not depend on what follows it. -/
theorem blockAt_append {s : Bytes} (t : Bytes) {j : Nat} (h : 16 * (j + 1) ≤ s.length) :
    blockAt (s ++ t) j = blockAt s j := by
  rw [blockAt, List.drop_append_of_le_length (by omega), List.take_append_of_le_length (by simp; omega), blockAt]

theorem cfbPrev_succ (c : CipherCtx) (cipher : Bytes) (k : Nat) : cfbPrev c cipher (k + 1) = blockAt cipher k := rfl

theorem cfbPrev_append {cipher : Bytes} (t : Bytes) {k : Nat} (h : 16 * k ≤ cipher.length) :
    cfbPrev c (cipher ++ t) k = cfbPrev c cipher k := by
  unfold cfbPrev
  split
  · rfl
  · exact blockAt_append t (by omega)

theorem CfbBlock.start (cipher : Bytes) (k : Nat) : CfbBlock p c (encBlock p c (cfbPrev c cipher k)) cipher k 0 :=
  fun _ _ => rfl

theorem CfbBlock.next_byte {civ : Block} {cipher : Bytes} {k r : Nat} (h : CfbBlock p c civ cipher k r) (hr : r < 16) :
    civ[r] = (encBlock p c (cfbPrev c cipher k))[r] := (h r hr).trans (if_neg (lt_irrefl r))

/-- R172: the next byte of ciphertext takes the place of the keystream byte it was masked with. -/
theorem CfbBlock.snoc {civ : Block} {cipher : Bytes} {k r : Nat} (h : CfbBlock p c civ cipher k r) (hr : r < 16)
    (hlen : cipher.length = 16 * k + r) (z : Byte) : CfbBlock p c (civ.set r z) (cipher ++ [z]) k (r + 1) := by
  intro j hj
  rw [cfbPrev_append [z] (by omega)]
  rcases lt_trichotomy j r with hlt | rfl | hgt
  · have hold : (cipher ++ [z]).getD (16 * k + j) 0 = cipher.getD (16 * k + j) 0 :=
      List.getD_append _ _ _ _ (by omega)
    rw [Vector.getElem_set_ne _ _ hlt.ne', h j hj, if_pos hlt, if_pos (by omega), hold]
  · rw [Vector.getElem_set_self, if_pos (by omega), ← hlen]
    simp
  · rw [Vector.getElem_set_ne _ _ hgt.ne, h j hj, if_neg (by omega), if_neg (by omega)]

theorem CfbBlock.full {civ : Block} {cipher : Bytes} {k : Nat} (h : CfbBlock p c civ cipher k 16)
    (hlen : cipher.length = 16 * (k + 1)) : civ = blockAt cipher k := by
  ext j hj : 1
  have htake : (cipher.drop (16 * k)).take 16 = cipher.drop (16 * k) := List.take_of_length_le (by simp; omega)
  rw [h j hj, if_pos hj, blockAt, toBlock_getElem _ _ hj, htake]
  simp [List.getD_eq_getElem?_getD]

/-- R172: one byte sets its ciphertext byte in the feedback value. -/
theorem streamByte_cfb_civ (hmode : c.mode = .cfb) (x : Byte) :
    (streamByte p c x).2.civ =
      (refill p c).civ.set c.off.val (if c.dir = .enc then (streamByte p c x).1 else x) := by
  obtain ⟨hm, hd, ho⟩ := refill_frame p c
  cases hdir : c.dir <;> simp [streamByte, feedback, hm, hmode, hd, hdir, ho]

/-- R172: the feedback value after one byte more, from the keystream block that was in use. -/
theorem cfb_feedback_snoc (hmode : c.mode = .cfb) (hoff : c.off = 0) (s : Bytes) (x : Byte)
    (h : CfbBlock p c (refill p (streamMap p c s).2).civ (cfbCipher p c s) (s.length / 16) (s.length % 16)) :
    CfbBlock p c (streamMap p c (s ++ [x])).2.civ (cfbCipher p c (s ++ [x])) (s.length / 16) (s.length % 16 + 1) := by
  have hbyte := streamByte_cfb_civ (p := p) ((streamMap_mode p c s).trans hmode) x
  have hlast : cfbCipher p (streamMap p c s).2 [x] =
      [if (streamMap p c s).2.dir = .enc then (streamByte p (streamMap p c s).2 x).1 else x] := by
    unfold cfbCipher
    split <;> rfl
  rw [cfbCipher_append, hlast, streamMap_snoc, hbyte]
  simp only [streamMap_off_of_zero hoff]
  exact h.snoc (by omega) (by rw [cfbCipher_length]; omega) _

/-- R172: after a whole block, the feedback value is that block of ciphertext. -/
theorem cfb_feedback_of_whole (hmode : c.mode = .cfb) (hoff : c.off = 0) {s : Bytes} {x : Byte}
    (h : CfbBlock p c (refill p (streamMap p c s).2).civ (cfbCipher p c s) (s.length / 16) (s.length % 16))
    (hwhole : s.length % 16 = 15) :
    (streamMap p c (s ++ [x])).2.civ = blockAt (cfbCipher p c (s ++ [x])) (s.length / 16) := by
  have hfed := cfb_feedback_snoc hmode hoff s x h
  rw [hwhole] at hfed
  exact hfed.full (by rw [cfbCipher_length]; simp; omega)

/-- R172: the keystream block in use after a string. -/
theorem cfb_keystream (hmode : c.mode = .cfb) (hoff : c.off = 0) (s : Bytes) :
    CfbBlock p c (refill p (streamMap p c s).2).civ (cfbCipher p c s) (s.length / 16) (s.length % 16) := by
  induction s using List.reverseRecOn with
  | nil =>
    have hciv : (refill p c).civ = encBlock p c c.civ := refill_civ_of_off_zero (.inr hmode) hoff
    exact hciv ▸ CfbBlock.start (cfbCipher p c []) 0
  | append_singleton s x ih =>
    have hlen : (s ++ [x]).length = s.length + 1 := by simp
    by_cases h0 : (s ++ [x]).length % 16 = 0
    · have hblock : (s ++ [x]).length / 16 = s.length / 16 + 1 := by omega
      have hoff0 := (streamMap_off_eq_zero_iff (p := p) hoff _).mpr h0
      rw [refill_civ_of_off_zero (.inr ((streamMap_mode p c _).trans hmode)) hoff0, streamMap_encBlock,
        cfb_feedback_of_whole hmode hoff ih (by omega), ← cfbPrev_succ c, h0, hblock]
      exact CfbBlock.start _ _
    · have hblock : (s ++ [x]).length / 16 = s.length / 16 := by omega
      have hrest : (s ++ [x]).length % 16 = s.length % 16 + 1 := by omega
      rw [refill_of_off_ne (mt (streamMap_off_eq_zero_iff hoff _).mp h0), hblock, hrest]
      exact cfb_feedback_snoc hmode hoff s x ih

/-- R172: the feedback value after whole blocks. -/
theorem cfb_feedback (hmode : c.mode = .cfb) (hoff : c.off = 0) {s : Bytes} (hs : 0 < s.length)
    (hwhole : s.length % 16 = 0) : (streamMap p c s).2.civ = blockAt (cfbCipher p c s) (s.length / 16 - 1) := by
  obtain ⟨t, x, rfl⟩ := eq_snoc_of_pos hs
  have hlen : (t ++ [x]).length = t.length + 1 := by simp
  have hblock : (t ++ [x]).length / 16 - 1 = t.length / 16 := by omega
  rw [hblock]
  exact cfb_feedback_of_whole hmode hoff (cfb_keystream hmode hoff t) (by omega)

/-- R172: the byte of the keystream that masks byte i. -/
theorem cfb_keystream_byte (hmode : c.mode = .cfb) (hoff : c.off = 0) {s : Bytes} {i : Nat} (h : i < s.length) :
    (refill p (streamMap p c (s.take i)).2).civ[i % 16]'(Nat.mod_lt i (by decide)) =
      (encBlock p c (cfbPrev c (cfbCipher p c s) (i / 16)))[i % 16]'(Nat.mod_lt i (by decide)) := by
  have hlen : (s.take i).length = i := List.length_take_of_le h.le
  have hblock := cfb_keystream (p := p) hmode hoff (s.take i)
  rw [hlen] at hblock
  have hprev : cfbPrev c (cfbCipher p c s) (i / 16) = cfbPrev c (cfbCipher p c (s.take i)) (i / 16) := by
    conv_lhs => rw [← List.take_append_drop i s, cfbCipher_append]
    exact cfbPrev_append _ (by rw [cfbCipher_length, hlen]; omega)
  rw [hblock.next_byte (Nat.mod_lt i (by decide)), hprev]

/-! ### The direction -/

/-- R175: but in CFB, one byte does not depend on the direction. -/
theorem streamByte_facing {d : Dir} (hmode : c.mode ≠ .cfb) (x : Byte) :
    streamByte p (c.facing d) x = ((streamByte p c x).1, (streamByte p c x).2.facing d) := by
  have hrefill : (refill p c).mode ≠ .cfb := (refill_frame p c).1 ▸ hmode
  simp only [streamByte, refill_facing, keystreamByte_facing, feedback_of_ne_cfb hrefill,
    feedback_of_ne_cfb (c := (refill p c).facing d) hrefill]
  rfl

theorem streamMap_facing {d : Dir} (hmode : c.mode ≠ .cfb) (s : Bytes) :
    streamMap p (c.facing d) s = ((streamMap p c s).1, (streamMap p c s).2.facing d) := by
  induction s generalizing c with
  | nil => rfl
  | cons x s ih =>
    obtain ⟨-, hm, -⟩ := streamByte_frame p c x
    have hnext : (streamByte p c x).2.mode ≠ .cfb := hm ▸ hmode
    simp only [streamMap, streamByte_facing hmode, ih hnext]

end FromBlockStart

/-! ### The three modes -/

/-- Settles O42. -/
theorem ofbReencryptsTheKeystream : Obligations.OfbReencryptsTheKeystream := by
  intro p c s i hmode hoff hi
  refine ⟨streamMap_length p c s, ?_, streamMap_off_of_zero hoff s⟩
  rw [streamMap_getD_mask hoff hi]
  simp [hmode, ofb_keystream hmode hoff, hi.le]

/-- Settles O43. -/
theorem ctrEncryptsTheCounter : Obligations.CtrEncryptsTheCounter := by
  intro p c s i hmode hoff hi
  refine ⟨streamMap_length p c s, ?_, ctr_counter hmode hoff (by omega), streamMap_off_of_zero hoff s⟩
  rw [streamMap_getD_mask hoff hi]
  simp [hmode, ctr_keystream hmode hoff, hi.le]

/-- Settles O44. -/
theorem cfbFeedsBackTheCiphertext : Obligations.CfbFeedsBackTheCiphertext := by
  intro p c s i hmode hoff hi out cipher prev
  refine ⟨streamMap_length p c s, ?_, cfb_feedback hmode hoff (by omega), streamMap_off_of_zero hoff s⟩
  have hctr : c.mode ≠ .ctr := by simp [hmode]
  rw [streamMap_getD_mask hoff hi]
  simp only [if_neg hctr, cfb_keystream_byte hmode hoff hi]
  rfl

/-- Settles O46. -/
theorem ofbAndCtrIgnoreTheDirection : Obligations.OfbAndCtrIgnoreTheDirection := by
  intro p c d s hmode
  have hne : c.mode ≠ .cfb := by rcases hmode with h | h <;> simp [h]
  exact Prod.mk.inj (streamMap_facing hne s)

end Sys2Proof.Machine
end

section
/-! Padding and chunks (spec/42_cipher.md R177, R178, R181, R183, R184): the outputs' lengths (R186), and that a message
may come in any pieces (R190), since each chunk does to a string in two parts what it does to the whole. -/

namespace Sys2Proof.Machine

/-! ### Padding -/

/-- R178: what `depad` gives, and from which strings. -/
theorem depad_eq_ok_iff {s r : Bytes} :
    depad s = .ok r ↔ ∃ n, 1 ≤ n ∧ n ≤ 16 ∧ s = r ++ List.replicate n (BitVec.ofNat 8 n) := by
  refine ⟨depad_ok_inv, ?_⟩
  rintro ⟨n, h1, h2, rfl⟩
  exact depad_append h1 h2

theorem depad_eq_error {s : Bytes} (h : ∀ r, depad s ≠ .ok r) : depad s = .error .invalidPadding := by
  rcases hs : depad s with e | r
  · rw [depad_error_inv hs]
  · exact absurd hs (h r)

/-- R177: each byte of the pad is its length. -/
theorem toNat_of_mem_padBytes {n : Nat} {b : Byte} (h : b ∈ padBytes n) : b.toNat = (padBytes n).length := by
  obtain ⟨-, hle, -⟩ := padLength_bounds n
  rw [List.eq_of_mem_replicate h, padBytes_length, BitVec.toNat_ofNat]
  omega

/-- Settles O47. -/
theorem depadTakesOffAValidPad : Obligations.DepadTakesOffAValidPad := by
  refine ⟨fun s => ⟨fun r => depad_eq_ok_iff, depad_eq_error⟩, fun n => ?_⟩
  obtain ⟨h1, h2, hwhole⟩ := padLength_bounds n
  rw [← padBytes_length] at h1 h2 hwhole
  exact ⟨h1, h2, hwhole, fun _ => toNat_of_mem_padBytes⟩

/-- R177: the pad depends on the length modulo a block only. -/
theorem padBytes_congr {m n : Nat} (h : m % 16 = n % 16) : padBytes m = padBytes n := by
  simp only [padBytes, padLength, h]

/-- R178: a pad that is within the second part comes off there. -/
theorem depad_append_of_le {s : Bytes} (a : Bytes) (h : 16 ≤ s.length) :
    depad (a ++ s) = (depad s).map (a ++ ·) := by
  rcases hs : depad s with e | r
  · obtain rfl := depad_error_inv hs
    refine depad_error fun r n h1 h2 he => ?_
    obtain ⟨t, ht⟩ : List.replicate n (BitVec.ofNat 8 n) <:+ s :=
      List.suffix_of_suffix_length_le ⟨r, he.symm⟩ ⟨a, rfl⟩ (by simp; omega)
    cases hs.symm.trans (ht ▸ depad_append h1 h2 : depad s = .ok t)
  · obtain ⟨n, h1, h2, rfl⟩ := depad_ok_inv hs
    rw [← List.append_assoc, depad_append h1 h2]
    rfl

/-! ### The two kinds of chunk -/

/-- R181, R184: what a non-final chunk gives, by the class of the mode. -/
def updated (p : Prims) (c : CipherCtx) (x : Bytes) : Bytes × CipherCtx :=
  if c.mode.isBlock then blockUpdate p c x else streamUpdate p c x

/-- R180: a non-final chunk never fails. -/
theorem chunk_false (p : Prims) (c : CipherCtx) (x : Bytes) :
    chunk p false c x = .ok ((updated p c x).1, (updated p c x).2) := by
  cases h : c.mode.isBlock <;> simp [chunk, updated, h]

theorem chunk_true_block {c : CipherCtx} (p : Prims) (x : Bytes) (h : c.mode.isBlock = true) :
    chunk p true c x = blockFinal p c x := by simp [chunk, h]

theorem chunk_true_stream {c : CipherCtx} (p : Prims) (x : Bytes) (h : c.mode.isBlock = false) :
    chunk p true c x = streamFinal p c x := by simp [chunk, h]

theorem updated_block {c : CipherCtx} (p : Prims) (x : Bytes) (h : c.mode.isBlock = true) :
    updated p c x = blockUpdate p c x := by simp [updated, h]

theorem updated_stream {c : CipherCtx} (p : Prims) (x : Bytes) (h : c.mode.isBlock = false) :
    updated p c x = streamUpdate p c x := by simp [updated, h]

/-- R183: the final chunk of a block mode whose length is allowed. -/
theorem blockFinal_eq {p : Prims} {c : CipherCtx} {x data : Bytes} (h : blockFinalData c (c.res ++ x) = .ok data) :
    blockFinal p c x =
      (finalOut c (blockMap p c data).1).map fun out => (out, (c.chained (blockMap p c data).2).holding []) := by
  rcases ho : finalOut c (blockMap p c data).1 with e | out <;> simp [blockFinal, h, ho, Except.map]

theorem blockFinal_error {p : Prims} {c : CipherCtx} {x : Bytes} {e : ErrCode}
    (h : blockFinalData c (c.res ++ x) = .error e) : blockFinal p c x = .error e := by simp [blockFinal, h]

/-! ### Output lengths -/

theorem blockUpdate_output_length (p : Prims) (c : CipherCtx) (x : Bytes) :
    (blockUpdate p c x).1.length = 16 * blocksNow c (c.res.length + x.length) := by
  have hle := blocksNow_le c (c.res ++ x).length
  have hlen : ((c.res ++ x).take (16 * blocksNow c (c.res ++ x).length)).length =
      16 * blocksNow c (c.res ++ x).length := List.length_take_of_le hle
  rw [← List.length_append, ← hlen]
  exact blockMap_length (by omega)

/-- R186: the row of CIPHER_UPDATE. -/
theorem updated_length (p : Prims) (c : CipherCtx) (x : Bytes) :
    (updated p c x).1.length = updateLength c x.length := by
  cases hb : c.mode.isBlock with
  | true =>
    rw [updated_block p x hb, blockUpdate_output_length, blocksNow, updateLength, if_pos hb]
    simp only [and_comm (a := 0 < _), mul_ite]
  | false =>
    rw [updated_stream p x hb, updateLength, if_neg (by simp [hb])]
    split
    next hd => rw [streamUpdate_holds p x hd.1 hd.2]; simp [releaseNow]
    next hd => rw [streamUpdate_all p x hd]; simp

theorem updateLength_le (c : CipherCtx) (m : Nat) : updateLength c m ≤ c.res.length + m := by
  unfold updateLength
  split <;> split <;> omega

/-- R179: the pad that a decryption with padding takes off. -/
theorem depad_length {s r : Bytes} (h : depad s = .ok r) : ∃ n, 1 ≤ n ∧ n ≤ 16 ∧ r.length + n = s.length := by
  obtain ⟨n, h1, h2, rfl⟩ := depad_ok_inv h
  exact ⟨n, h1, h2, by simp⟩

/-! ### Final chunks -/

/-- R179: the context of a decryption with padding. -/
def CipherCtx.Depads (c : CipherCtx) : Prop := c.dir = .dec ∧ c.pad = true

/-- R183: what the final chunk of a block mode transforms, when its length is allowed. -/
theorem blockFinalData_eq_ok {c : CipherCtx} {data d : Bytes} (h : blockFinalData c data = .ok d) :
    d = if c.dir = .enc ∧ c.pad = true then data ++ padBytes data.length else data := by
  rcases blockFinalData_cases c data with ⟨hdir, hpad, e⟩ | ⟨-, -, e⟩ | ⟨hn, -, e⟩ <;> cases e.symm.trans h
  · rw [if_pos ⟨hdir, hpad⟩]
  · rw [if_neg hn]

theorem finalOut_of_not_depads {c : CipherCtx} (h : ¬c.Depads) (out : Bytes) : finalOut c out = .ok out :=
  (finalOut_eq c out).trans (if_neg h)

theorem finalOut_of_depads {c : CipherCtx} (h : c.Depads) (out : Bytes) : finalOut c out = depad out :=
  (finalOut_eq c out).trans (if_pos h)

/-- R183: what the final chunk of a block mode transforms, but in a decryption with padding. -/
def blockTail (c : CipherCtx) (x : Bytes) : Bytes :=
  if c.pad then c.res ++ x ++ padBytes (c.res ++ x).length else c.res ++ x

/-- R184: what the final chunk of a stream mode transforms, but in a decryption with padding. -/
def streamTail (c : CipherCtx) (x : Bytes) : Bytes := if c.pad then x ++ padBytes (c.off.val + x.length) else x

/-- R183: the final chunk of a block mode, but of a decryption with padding. -/
theorem blockFinal_of_not_depads (p : Prims) {c : CipherCtx} {x : Bytes} (h : ¬c.Depads)
    (hlen : c.pad = false → (c.res.length + x.length) % 16 = 0) :
    blockFinal p c x =
      .ok ((blockMap p c (blockTail c x)).1, (c.chained (blockMap p c (blockTail c x)).2).holding []) := by
  have hdata : blockFinalData c (c.res ++ x) = .ok (blockTail c x) := by
    unfold blockTail
    cases hp : c.pad with
    | false => simp [blockFinalData, hp, hlen hp]
    | true =>
      cases hd : c.dir with
      | enc => simp [blockFinalData, hp, hd]
      | dec => exact absurd ⟨hd, hp⟩ h
  rw [blockFinal_eq hdata, finalOut_of_not_depads h]
  rfl

/-- R184: the final chunk of a stream mode, but of a decryption with padding. -/
theorem streamFinal_of_not_depads (p : Prims) {c : CipherCtx} (x : Bytes) (h : ¬c.Depads) :
    streamFinal p c x = .ok ((streamMap p c (streamTail c x)).1, (streamMap p c (streamTail c x)).2.holding []) := by
  unfold streamTail
  cases hp : c.pad with
  | false => rw [streamFinal_plain p x hp]; rfl
  | true =>
    cases hd : c.dir with
    | enc => rw [streamFinal_pads p x hd hp]; rfl
    | dec => exact absurd ⟨hd, hp⟩ h

/-- R183: the final chunk of a block mode in a decryption with padding. -/
theorem blockFinal_of_depads (p : Prims) {c : CipherCtx} {x : Bytes} (h : c.Depads)
    (hlen : (c.res.length + x.length) % 16 = 0) :
    blockFinal p c x = (depad (blockMap p c (c.res ++ x)).1).map fun out =>
      (out, (c.chained (blockMap p c (c.res ++ x)).2).holding []) := by
  have hdata : blockFinalData c (c.res ++ x) = .ok (c.res ++ x) := by simp [blockFinalData, h.1, hlen]
  rw [blockFinal_eq hdata, finalOut_of_depads h]

/-- R183: but in an encryption with padding, a block mode ends on whole blocks only. -/
theorem blockFinal_unaligned (p : Prims) {c : CipherCtx} {x : Bytes} (h : ¬(c.dir = .enc ∧ c.pad = true))
    (hlen : (c.res.length + x.length) % 16 ≠ 0) : blockFinal p c x = .error .invalidParameters := by
  rw [← List.length_append] at hlen
  refine blockFinal_error ?_
  rcases blockFinalData_cases c (c.res ++ x) with ⟨hdir, hpad, -⟩ | ⟨-, -, e⟩ | ⟨-, hw, -⟩
  · exact absurd ⟨hdir, hpad⟩ h
  · exact e
  · exact absurd hw hlen

/-! ### Output lengths of final chunks -/

/-- R186: the row of CIPHER_FINAL in a block mode. -/
theorem blockTail_output_length (p : Prims) {c : CipherCtx} {x : Bytes} (hoff : c.off = 0)
    (hlen : c.pad = false → (c.res.length + x.length) % 16 = 0) :
    (blockMap p c (blockTail c x)).1.length = finalLength c x.length := by
  have hwhole : (blockTail c x).length % 16 = 0 := by
    unfold blockTail
    cases hp : c.pad with
    | false => simpa using hlen hp
    | true => simpa [Nat.add_assoc] using (padLength_bounds (c.res ++ x).length).2.2
  rw [blockMap_length hwhole, blockTail, finalLength, hoff]
  cases c.pad <;> simp [padLength, Nat.add_assoc]

/-- R186: the row of CIPHER_FINAL in a stream mode. -/
theorem streamTail_output_length (p : Prims) {c : CipherCtx} (x : Bytes) (hres : c.res = []) :
    (streamMap p c (streamTail c x)).1.length = finalLength c x.length := by
  rw [streamMap_length, streamTail, finalLength, hres]
  cases c.pad <;> simp [padLength]

/-- R31: a stream mode holds bytes back in a decryption with padding only. -/
theorem CipherCtx.Inv.stream_res_nil {c : CipherCtx} (hc : c.Inv) (hb : c.mode.isBlock = false) (h : ¬c.Depads) :
    c.res = [] := by
  refine hc.stream_res hb ?_
  cases hd : c.dir with
  | enc => exact .inl rfl
  | dec => exact .inr (Bool.eq_false_iff.mpr fun hp => h ⟨hd, hp⟩)

/-- R186: the row of CIPHER_FINAL, but of a decryption with padding. -/
theorem chunk_true_length {p : Prims} {c : CipherCtx} {x : Bytes} (hc : c.Inv) (h : ¬c.Depads)
    (hlen : c.mode.isBlock = true → c.pad = false → (c.res.length + x.length) % 16 = 0) :
    ∃ out c', chunk p true c x = .ok (out, c') ∧ out.length = finalLength c x.length := by
  cases hb : c.mode.isBlock with
  | true =>
    exact ⟨_, _, (chunk_true_block p x hb).trans (blockFinal_of_not_depads p h (hlen hb)),
      blockTail_output_length p (hc.block_off hb) (hlen hb)⟩
  | false =>
    exact ⟨_, _, (chunk_true_stream p x hb).trans (streamFinal_of_not_depads p x h),
      streamTail_output_length p x (hc.stream_res_nil hb h)⟩

/-- R183: a final chunk of a block mode that does not fail ends on whole blocks, or pads. -/
theorem blockFinal_ok_aligned {p : Prims} {c c' : CipherCtx} {x out : Bytes} (h : blockFinal p c x = .ok (out, c'))
    (hn : ¬(c.dir = .enc ∧ c.pad = true)) : (c.res.length + x.length) % 16 = 0 := by
  by_contra hlen
  exact nomatch h.symm.trans (blockFinal_unaligned p hn hlen)

/-- R186: the rows of a decryption with padding: what is held and what comes, less the pad. -/
theorem chunk_true_depads_length {p : Prims} {c c' : CipherCtx} {x out : Bytes} (h : c.Depads)
    (hchunk : chunk p true c x = .ok (out, c')) :
    ∃ n, 1 ≤ n ∧ n ≤ 16 ∧ out.length + n = c.res.length + x.length := by
  have of_map {s : Bytes} {d : CipherCtx} (hs : (depad s).map (fun o => (o, d)) = .ok (out, c')) :
      depad s = .ok out := by
    rcases hd : depad s with e | r <;> rw [hd] at hs <;> cases hs
    rfl
  cases hb : c.mode.isBlock with
  | true =>
    rw [chunk_true_block p x hb] at hchunk
    have hlen := blockFinal_ok_aligned hchunk (by simp [h.1])
    rw [blockFinal_of_depads p h hlen] at hchunk
    have hwhole : (c.res ++ x).length % 16 = 0 := by rwa [List.length_append]
    rw [← List.length_append, ← blockMap_length (p := p) (c := c) hwhole]
    exact depad_length (of_map hchunk)
  | false =>
    rw [chunk_true_stream p x hb, streamFinal_depads p x h.1 h.2] at hchunk
    obtain ⟨n, h1, h2, hn⟩ := depad_length (of_map hchunk)
    exact ⟨n, h1, h2, by simpa using hn⟩

/-- R186: the row of CIPHER_FINAL, from a final chunk that does not fail. -/
theorem finalLength_of_chunk_ok {p : Prims} {c c' : CipherCtx} {x out : Bytes} (hc : c.Inv) (h : ¬c.Depads)
    (hchunk : chunk p true c x = .ok (out, c')) : out.length = finalLength c x.length := by
  have haligned : c.mode.isBlock = true → c.pad = false → (c.res.length + x.length) % 16 = 0 := fun hb hp =>
    blockFinal_ok_aligned ((chunk_true_block p x hb).symm.trans hchunk) (by simp [hp])
  obtain ⟨_, _, hchunk', hlen⟩ := chunk_true_length (p := p) hc h haligned
  cases hchunk.symm.trans hchunk'
  exact hlen

/-- Settles O48: by the class of the mode, the direction and the padding. -/
theorem chunkOutputLengths : Obligations.ChunkOutputLengths := by
  intro p c x hc r m
  refine ⟨⟨_, _, chunk_false p c x, updated_length p c x, ?_⟩, fun out c' hchunk => ?_⟩
  · rw [updated_length]
    exact (updateLength_le c m).trans (Nat.le_add_right _ 16)
  · have haligned (hb : c.mode.isBlock = true) := blockFinal_ok_aligned ((chunk_true_block p x hb).symm.trans hchunk)
    by_cases h : c.Depads
    · obtain ⟨n, h1, h2, hn⟩ := chunk_true_depads_length h hchunk
      obtain ⟨hd, hp⟩ := h
      refine ⟨by omega, ?_⟩
      cases hb : c.mode.isBlock with
      | false => simp only [hd, hp]; exact ⟨n, h1, h2, hn⟩
      | true =>
        have hwhole := haligned hb (by simp [hd])
        simp only [hd, hp]
        exact ⟨hwhole, by omega, n, h1, h2, hn⟩
    · have hlen := finalLength_of_chunk_ok hc h hchunk
      unfold finalLength at hlen
      refine ⟨by split at hlen <;> omega, ?_⟩
      cases hp : c.pad with
      | false =>
        replace hlen : out.length = r + m := by simpa [hp] using hlen
        cases hb : c.mode.isBlock with
        | true => cases hd : c.dir <;> exact ⟨hlen, haligned hb (by simp [hp])⟩
        | false =>
          have hr : r = 0 := by simp [r, hc.stream_res_nil hb h]
          cases hd : c.dir <;> exact hlen.trans (by omega)
      | true =>
        replace hlen : out.length = r + m + (16 - (c.off.val + r + m) % 16) := by simpa [hp] using hlen
        cases hd : c.dir with
        | dec => exact absurd ⟨hd, hp⟩ h
        | enc =>
          cases hb : c.mode.isBlock with
          | true =>
            have hoff : c.off.val = 0 := congrArg Fin.val (hc.block_off hb)
            exact hlen.trans (by omega)
          | false =>
            have hr : r = 0 := by simp [r, hc.stream_res_nil hb h]
            exact hlen.trans (by omega)

/-! ### Messages in pieces -/

/-- R183: whole blocks before the data do not change whether its length is allowed, nor the pad. -/
theorem blockFinalData_append {c : CipherCtx} {a : Bytes} (b : Bytes) (ha : a.length % 16 = 0) :
    blockFinalData c (a ++ b) = (blockFinalData c b).map (a ++ ·) := by
  have hmod : (a ++ b).length % 16 = b.length % 16 := by simp; omega
  unfold blockFinalData
  split
  · rw [padBytes_congr hmod, List.append_assoc]; rfl
  · rw [hmod]; split <;> rfl

/-- R178: the pad of a message that ends in a whole block is within that block. -/
theorem finalOut_append {c : CipherCtx} {a s : Bytes} (h : c.Depads → a = [] ∨ 16 ≤ s.length) :
    finalOut c (a ++ s) = (finalOut c s).map (a ++ ·) := by
  by_cases hd : c.Depads
  · rw [finalOut_of_depads hd, finalOut_of_depads hd]
    rcases h hd with rfl | hs
    · rw [List.nil_append]; cases depad s <;> rfl
    · exact depad_append_of_le a hs
  · rw [finalOut_of_not_depads hd, finalOut_of_not_depads hd]
    rfl

/-- R183: only the direction and the padding decide whether a pad comes off. -/
theorem finalOut_congr {c d : CipherCtx} (hdir : d.dir = c.dir) (hpad : d.pad = c.pad) (s : Bytes) :
    finalOut d s = finalOut c s := by
  unfold finalOut; rw [hdir, hpad]

/-- What joins an output before those of the chunks to come. -/
def prepend (o : Bytes) (r : Except ErrCode (Bytes × CipherCtx)) : Except ErrCode (Bytes × CipherCtx) :=
  r.map fun e => (o ++ e.1, e.2)

theorem prepend_nil (r : Except ErrCode (Bytes × CipherCtx)) : prepend [] r = r := by rcases r with e | r <;> rfl

theorem prepend_append (o o' : Bytes) (r : Except ErrCode (Bytes × CipherCtx)) :
    prepend (o ++ o') r = prepend o (prepend o' r) := by
  rcases r with e | r
  · rfl
  · simp [prepend, Except.map]

/-- R181: a decryption with padding transforms no block that can be the last one. -/
theorem blocksNow_holds {c : CipherCtx} (h : c.Depads) {m n : Nat} (hn : (m - 16 * blocksNow c m + n) % 16 = 0) :
    blocksNow c m = 0 ∨ 16 ≤ m - 16 * blocksNow c m + n := by
  have hk : blocksNow c m = if 0 < m ∧ m % 16 = 0 then m / 16 - 1 else m / 16 := by simp [blocksNow, h.1, h.2]
  rw [hk] at hn ⊢
  split at hn
  next hm => rw [if_pos hm]; omega
  next hm => rw [if_neg hm]; omega

/-- R181, R183: a chunk of a block mode before the final one. -/
theorem blockFinal_append (p : Prims) (c : CipherCtx) (x y : Bytes) :
    blockFinal p c (x ++ y) = prepend (blockUpdate p c x).1 (blockFinal p (blockUpdate p c x).2 y) := by
  obtain ⟨a, ha⟩ : ∃ a, a = (c.res ++ x).take (16 * blocksNow c (c.res ++ x).length) := ⟨_, rfl⟩
  obtain ⟨r, hr⟩ : ∃ r, r = (c.res ++ x).drop (16 * blocksNow c (c.res ++ x).length) := ⟨_, rfl⟩
  obtain ⟨o, v, hov⟩ : ∃ o v, blockMap p c a = (o, v) := ⟨_, _, rfl⟩
  have hsplit : c.res ++ (x ++ y) = a ++ (r ++ y) := by
    rw [← List.append_assoc, ← List.append_assoc, ha, hr, List.take_append_drop]
  have hupdate : blockUpdate p c x = (o, (c.chained v).holding r) := by
    simp only [blockUpdate, ← ha, ← hr, hov]
  have halen : a.length = 16 * blocksNow c (c.res ++ x).length := by
    rw [ha, List.length_take_of_le (blocksNow_le _ _)]
  have hwhole : a.length % 16 = 0 := by omega
  have holen : o.length = a.length := by rw [← blockMap_length (p := p) (c := c) hwhole, hov]
  rw [hupdate]
  rcases hd : blockFinalData c (r ++ y) with e | d
  · rw [blockFinal_error (c := c) (e := e) (by rw [hsplit, blockFinalData_append _ hwhole, hd]; rfl),
      blockFinal_error (c := (c.chained v).holding r) (e := e) hd]
    rfl
  · have hlast : c.Depads → o = [] ∨ 16 ≤ (blockMap p (c.chained v) d).1.length := fun h => by
      have hdr : d = r ++ y := (blockFinalData_eq_ok hd).trans (if_neg (by simp [h.1]))
      have hdlen := blockFinalData_length hd
      have hrlen : r.length = (c.res ++ x).length - 16 * blocksNow c (c.res ++ x).length := by rw [hr, List.length_drop]
      rw [blockMap_length hdlen]
      rw [hdr, List.length_append, hrlen] at hdlen ⊢
      refine (blocksNow_holds h hdlen).imp_left fun h0 => List.eq_nil_of_length_eq_zero ?_
      rw [holen, halen, h0]
    rw [blockFinal_eq (c := c) (data := a ++ d) (by rw [hsplit, blockFinalData_append _ hwhole, hd]; rfl),
      blockFinal_eq (c := (c.chained v).holding r) hd, blockMap_append p c a d hwhole, hov, blockMap_holding,
      finalOut_append hlast, finalOut_congr (c := c) (d := (c.chained v).holding r) rfl rfl]
    cases finalOut c (blockMap p (c.chained v) d).1 <;> rfl

/-- R177: the pad of a stream mode counts the bytes of the whole message. -/
theorem streamTail_append (p : Prims) (c : CipherCtx) (x y r : Bytes) :
    streamTail c (x ++ y) = x ++ streamTail ((streamMap p c x).2.holding r) y := by
  obtain ⟨-, -, -, -, hpad, -⟩ := streamMap_frame p c x
  have hoff : (c.off.val + (x ++ y).length) % 16 = ((streamMap p c x).2.off.val + y.length) % 16 := by
    rw [streamMap_off, List.length_append]; omega
  unfold streamTail
  rw [holding_pad, holding_off, hpad, padBytes_congr hoff]
  cases c.pad <;> simp

/-- R184: what a non-final chunk of a decryption with padding lets go is not part of the pad. -/
theorem depad_release (full s : Bytes) :
    depad (full ++ s) = (depad (full.drop (releaseNow full.length) ++ s)).map
      (full.take (releaseNow full.length) ++ ·) := by
  rcases Nat.lt_or_ge full.length 16 with hlt | hge
  · have hnone : releaseNow full.length = 0 := by unfold releaseNow; omega
    rw [hnone, List.drop_zero, List.take_zero]
    cases depad (full ++ s) <;> rfl
  · rw [← depad_append_of_le _ (by simp [releaseNow]; omega), ← List.append_assoc, List.take_append_drop]

/-- R184: of the context, a non-final chunk moves what the bytes move and what is held back. -/
theorem streamUpdate_ctx (p : Prims) (c : CipherCtx) (x : Bytes) :
    ∃ r, (streamUpdate p c x).2 = (streamMap p c x).2.holding r := by
  by_cases h : c.Depads
  · rw [streamUpdate_holds p x h.1 h.2]; exact ⟨_, rfl⟩
  · rw [streamUpdate_all p x h]; exact ⟨_, rfl⟩

/-- R184: a chunk of a stream mode before the final one. -/
theorem streamFinal_append (p : Prims) (c : CipherCtx) (x y : Bytes) :
    streamFinal p c (x ++ y) = prepend (streamUpdate p c x).1 (streamFinal p (streamUpdate p c x).2 y) := by
  obtain ⟨-, -, -, hdir, hpad, -⟩ := streamMap_frame p c x
  by_cases h : c.Depads
  · have hnext (r : Bytes) : ((streamMap p c x).2.holding r).Depads := ⟨hdir.trans h.1, hpad.trans h.2⟩
    rw [streamUpdate_holds p x h.1 h.2, streamFinal_depads p _ h.1 h.2, streamFinal_depads p _ (hnext _).1 (hnext _).2,
      streamMap_append, streamMap_holding, holding_res, ← List.append_assoc, depad_release, List.length_append,
      streamMap_length]
    generalize depad _ = r
    cases r <;> rfl
  · have hnext (r : Bytes) : ¬((streamMap p c x).2.holding r).Depads := fun hn =>
      h ⟨hdir.symm.trans hn.1, hpad.symm.trans hn.2⟩
    rw [streamUpdate_all p x h, streamFinal_of_not_depads p _ h, streamFinal_of_not_depads p _ (hnext _),
      streamTail_append p c x y [], streamMap_append, streamMap_holding]
    rfl

/-- R190, one step: a non-final chunk and the final one do what the final one does to both. -/
theorem chunk_true_append (p : Prims) (c : CipherCtx) (x y : Bytes) :
    chunk p true c (x ++ y) = prepend (updated p c x).1 (chunk p true (updated p c x).2 y) := by
  cases hb : c.mode.isBlock with
  | true =>
    have hnext : (blockUpdate p c x).2.mode.isBlock = true := hb
    rw [updated_block p x hb, chunk_true_block p _ hb, chunk_true_block p _ hnext, blockFinal_append]
  | false =>
    have hnext : (streamUpdate p c x).2.mode.isBlock = false := by
      obtain ⟨r, hr⟩ := streamUpdate_ctx p c x
      rw [hr, holding_mode, streamMap_mode, hb]
    rw [updated_stream p x hb, chunk_true_stream p _ hb, chunk_true_stream p _ hnext, streamFinal_append]

/-- R190: the non-final chunks give the front of what the final one gives for the whole message. -/
theorem updateAll_then_final (p : Prims) (c : CipherCtx) (pieces : List Bytes) (last : Bytes) :
    ∃ o1 c1, updateAll p c pieces = .ok (o1, c1) ∧
      chunk p true c (pieces.flatten ++ last) = prepend o1 (chunk p true c1 last) := by
  induction pieces generalizing c with
  | nil => exact ⟨[], c, rfl, (prepend_nil _).symm⟩
  | cons x xs ih =>
    obtain ⟨o1, c1, hall, hfinal⟩ := ih (updated p c x).2
    refine ⟨(updated p c x).1 ++ o1, c1, ?_, ?_⟩
    · simp only [updateAll, chunk_false, hall]
    · rw [List.flatten_cons, List.append_assoc, chunk_true_append, hfinal, prepend_append]

/-- Settles O49. -/
theorem chunkingDoesNotChangeTheMessage : Obligations.ChunkingDoesNotChangeTheMessage := by
  intro p c pieces last
  obtain ⟨o1, c1, hall, hfinal⟩ := updateAll_then_final p c pieces last
  refine ⟨o1, c1, hall, ?_⟩
  rw [hfinal]
  rcases chunk p true c1 last with e | ⟨o2, c2⟩
  · rfl
  · exact ⟨rfl, rfl⟩

end Sys2Proof.Machine
end

section
/-! The cipher commands (spec/42_cipher.md R160, R165, R166, R180 to R188): how each of them ends, and the life of the
cipher context. -/

namespace Sys2Proof

/-! ### Codes -/

/-- R92: which MODE values name a mode. -/
theorem Mode.ofCode_eq_some {n : Nat} {m : Mode} : Mode.ofCode n = some m ↔ n = m.code := by
  match n with
  | 0 | 1 | 2 | 3 | 4 => cases m <;> simp [Mode.ofCode, Mode.code]
  | n + 5 => cases m <;> simp [Mode.ofCode, Mode.code]

theorem Mode.code_le (m : Mode) : m.code ≤ 4 := by cases m <;> decide

/-- R94: which KSZ values name a key size, and how long its keys are. -/
theorem KeySize.ofCode_eq_some {n : Nat} {k : KeySize} :
    KeySize.ofCode n = some k ↔ n < 3 ∧ k.bytes = 16 + 8 * n := by
  match n with
  | 0 | 1 | 2 => cases k <;> simp [KeySize.ofCode, KeySize.bytes]
  | n + 3 => simp [KeySize.ofCode]

/-- R92: the rows of the MODE table. -/
theorem ofCode_of_mem_modeTable {mode : Nat} {m : Mode}
    (h : (mode, m) ∈ [(0, Mode.ecb), (1, .cbc), (2, .cfb), (3, .ofb), (4, .ctr)]) : Mode.ofCode mode = some m := by
  simp only [List.mem_cons, List.not_mem_nil, Prod.mk.injEq, or_false] at h
  rcases h with ⟨rfl, rfl⟩ | ⟨rfl, rfl⟩ | ⟨rfl, rfl⟩ | ⟨rfl, rfl⟩ | ⟨rfl, rfl⟩ <;> rfl

/-- R94: the rows of the KSZ table. -/
theorem ofCode_of_mem_kszTable {ksz kb : Nat} {k : KeySize}
    (h : (ksz, k, kb) ∈ [(0, KeySize.k128, 16), (1, .k192, 24), (2, .k256, 32)]) :
    KeySize.ofCode ksz = some k ∧ kb = k.bytes := by
  simp only [List.mem_cons, List.not_mem_nil, Prod.mk.injEq, or_false] at h
  rcases h with ⟨rfl, rfl, rfl⟩ | ⟨rfl, rfl, rfl⟩ | ⟨rfl, rfl, rfl⟩ <;> exact ⟨rfl, rfl⟩

namespace Machine

theorem exec_cipherInit (mode ksz : Nat) (dir : Dir) (pad : Bool) (s : State) :
    exec (.cipherInit mode ksz dir pad) s = .next (finishCipher s (cipherInitResult mode ksz dir pad s)) := rfl

theorem exec_cipherUpdate (s : State) :
    exec .cipherUpdate s = .next (finishCipher s (chunkResult Config.prims false s)) := rfl

theorem exec_cipherFinal (s : State) :
    exec .cipherFinal s = .next (finishCipher s (chunkResult Config.prims true s)) := rfl

theorem exec_cipherClean (s : State) :
    exec .cipherClean s = .next { s with ctx := CipherCtx.uninit, eng := s.eng.completed 0 } := rfl

/-! ### CIPHER_INIT -/

/-- R64: a byte of a string that was read from RAM, and what lies beyond it. -/
theorem memRead_getD_eq_ite (m : Memory) (a n i : Nat) :
    (memRead m a n).getD i 0 = if i < n then readByte m (a + i) else 0 := by
  split
  next h => exact memRead_getD m a n i h
  next h => exact List.getD_eq_default _ _ (by simpa using h)

/-- R165: the IV, byte by byte. -/
theorem initIv_getElem (m : Mode) (s : State) {i : Nat} (h : i < 16) :
    (initIv m s)[i] = if m = .ecb then 0 else readByte s.ram (s.eng.op.auxAddr.toNat + i) := by
  have hread : (toBlock (memRead s.ram s.eng.op.auxAddr.toNat 16))[i] =
      readByte s.ram (s.eng.op.auxAddr.toNat + i) := by
    rw [toBlock_getElem _ _ h, memRead_getD _ _ _ _ h]
  cases m with
  | ecb => simp [initIv]
  | _ => exact hread

/-- R165: CIPHER_INIT on operands that meet its checks. -/
theorem cipherInitResult_ok {mode ksz : Nat} {m : Mode} {k : KeySize} {s : State} (dir : Dir) (pad : Bool)
    (hmode : Mode.ofCode mode = some m) (hksz : KeySize.ofCode ksz = some k) (hlen : s.eng.op.keyLen.toNat = k.bytes)
    (hkey : s.eng.op.keyAddr.toNat + k.bytes ≤ s.cfg.bufSize)
    (hiv : m = .ecb ∨ s.eng.op.auxAddr.toNat + 16 ≤ s.cfg.bufSize) :
    cipherInitResult mode ksz dir pad s =
      .ok (freshCtx m k dir pad (memRead s.ram s.eng.op.keyAddr.toNat k.bytes) (initIv m s), []) := by
  have hiv' : ivInRange m s = true := by simpa [ivInRange] using hiv
  simp [cipherInitResult, hmode, hksz, hlen, hkey, hiv']

/-- Settles O35: the new context is `freshCtx` of the two areas. -/
theorem cipherInitStartsAContext : Obligations.CipherInitStartsAContext := by
  intro s mode ksz kb m k dir pad hmode hksz hlen hkey hiv
  obtain ⟨hk, rfl⟩ := ofCode_of_mem_kszTable hksz
  have hresult := cipherInitResult_ok dir pad (ofCode_of_mem_modeTable hmode) hk hlen hkey hiv
  obtain ⟨hend, hctx, hmac⟩ := finishCipher_ok s
    (freshCtx m k dir pad (memRead s.ram s.eng.op.keyAddr.toNat k.bytes) (initIv m s)) []
  refine ⟨_, (exec_cipherInit mode ksz dir pad s).trans (by rw [hresult]), ?_⟩
  rw [hctx]
  refine ⟨rfl, rfl, rfl, rfl, rfl, fun i => ?_, fun i => initIv_getElem m s i.isLt, rfl, fun i => ?_, rfl, rfl,
    hend.eng, hmac, hend.ramSame, hend.rest⟩
  · exact (toVec_getElem 32 _ i.val i.isLt).trans (memRead_getD_eq_ite _ _ _ _)
  · simp [freshCtx]

/-- R166: CIPHER_INIT on operands that fail one of its checks. -/
theorem cipherInitResult_error {mode ksz : Nat} {dir : Dir} {pad : Bool} {s : State} (hwf : ksz < 4)
    (hbad : 4 < mode ∨ ksz = 3 ∨ s.eng.op.keyLen.toNat ≠ 16 + 8 * ksz ∨
      s.cfg.bufSize < s.eng.op.keyAddr.toNat + (16 + 8 * ksz) ∨
      (mode ≠ 0 ∧ s.cfg.bufSize < s.eng.op.auxAddr.toNat + 16)) :
    cipherInitResult mode ksz dir pad s = .error .invalidParameters := by
  rcases cipherInitResult_cases mode ksz dir pad s with e | ⟨m, k, hmode, hksz, hlen, hkey, hiv, -⟩
  · exact e
  · exfalso
    have hm := Mode.ofCode_eq_some.mp hmode
    obtain ⟨hk, hbytes⟩ := KeySize.ofCode_eq_some.mp hksz
    rcases hbad with hgt | h3 | hne | hout | ⟨hne, hout⟩
    · have := Mode.code_le m; omega
    · omega
    · exact hne (hlen.trans hbytes)
    · omega
    · rcases hiv with rfl | hiv
      · exact hne hm
      · omega

/-- Settles O36. -/
theorem cipherInitErrorsZeroize : Obligations.CipherInitErrorsZeroize := by
  intro s mode ksz dir pad hwf hbad
  obtain ⟨-, hksz⟩ := wellFormed_cipherInit.mp hwf
  obtain ⟨hend, hctx, hmac⟩ := finishCipher_error s .invalidParameters
  exact ⟨_, (exec_cipherInit mode ksz dir pad s).trans (by rw [cipherInitResult_error hksz hbad]), hend.eng, hctx, hmac,
    hend.ramSame, hend.rest⟩

/-! ### The results of CIPHER_UPDATE and CIPHER_FINAL -/

section ChunkResult
variable {p : Prims} {final : Bool} {s : State}

theorem chunkResult_not_active (h : s.ctx.cstate ≠ .active) : chunkResult p final s = .error .invalidState := by
  simp [chunkResult, h]

theorem chunkResult_out_of_range (hactive : s.ctx.cstate = .active) (h : ¬DataInRange s) :
    chunkResult p final s = .error .invalidParameters := by
  have hout : (srcInRange s && dstInRange s) = false := Bool.eq_false_iff.mpr (mt (dataInRange_iff s).mp h)
  simp [chunkResult, hactive, hout]

theorem chunkResult_error {e : ErrCode} (hactive : s.ctx.cstate = .active) (hr : DataInRange s)
    (h : chunk p final s.ctx (srcBytes s) = .error e) : chunkResult p final s = .error e := by
  simp [chunkResult, hactive, (dataInRange_iff s).mpr hr, h]

theorem chunkResult_too_long {out : Bytes} {c : CipherCtx} (hactive : s.ctx.cstate = .active) (hr : DataInRange s)
    (h : chunk p final s.ctx (srcBytes s) = .ok (out, c)) (hlt : s.eng.op.dstCap.toNat < out.length) :
    chunkResult p final s = .error .bufferTooSmall := by
  simp [chunkResult, hactive, (dataInRange_iff s).mpr hr, h, hlt]

theorem chunkResult_ok {out : Bytes} {c : CipherCtx} (hactive : s.ctx.cstate = .active) (hr : DataInRange s)
    (h : chunk p final s.ctx (srcBytes s) = .ok (out, c)) (hle : out.length ≤ s.eng.op.dstCap.toNat) :
    chunkResult p final s = .ok (settleCtx final c, out) := by
  simp [chunkResult, hactive, (dataInRange_iff s).mpr hr, h, Nat.not_lt.mpr hle]

/-- R180: a non-final chunk does not end the message. -/
theorem settleCtx_false (c : CipherCtx) : settleCtx false c = c := rfl

end ChunkResult

/-- R31, R160: what no chunk changes. -/
theorem chunk_keeps {p : Prims} {final : Bool} {c c' : CipherCtx} {x out : Bytes}
    (h : chunk p final c x = .ok (out, c')) : c'.cstate = c.cstate ∧ c'.key = c.key := by
  have stream (y r : Bytes) : ((streamMap p c y).2.holding r).cstate = c.cstate ∧
      ((streamMap p c y).2.holding r).key = c.key := by
    obtain ⟨hcstate, -, -, -, -, hkey, -⟩ := streamMap_frame p c y
    exact ⟨hcstate, hkey⟩
  cases final with
  | false =>
    obtain ⟨-, rfl⟩ := Prod.mk.inj (Except.ok.inj ((chunk_false p c x).symm.trans h))
    cases hb : c.mode.isBlock with
    | true => rw [updated_block p x hb]; exact ⟨rfl, rfl⟩
    | false =>
      obtain ⟨r, hr⟩ := streamUpdate_ctx p c x
      rw [updated_stream p x hb, hr]
      exact stream x r
  | true =>
    cases hb : c.mode.isBlock with
    | true =>
      obtain ⟨_, -, -, rfl⟩ := blockFinal_ok_inv ((chunk_true_block p x hb).symm.trans h)
      exact ⟨rfl, rfl⟩
    | false =>
      obtain ⟨y, rfl⟩ := streamFinal_ok_inv ((chunk_true_stream p x hb).symm.trans h)
      exact stream y []

/-- R170: the context after a string of a stream mode, with other bytes held. -/
theorem streamMap_ctx_holding (p : Prims) (c : CipherCtx) (s r : Bytes) :
    (streamMap p c s).2.holding r = { c with
      civ := (streamMap p c s).2.civ, ks := (streamMap p c s).2.ks, off := (streamMap p c s).2.off, res := r } :=
  congrArg (CipherCtx.holding · r) (streamMap_ctx p c s)

/-! ### CIPHER_UPDATE -/

/-- Settles O37: the output and the context are those of the non-final chunk. -/
theorem cipherUpdateCompletes : Obligations.CipherUpdateCompletes := by
  intro s hactive hr hcap x
  have hchunk := chunk_false Config.prims s.ctx x
  have hlen : (updated Config.prims s.ctx x).1.length = updateLength s.ctx s.eng.op.srcLen.toNat := by
    rw [updated_length, memRead_length]
  have hresult := chunkResult_ok hactive hr hchunk (hlen.trans_le hcap)
  obtain ⟨hend, hctx, hmac⟩ := finishCipher_ok s (updated Config.prims s.ctx x).2 (updated Config.prims s.ctx x).1
  refine ⟨_, (updated Config.prims s.ctx x).1, (exec_cipherUpdate s).trans (by rw [hresult, settleCtx_false]), ?_⟩
  rw [hctx]
  refine ⟨hchunk, fun hb => ?_, fun hb => ?_, hlen, (chunk_keeps hchunk).1.trans hactive, hend.holds, hend.outside,
    hend.eng, hmac, hend.rest⟩
  · rw [updated_block _ x hb]
    exact ⟨rfl, rfl⟩
  · rw [updated_stream _ x hb]
    intro m
    split
    next hd =>
      intro full
      have hfull : full.length = s.ctx.res.length + x.length := by simp [full, m]
      rw [streamUpdate_holds _ x hd.1 hd.2, hfull]
      exact ⟨rfl, streamMap_ctx_holding _ _ _ _⟩
    next hd =>
      rw [streamUpdate_all _ x hd]
      exact ⟨rfl, streamMap_ctx_holding _ _ _ _⟩

/-! ### CIPHER_FINAL -/

/-- Settles O38: the output and the context are those of the final chunk. -/
theorem cipherFinalCompletesWithoutDepadding : Obligations.CipherFinalCompletesWithoutDepadding := by
  intro s hactive hinv hr hd haligned hcap x
  have hxlen : x.length = s.eng.op.srcLen.toNat := memRead_length _ _ _
  rw [← hxlen] at haligned hcap ⊢
  obtain ⟨out, c, hchunk, hlen⟩ := chunk_true_length (p := Config.prims) hinv hd haligned
  have hresult := chunkResult_ok hactive hr hchunk (hlen.trans_le hcap)
  obtain ⟨hend, hctx, hmac⟩ := finishCipher_ok s (settleCtx true c) out
  refine ⟨_, out, c, (exec_cipherFinal s).trans (by rw [hresult]), hchunk, hctx, fun hb => ?_, fun hb => ?_, hlen,
    hend.holds, hend.outside, hend.eng, hmac, hend.rest⟩
  · rw [chunk_true_block _ x hb, blockFinal_of_not_depads _ hd (haligned hb)] at hchunk
    cases hchunk
    exact ⟨rfl, hctx⟩
  · rw [chunk_true_stream _ x hb, streamFinal_of_not_depads _ x hd, streamMap_ctx_holding] at hchunk
    cases hchunk
    exact ⟨rfl, hctx⟩

/-- R179, R183, R184: the final chunk of a decryption with padding removes the pad of `plain`, what is decrypted and not
yet let go. -/
theorem chunk_true_depads {p : Prims} {c : CipherCtx} {x plain : Bytes} (h : c.Depads)
    (hplain : if c.mode.isBlock then (c.res.length + x.length) % 16 = 0 ∧ plain = (blockMap p c (c.res ++ x)).1
      else plain = c.res ++ (streamMap p c x).1) :
    ∃ c', c'.res = [] ∧ chunk p true c x = (depad plain).map fun out => (out, c') := by
  cases hb : c.mode.isBlock with
  | true =>
    rw [if_pos hb] at hplain
    obtain ⟨hlen, rfl⟩ := hplain
    exact ⟨_, rfl, (chunk_true_block p x hb).trans (blockFinal_of_depads p h hlen)⟩
  | false =>
    rw [if_neg (by simp [hb])] at hplain
    subst hplain
    exact ⟨_, rfl, (chunk_true_stream p x hb).trans (streamFinal_depads p x h.1 h.2)⟩

/-- Settles O39: by what `depad` gives, and whether it fits. -/
theorem cipherFinalDepadsDecryption : Obligations.CipherFinalDepadsDecryption := by
  intro s plain hactive hr hdir hpad x hplain
  have hxlen : x.length = s.eng.op.srcLen.toNat := memRead_length _ _ _
  rw [← hxlen] at hplain
  obtain ⟨c, hres, hchunk⟩ := chunk_true_depads (p := Config.prims) (c := s.ctx) (x := x) ⟨hdir, hpad⟩ hplain
  refine ⟨_, exec_cipherFinal s, finishCipher_mac s _, (finishCipher_ended s (chunkResult_ne_ok _ _ _)).rest,
    fun out n h1 h2 hout => ⟨fun hle => ?_, fun hlt => ?_⟩, fun hbad => ?_⟩
  · rw [depad_eq_ok_iff.mpr ⟨n, h1, h2, hout⟩] at hchunk
    rw [chunkResult_ok hactive hr hchunk hle]
    obtain ⟨hend, hctx, -⟩ := finishCipher_ok s (settleCtx true c) out
    rw [hctx]
    exact ⟨rfl, (chunk_keeps hchunk).2, hres, hend.holds, hend.outside, hend.eng⟩
  · rw [depad_eq_ok_iff.mpr ⟨n, h1, h2, hout⟩] at hchunk
    rw [chunkResult_too_long hactive hr hchunk hlt]
    obtain ⟨hend, hctx, -⟩ := finishCipher_error s .bufferTooSmall
    exact ⟨hctx, hend.ramSame, hend.eng⟩
  · rw [depad_error hbad] at hchunk
    rw [chunkResult_error hactive hr hchunk]
    obtain ⟨hend, hctx, -⟩ := finishCipher_error s .invalidPadding
    exact ⟨hctx, hend.ramSame, hend.eng⟩

/-! ### The errors of the two -/

theorem finishCipher_eng_of_error {s : State} {r : Except ErrCode (CipherCtx × Bytes)} {e : ErrCode}
    (h : r = .error e) : (finishCipher s r).eng = s.eng.failed e := h ▸ (finishCipher_error s e).1.eng

/-- R187: what a cipher command that does not end OK leaves. -/
theorem finishCipher_of_errcode_ne {s : State} {r : Except ErrCode (CipherCtx × Bytes)}
    (h : (finishCipher s r).eng.errcode ≠ .ok) :
    (finishCipher s r).ctx = CipherCtx.uninit ∧ (finishCipher s r).mac = s.mac ∧ (finishCipher s r).eng.resultLen = 0 ∧
      RamSame s (finishCipher s r) ∧ SameRest s (finishCipher s r) := by
  rcases r with e | ⟨c, out⟩
  · obtain ⟨hend, hctx, hmac⟩ := finishCipher_error s e
    exact ⟨hctx, hmac, congrArg Eng.resultLen hend.eng, hend.ramSame, hend.rest⟩
  · exact absurd rfl h

/-- Settles O40: by the command, each check from the ones before it. -/
theorem cipherChunkErrorsInOrder : Obligations.CipherChunkErrorsInOrder := by
  intro s i hi
  have hlen : (srcBytes s).length = s.eng.op.srcLen.toNat := srcBytes_length s
  rcases hi with rfl | rfl
  · refine ⟨_, exec_cipherUpdate s, fun h => finishCipher_eng_of_error (chunkResult_not_active h),
      fun ha hr => finishCipher_eng_of_error (chunkResult_out_of_range ha hr), nofun, fun ha hr _ hlt => ?_, nofun,
      finishCipher_of_errcode_ne⟩
    rw [← hlen, ← updated_length Config.prims] at hlt
    exact finishCipher_eng_of_error (chunkResult_too_long ha hr (chunk_false _ _ _) hlt)
  · refine ⟨_, exec_cipherFinal s, fun h => finishCipher_eng_of_error (chunkResult_not_active h),
      fun ha hr => finishCipher_eng_of_error (chunkResult_out_of_range ha hr), fun ha hr _ hb hn hodd => ?_, nofun,
      fun ha hr _ hinv hd haligned hlt => ?_, finishCipher_of_errcode_ne⟩
    · rw [← hlen] at hodd
      exact finishCipher_eng_of_error
        (chunkResult_error ha hr ((chunk_true_block _ _ hb).trans (blockFinal_unaligned _ hn hodd)))
    · rw [← hlen] at haligned hlt
      obtain ⟨out, c, hchunk, hout⟩ := chunk_true_length (p := Config.prims) hinv hd haligned
      exact finishCipher_eng_of_error (chunkResult_too_long ha hr hchunk (hout ▸ hlt))

/-! ### CIPHER_CLEAN -/

/-- Settles O51: each field of STATUS that shows the cipher unit or the error is 0. -/
theorem cipherCleanZeroizes : Obligations.CipherCleanZeroizes := by
  refine ⟨rfl, fun s => ⟨exec_cipherClean s, fun hs hu => ?_, _, rfl, ?_, ?_, ?_, ?_⟩⟩
  · rw [exec_cipherClean, ← hs.ctx.uninit_zero hu]
  · simp [statusWord, extract_or, CipherCtx.uninit, Eng.completed, ErrCode.code, CState.code]
  · simp [statusWord, extract_or, CipherCtx.uninit, Mode.code, Dir.bit]
  · simp [statusWord, Eng.completed]
  · simp [statusWord, Eng.completed, regField_getElem]

/-! ### What the commands make of the cipher context -/

/-- R245, R246, R248: a cipher command that ends OK leaves the context it computed, and one that does not leaves the
zeroized one. -/
theorem finishCipher_ctx {s : State} {r : Except ErrCode (CipherCtx × Bytes)} {P : CipherCtx → Prop}
    (hr : r ≠ .error .ok) (hP : ∀ c out, r = .ok (c, out) → P c) :
    if (finishCipher s r).eng.errcode = .ok then P (finishCipher s r).ctx
      else (finishCipher s r).ctx = CipherCtx.uninit := by
  rcases r with e | ⟨c, out⟩
  · have he : (finishCipher s (.error e)).eng.errcode ≠ .ok := fun he => hr (congrArg Except.error he)
    rw [if_neg he]; rfl
  · exact hP c out rfl

theorem finishMac_ctx (s : State) (r : Except ErrCode (MacCtx × Bytes)) : (finishMac s r).ctx = s.ctx := by
  rcases r with e | ⟨m, out⟩ <;> rfl

theorem finishSystem_ctx (s : State) (r : Except ErrCode Bytes) : (finishSystem s r).ctx = s.ctx := by
  rcases r with e | out <;> rfl

/-- R165: the context that CIPHER_INIT computes. -/
theorem cipherInitResult_eq_ok {mode ksz : Nat} {dir : Dir} {pad : Bool} {s : State} {c : CipherCtx} {out : Bytes}
    (h : cipherInitResult mode ksz dir pad s = .ok (c, out)) : c.cstate = .active := by
  rcases cipherInitResult_cases mode ksz dir pad s with e | ⟨_, _, -, -, -, -, -, e⟩ <;> cases e.symm.trans h
  rfl

/-- R160, R180: the context that CIPHER_UPDATE or CIPHER_FINAL computes is the chunk's of an ACTIVE context. -/
theorem chunkResult_eq_ok {p : Prims} {final : Bool} {s : State} {c : CipherCtx} {out : Bytes}
    (h : chunkResult p final s = .ok (c, out)) :
    s.ctx.cstate = .active ∧ ∃ c', c'.cstate = .active ∧ c'.key = s.ctx.key ∧ c = settleCtx final c' := by
  rcases chunkResult_cases p final s with
    ⟨-, e⟩ | ⟨-, -, e⟩ | ⟨ha, -, ⟨_, -, e⟩ | ⟨_, _, -, -, e⟩ | ⟨_, c', hchunk, -, e⟩⟩ <;> cases e.symm.trans h
  obtain ⟨hcstate, hkey⟩ := chunk_keeps hchunk
  exact ⟨ha, c', hcstate.trans ha, hkey, rfl⟩

/-! ### What the other actions make of the cipher context -/

theorem hostRead_ctx (off : HostOffset) (w : Nat) (s : State) : (hostRead off w s).ctx = s.ctx := by
  unfold hostRead; split <;> rfl

theorem hostWrite_ctx (off : HostOffset) (w : Nat) (v : Word) (s : State) : (hostWrite off w v s).ctx = s.ctx := by
  rcases hostWrite_cases off w v s with ⟨-, e⟩ | ⟨_, -, -, -, -, -, e⟩ | ⟨-, -, -, e⟩ | e <;> rw [e]
  · rfl
  · exact (writeReg_frame v s _).1

theorem EngineTurn.ctx {s s0 : State} (h : EngineTurn s s0) : s0.ctx = s.ctx := by
  rcases h with ⟨-, rfl⟩ | ⟨_, -, rfl⟩ <;> rfl

/-- R257, R247: an engine's turn that performs no command leaves the cipher context. -/
theorem step_ctx_of_no_command {s t : State} (hturn : s.TurnNext) (h : step s = .next t)
    (hnone : s.eng.busy = false ∨ ∃ e, decode s.eng.cmd = .error e) : t.ctx = s.ctx := by
  obtain ⟨s0, hs0, ⟨-, rfl⟩ | ⟨hbusy, i, hi, -⟩ | ⟨-, _, -, rfl⟩⟩ := step_cases_of_turnNext hturn h
  · exact hs0.ctx
  · rcases hnone with hidle | ⟨e, he⟩
    · exact absurd (hidle.symm.trans hbusy) nofun
    · exact absurd (he.symm.trans hi) nofun
  · exact hs0.ctx

/-- Settles O52: by the command, and by the action of the step. -/
theorem cipherLifecycle : Obligations.CipherLifecycle := by
  refine ⟨fun i s t h => ?_, fun s t rest h => ⟨fun hi => ?_, fun off w hi => ?_, fun off w v hi => ?_, fun hi => ?_⟩⟩
  · cases i with
    | nop | cipherClean | macClean | zeroizeAll => cases h; rfl
    | macSetkey | macCompute | kdfDerive => cases h; exact finishMac_ctx s _
    | bufZero => cases h; exact finishSystem_ctx s _
    | cipherInit => cases h; exact finishCipher_ctx (cipherInitResult_ne_ok _ _ _ _ s) fun _ _ => cipherInitResult_eq_ok
    | cipherUpdate =>
      cases h
      refine finishCipher_ctx (P := fun c => s.ctx.cstate = .active ∧ c.cstate = .active)
        (chunkResult_ne_ok _ false s) fun _ _ hok => ?_
      obtain ⟨ha, c, hactive, -, rfl⟩ := chunkResult_eq_ok hok
      exact ⟨ha, hactive⟩
    | cipherFinal =>
      cases h
      refine finishCipher_ctx (P := fun c => s.ctx.cstate = .active ∧ c.cstate = .done ∧ c.key = s.ctx.key)
        (chunkResult_ne_ok _ true s) fun _ _ hok => ?_
      obtain ⟨ha, c, -, hkey, rfl⟩ := chunkResult_eq_ok hok
      exact ⟨ha, rfl, hkey⟩
  · cases h.symm.trans (step_reset hi); rfl
  · cases h.symm.trans (step_read hi); exact hostRead_ctx off w _
  · cases h.symm.trans (step_write hi); exact hostWrite_ctx off w v _
  · exact step_ctx_of_no_command (hi.imp_right fun hi => ⟨rest, hi⟩) h

end Machine
end Sys2Proof
end

section
/-! The system commands (spec/43_system.md R220, R222, R224): NOP, BUF_ZERO and ZEROIZE_ALL, with what each leaves
unchanged. -/

namespace Sys2Proof.Machine

theorem exec_nop (s : State) : exec .nop s = .next { s with eng := s.eng.completed 0 } := rfl

theorem exec_bufZero (s : State) : exec .bufZero s = .next (finishSystem s (bufZeroResult s)) := rfl

theorem exec_zeroizeAll (s : State) :
    exec .zeroizeAll s =
      .next { s with ctx := CipherCtx.uninit, mac := MacCtx.unkeyed, ram := [], eng := s.eng.completed 0 } := rfl

/-! ### NOP -/

/-- R244, R285: the engine performs the command that an accepted word decodes to. -/
theorem completionStep_accept {w : Word} {i : Instr} (h : decode w = .ok i) (s : State) :
    completionStep (accept w s) = exec i (accept w s) := by
  simp [completionStep, h]

/-- Log 2: so does the step after a word is placed. -/
theorem step_withFetchWord {nbits w : Nat} {i : Instr} (h : decode (BitVec.ofNat 32 (w % 2 ^ nbits)) = .ok i)
    (s : State) : step (s.withFetchWord nbits w) = exec i (accept (BitVec.ofNat 32 (w % 2 ^ nbits)) s) :=
  (step_engine (rest := s.inbox) rfl).trans (completionStep_accept h s)

/-- Settles O53: the example is the step after the word 0 is accepted. -/
theorem nopCompletes : Obligations.NopCompletes := by
  have hstep : ∀ g, step ((State.resetOf g).withFetchWord 32 0) = exec .nop (accept 0 (State.resetOf g)) :=
    fun g => step_withFetchWord rfl (State.resetOf g)
  refine ⟨rfl, exec_nop, fun g => ⟨_, (hstep g).trans (exec_nop _), ?_⟩⟩
  have hdone : regField 1 1 1 = 2 := rfl
  simp [statusWord, Eng.completed, State.resetOf, Eng.reset, CipherCtx.uninit, MacCtx.unkeyed, ErrCode.code,
    CState.code, MState.bit, Mode.code, Dir.bit, HashAlg.code, hdone]

/-! ### BUF_ZERO -/

/-- Settles O54: by whether the area lies in RAM. -/
theorem bufZeroErasesItsArea : Obligations.BufZeroErasesItsArea := by
  refine ⟨rfl, fun s => ?_⟩
  rcases bufZeroResult_cases s with ⟨hin, hresult⟩ | ⟨hout, hresult⟩
  · obtain ⟨hend, hctx, hmac⟩ := finishSystem_ok s (zeros s.eng.op.dstCap.toNat)
    exact ⟨_, (exec_bufZero s).trans (by rw [hresult]), hctx, hmac, hend.rest,
      fun _ => ⟨fun i hi => (hend.holds i (by rwa [zeros_length])).trans (zeros_getD _ i),
        by simpa only [zeros_length] using hend.outside, by simpa only [zeros_length] using hend.eng⟩,
      fun hout => absurd hin (Nat.not_le.mpr hout)⟩
  · obtain ⟨hend, hctx, hmac⟩ := finishSystem_error s .invalidParameters
    exact ⟨_, (exec_bufZero s).trans (by rw [hresult]), hctx, hmac, hend.rest,
      fun hin => absurd hin (Nat.not_le.mpr hout), fun _ => ⟨hend.ramSame, hend.eng⟩⟩

/-! ### ZEROIZE_ALL -/

/-- Settles O55: an empty RAM list reads 0 at every address. -/
theorem zeroizeAllErasesEverySecret : Obligations.ZeroizeAllErasesEverySecret :=
  ⟨rfl, fun s => ⟨_, exec_zeroizeAll s, rfl, rfl, fun _ => rfl, rfl, ⟨rfl, rfl, rfl, rfl⟩⟩⟩

end Sys2Proof.Machine
end

section
/-! Exceptions (spec/60_exceptions.md R243 to R248): what acceptance takes, what an illegal word leaves, and what an
error erases. -/

namespace Sys2Proof.Machine

/-! ### Acceptance -/

theorem writeCmd_of_idle {s : State} (w : Word) (h : s.eng.busy = false) : writeCmd w s = accept w s := by
  simp [writeCmd, h]

/-- R288: the dropped command word. -/
theorem writeCmd_of_busy {s : State} (w : Word) (h : s.eng.busy = true) :
    writeCmd w s = { s with eng := { s.eng with overrun := true } } := by
  simp [writeCmd, h]

/-- R71, R244: the step of a 32-bit write to CMD. -/
theorem step_write_cmd {s : State} {w : Word} {rest : List Action} (h : s.inbox = .write 0x010 4 w :: rest) :
    step s = .next (writeCmd w { s with inbox := rest }) := step_write_register h (by decide) (by decide)

/-- Settles O11: by whether the engine is busy. -/
theorem commandWritesAreAcceptedWhenIdle : Obligations.CommandWritesAreAcceptedWhenIdle := by
  intro s w rest hi
  rw [step_write_cmd hi]
  exact ⟨fun hidle => congrArg Host.Outcome.next (writeCmd_of_idle (s := { s with inbox := rest }) w hidle),
    fun hbusy => congrArg Host.Outcome.next (writeCmd_of_busy (s := { s with inbox := rest }) w hbusy)⟩

/-! ### Illegal words -/

/-- R247: IllegalCommand erases nothing. -/
theorem illegalCommand_eq (s : State) : illegalCommand s = { s with eng := s.eng.failed .illegalCommand } := rfl

theorem completionStep_of_illegal {s : State} {e : DecodeError} (hbusy : s.eng.busy = true)
    (h : decode s.eng.cmd = .error e) : completionStep s = .next (illegalCommand s) := by
  simp [completionStep, hbusy, h]

/-- Settles O20. -/
theorem illegalWordsChangeStatusOnly : Obligations.IllegalWordsChangeStatusOnly := by
  intro s e rest hbusy hdecode hi
  rw [step_engine hi, completionStep_of_illegal (s := { s with inbox := rest }) hbusy hdecode, illegalCommand_eq]

/-! ### Every command completes -/

/-- R243: no command stops the machine. -/
theorem exec_total (i : Instr) (s : State) : ∃ t, exec i s = .next t := by
  cases i <;> exact ⟨_, rfl⟩

/-- Settles O21. -/
theorem everyCommandCompletes : Obligations.EveryCommandCompletes := by
  intro i s
  obtain ⟨t, h⟩ := exec_total i s
  have hend := exec_ended h
  exact ⟨t, h, hend.rest, hend.eng⟩

/-! ### What an error erases -/

/-- R246: an engine that ended with an error code other than OK failed with it. -/
theorem Eng.Ended.failed_of_ne_ok {e f : Eng} (h : e.Ended f) (hne : f.errcode ≠ .ok) : f = e.failed f.errcode := by
  rcases h with ⟨_, rfl⟩ | ⟨_, -, rfl⟩
  · exact absurd rfl hne
  · rfl

/-- R246: a command that does not end OK leaves RAM, with no result. -/
theorem exec_endsIn {i : Instr} {s t : State} (h : exec i s = .next t) (hne : t.eng.errcode ≠ .ok) :
    EndsIn s t t.eng.errcode where
  ram := by_contra fun hram => hne (exec_ram_ne h hram).1
  eng := (exec_ended h).eng.failed_of_ne_ok hne
  rest := (exec_ended h).rest

/-- R130, R146: a MAC or KDF command that does not end OK leaves the MAC context zeroized. -/
theorem finishMac_of_errcode_ne {s : State} {r : Except ErrCode (MacCtx × Bytes)}
    (h : (finishMac s r).eng.errcode ≠ .ok) : (finishMac s r).mac = MacCtx.unkeyed := by
  rcases r with e | ⟨m, out⟩
  · exact (finishMac_error s e).2.1
  · exact absurd rfl h

/-- Settles O22: RAM and RESULT_LEN for all commands at once, the erased unit by the command. -/
theorem errorsEraseTheirUnit : Obligations.ErrorsEraseTheirUnit := by
  intro i s t h
  refine ⟨fun hne => ?_, ?_⟩
  · have hend := exec_endsIn h hne
    refine ⟨hend.ram, congrArg Eng.resultLen hend.eng, ?_⟩
    cases i with
    | cipherInit | cipherUpdate | cipherFinal =>
      cases h
      obtain ⟨hctx, hmac, -⟩ := finishCipher_of_errcode_ne hne
      exact ⟨hctx, hmac⟩
    | macSetkey | macCompute | kdfDerive => cases h; exact ⟨finishMac_of_errcode_ne hne, finishMac_ctx s _⟩
    | bufZero => cases h; exact ⟨finishSystem_ctx s _, finishSystem_mac s _⟩
    | nop | cipherClean | macClean | zeroizeAll => cases h; exact hne rfl
  · rintro halg rfl
    cases h
    exact finishMac_kdfResult_mac _ halg s

end Sys2Proof.Machine
end

section
/-! Reset and hazards (spec/70_reset_and_hazards.md R280, R281, R285 to R288): what a reset abandons, what the engine's
turn performs, what the host cannot reach while BUSY, and which operands a command reads. -/

namespace Sys2Proof.Machine

/-! ### Reset -/

/-- Settles O2: a reset does not ask whether a command is in progress. -/
theorem resetAbandonsTheCommandInProgress : Obligations.ResetAbandonsTheCommandInProgress :=
  fun _ _ hi => ⟨_, step_reset hi, rfl, rfl, rfl, fun _ => rfl, rfl, rfl, rfl, rfl, rfl⟩

/-! ### The engine's turn -/

/-- Log 1: with nothing to come, the step is the engine's turn. -/
theorem step_inbox_nil {s : State} (hi : s.inbox = []) : step s = completionStep s := by
  simp [step, nextTurn, hi]

/-- R285, R97: the engine's turn on an accepted word that is legal. -/
theorem completionStep_of_decode {s : State} {i : Instr} (hbusy : s.eng.busy = true) (h : decode s.eng.cmd = .ok i) :
    completionStep s = exec i s := by
  simp [completionStep, hbusy, h]

/-- R257, R280: the engine's turn with no command accepted. -/
theorem completionStep_of_idle {s : State} (h : s.eng.busy = false) : completionStep s = .next s := by
  simp [completionStep, h]

/-- Settles O19: by whether a command is accepted, and by whether the turn is marked. -/
theorem stepRunsTheDecodedCommand : Obligations.StepRunsTheDecodedCommand := by
  refine ⟨fun s i hbusy hdecode _ => ⟨fun rest hi => ?_, fun hi => ?_⟩,
    fun s hidle => ⟨fun rest hi => ?_, fun hi => ?_⟩⟩
  · rw [step_engine hi, completionStep_of_decode (s := { s with inbox := rest }) hbusy hdecode]
  · rw [step_inbox_nil hi, completionStep_of_decode hbusy hdecode]
  · rw [step_engine hi, completionStep_of_idle (s := { s with inbox := rest }) hidle]
  · rw [step_inbox_nil hi, completionStep_of_idle hidle]

/-! ### Host accesses while BUSY -/

/-- R286, R288: while BUSY, a step that is neither a reset nor the engine's turn leaves the accepted command and the
last result; a CMD write is then dropped. -/
theorem EngStep.keeps_command {s : State} {e : Eng} (h : EngStep s e) (hbusy : s.eng.busy = true)
    (hturn : ¬s.TurnNext) :
    e.busy = true ∧ e.cmd = s.eng.cmd ∧ e.op = s.eng.op ∧ e.errcode = s.eng.errcode ∧
      e.resultLen = s.eng.resultLen := by
  cases h with
  | idleTurn hturn' | ended hturn' => exact absurd hturn' hturn
  | acceptCmd _ hidle => exact absurd (hidle.symm.trans hbusy) nofun
  | refusedRead | refusedWrite | read | writeStatus | writeCtrl | dropCmd | otherWrite =>
    exact ⟨hbusy, rfl, rfl, rfl, rfl⟩

/-- R70: while BUSY, the host's window is closed to writes. -/
theorem hostWrite_ram_of_busy {s : State} (hbusy : s.eng.busy = true) (off : HostOffset) (w : Nat) (v : Word) :
    (hostWrite off w v s).ram = s.ram :=
  by_contra fun hram => absurd ((hostWrite_ram_ne hram).1.symm.trans hbusy) nofun

/-- Settles O12: the engine by what a step can do to it, the rest by the access. -/
theorem busyWindowKeepsTheCommand : Obligations.BusyWindowKeepsTheCommand := by
  intro s t a rest hbusy hi haccess h
  have hreset : ∀ rest', s.inbox ≠ .reset :: rest' := by
    rcases haccess with ⟨_, _, rfl⟩ | ⟨_, _, _, rfl⟩ <;> simp [hi]
  have hturn : ¬s.TurnNext := by
    rcases haccess with ⟨_, _, rfl⟩ | ⟨_, _, _, rfl⟩ <;> simp [State.TurnNext, hi]
  have heng := (step_engStep h hreset).keeps_command hbusy hturn
  rcases haccess with ⟨off, w, rfl⟩ | ⟨off, w, v, rfl⟩
  · cases h.symm.trans (step_read hi)
    exact ⟨hostRead_ctx off w _, hostRead_mac off w _, hostRead_ram off w _, heng⟩
  · cases h.symm.trans (step_write hi)
    exact ⟨hostWrite_ctx off w v _, hostWrite_mac off w v _,
      hostWrite_ram_of_busy (s := { s with inbox := rest }) hbusy off w v, heng⟩

/-! ### The operands that a command reads

R287: what a command computes and how it ends come from the latched operands, `eng.op`. -/

section LiveRegisters
variable (s : State) (r : OpRegs)

theorem cipherInitResult_with_regs (mode ksz : Nat) (dir : Dir) (pad : Bool) :
    cipherInitResult mode ksz dir pad { s with regs := r } = cipherInitResult mode ksz dir pad s := rfl

theorem chunkResult_with_regs (p : Prims) (final : Bool) :
    chunkResult p final { s with regs := r } = chunkResult p final s := rfl

theorem macSetkeyResult_with_regs (p : Prims) (halg : Nat) :
    macSetkeyResult p halg { s with regs := r } = macSetkeyResult p halg s := rfl

theorem macComputeResult_with_regs (p : Prims) :
    macComputeResult p { s with regs := r } = macComputeResult p s := rfl

theorem kdfResult_with_regs (p : Prims) (halg : Nat) :
    kdfResult p halg { s with regs := r } = kdfResult p halg s := rfl

theorem bufZeroResult_with_regs : bufZeroResult { s with regs := r } = bufZeroResult s := rfl

theorem finishCipher_with_regs (res : Except ErrCode (CipherCtx × Bytes)) :
    finishCipher { s with regs := r } res = { finishCipher s res with regs := r } := by
  rcases res with e | ⟨c, out⟩ <;> rfl

theorem finishMac_with_regs (res : Except ErrCode (MacCtx × Bytes)) :
    finishMac { s with regs := r } res = { finishMac s res with regs := r } := by
  rcases res with e | ⟨m, out⟩ <;> rfl

theorem finishSystem_with_regs (res : Except ErrCode Bytes) :
    finishSystem { s with regs := r } res = { finishSystem s res with regs := r } := by
  rcases res with e | out <;> rfl

end LiveRegisters

/-- R287: a command computes the same from other live registers, and leaves them as they are. -/
theorem exec_with_regs {i : Instr} {s t : State} (h : exec i s = .next t) (r : OpRegs) :
    exec i { s with regs := r } = .next { t with regs := r } := by
  cases i with
  | nop | cipherClean | macClean | zeroizeAll => cases h; rfl
  | cipherInit => cases h; rw [exec_cipherInit, cipherInitResult_with_regs, finishCipher_with_regs]
  | cipherUpdate => cases h; rw [exec_cipherUpdate, chunkResult_with_regs, finishCipher_with_regs]
  | cipherFinal => cases h; rw [exec_cipherFinal, chunkResult_with_regs, finishCipher_with_regs]
  | macSetkey => cases h; rw [exec_macSetkey, macSetkeyResult_with_regs, finishMac_with_regs]
  | macCompute => cases h; rw [exec_macCompute, macComputeResult_with_regs, finishMac_with_regs]
  | kdfDerive => cases h; rw [exec_kdfDerive, kdfResult_with_regs, finishMac_with_regs]
  | bufZero => cases h; rw [exec_bufZero, bufZeroResult_with_regs, finishSystem_with_regs]

/-- Settles O23: every command, whatever the live registers, and acceptance. -/
theorem commandsReadTheLatchedOperands : Obligations.CommandsReadTheLatchedOperands := by
  refine ⟨fun i s r => ?_, fun s w rest hidle hi => ?_⟩
  · obtain ⟨t, h⟩ := exec_total i s
    exact ⟨t, h, exec_with_regs h r⟩
  · refine ⟨_, step_write_cmd hi, ?_⟩
    rw [writeCmd_of_idle (s := { s with inbox := rest }) w hidle]
    rfl

end Sys2Proof.Machine
end
